-- ==== Sys2Proof/Word.lean ====
section
/-! DEFINITION. The byte and register widths of the block (00_scope.md R7) and the outcome of a bit-reader
operation (00_scope.md R14). -/

namespace Sys2Proof

/-- One byte: the unit of every memory (R7). -/
abbrev Byte := BitVec 8

/-- One host-visible register: 32 bits (R7, R21). -/
abbrev Word := BitVec 32

/-- What a bit-reader operation returns (R14): a value with the new position, or `exhausted`, which is an outcome
apart from every data value. -/
inductive BitRead where
  | value (v p : Nat)
  | exhausted
  deriving DecidableEq, Repr

end Sys2Proof
end

