-- ==== Sys2Proof/Config.lean ====
section
/-! DEFINITION. The fixed parameters (00_scope.md R7), the open parameters (R8), and the free values: constants with
no body, one for each value the spec leaves unspecified (10_state.md R39, R40; 93_implementation_defined.md I15, I16,
I19). -/

namespace Sys2Proof

/-- `WMAX`: largest window and largest encodable distance (R7). -/
@[simp] abbrev Config.wMax : Nat := 4095
/-- `WMIN`: smallest window (R7). -/
@[simp] abbrev Config.wMin : Nat := 1
/-- `MAXLEN = LOOKAHEAD - 1`: longest candidate length (R7). -/
@[simp] abbrev Config.maxLen : Nat := 14
/-- `MINLEN`: shortest candidate length (R7). -/
@[simp] abbrev Config.minLen : Nat := 2
/-- `LITTOK_W = FLAG_W + LIT_W`: literal token width in bits (R7). -/
@[simp] abbrev Config.litTokW : Nat := 9
/-- `COPYTOK_W = FLAG_W + DIST_W + LEN_W`: copy token width in bits (R7). -/
@[simp] abbrev Config.copyTokW : Nat := 17

/-- The open parameters (R8). The domain 0 to 2^28 - 1 of the two capacities is their type. -/
structure Params where
  /-- `SRC_CAP`, the size of SRC in bytes. -/
  srcCap : BitVec 28
  /-- `DST_CAP`, the size of DST in bytes. -/
  dstCap : BitVec 28
  /-- `REJECT_INVALID_WINDOW`. -/
  rejectInvalidWindow : Bool
  deriving DecidableEq, Repr

/-- The parameters the reset state names: `REJECT_INVALID_WINDOW` at its default false (R8), and, DESIGN CHOICE
(log 1), the largest capacities R8 allows. No statement rests on them: State holds the parameters, so a statement over
every state covers every value. -/
def Params.default : Params :=
  { srcCap := BitVec.allOnes 28, dstCap := BitVec.allOnes 28, rejectInvalidWindow := false }

/-- Free value (log 6): what a host read of an unwritten register returns on the n-th draw (R40). -/
opaque Config.freeWord : Nat → Word
/-- Free value (log 6): a byte the spec leaves unspecified, on the n-th draw (I16, I19, R71). -/
opaque Config.freeByte : Nat → Byte
/-- Free value (log 7): POS where it is unspecified, on the n-th draw (R31, I19). -/
opaque Config.freePos : Nat → Nat
/-- Free value (log 7): BW_N where it is unspecified, on the n-th draw (I19). -/
opaque Config.freeBwN : Nat → BitVec 3
/-- Free value (log 16): the number of bits left after a position that is past the stream, where `T - p` is no number,
on the n-th draw (R106). -/
opaque Config.freeRemaining : Nat → Nat
/-- Free value (log 16): the answer of a comparison whose tiling does not exist (R133), and of the end test at a position
past the stream (R109), on the n-th draw. -/
opaque Config.freeTest : Nat → Bool
/-- Free value (log 4): what a SRC index that was never written holds (R40). A command that would read one is
refused at its start. -/
opaque Config.unwrittenSrc : Nat → Byte
/-- Free value (log 5): what a DST index to which nothing was appended since reset holds, by draw count and index
(R39, I15). -/
opaque Config.unwrittenDst : Nat → Nat → Byte

end Sys2Proof
end

