-- ==== Sys2Proof/Syntax.lean ====
section
/-! DEFINITION. The instructions: one constructor per row of spec/opcode_table.json (30_encoding.md R92), the two
tokens of the decoder's program (R80), and the actions the HOST can take on the block (10_state.md R21, 20_memory.md
R60, 70_reset_and_hazards.md R230). -/

namespace Sys2Proof

/-- A token of the stream: the decoder's two instructions (R80, R82, R83). -/
inductive Token where
  /-- `LIT b`, 9 bits (R82). -/
  | lit (b : Byte)
  /-- `COPY distance, length`, 17 bits (R83). -/
  | copy (distance : BitVec 12) (length : BitVec 4)
  deriving DecidableEq, Repr

/-- The opcode map (R92): the token stream, the commands of `CTRL`, and the internal operations, in the table's
order. -/
inductive Instr where
  /-- LIT: the decoder's literal token (R172). -/
  | lit (b : Byte)
  /-- COPY: the decoder's back-reference token (R173). -/
  | copy (distance : BitVec 12) (length : BitVec 4)
  /-- NOP: `CTRL.CMD = 0b00` (R159). -/
  | nop
  /-- ENCODE: `CTRL.CMD = 0b01` (R150). -/
  | encode
  /-- DECODE: `CTRL.CMD = 0b10` (R170). -/
  | decode
  /-- BW_INIT (R100). -/
  | bwInit
  /-- BW_WRITEBIT(b) (R101). -/
  | bwWriteBit (b : Bool)
  /-- BW_WRITEBITS(v, k) (R102). -/
  | bwWriteBits (v k : Nat)
  /-- BW_FLUSH (R103). -/
  | bwFlush
  /-- BR_INIT (R105). -/
  | brInit
  /-- BR_REMAINING(p) (R106). -/
  | brRemaining (p : Nat)
  /-- BR_READBIT(p) (R107). -/
  | brReadBit (p : Nat)
  /-- BR_READBITS(p, k) (R108). -/
  | brReadBits (p k : Nat)
  /-- BR_CLEAN_END(p) (R109). -/
  | brCleanEnd (p : Nat)
  /-- MF_TILE_MATCH(i, i', L) (R133). -/
  | mfTileMatch (i i' len : Nat)
  /-- MF_FIND(i) (R134). -/
  | mfFind (i : Nat)
  /-- ENC_STEP (R151). -/
  | encStep
  /-- ENC_EMIT_COPY(d, L) (R152). -/
  | encEmitCopy (d len : Nat)
  /-- ENC_EMIT_LIT(b) (R153). -/
  | encEmitLit (b : Byte)
  /-- ENC_FINISH (R156). -/
  | encFinish
  /-- DEC_STEP (R171). -/
  | decStep
  /-- COPY_REPLAY(distance, length) (R174). -/
  | copyReplay (distance length : Nat)
  /-- RESET (R230). -/
  | reset
  deriving DecidableEq, Repr

/-- The instruction a token of the stream stands for. -/
def Token.toInstr : Token → Instr
  | .lit b => .lit b
  | .copy d l => .copy d l

/-- What the HOST can do to the block, one action at a time (R5, R21, R60, R216, R230). `off` is a byte offset from
the register base and `width` the access width in bytes. `wait` is no access: the HOST lets CORE take one step. -/
inductive HostAction where
  | regWrite (off width : Nat) (v : Word)
  | regRead (off width : Nat)
  | srcWrite (k : Nat) (b : Byte)
  | srcRead (k : Nat)
  | dstWrite (k : Nat) (b : Byte)
  | dstRead (k : Nat)
  | reset
  | wait
  deriving DecidableEq, Repr

end Sys2Proof
end

