-- ==== Sys2Proof/WellFormed.lean ====
section
/-! DEFINITION. Which terms of Instr are instructions: the operand domains the rules give that the types do not
already hold. Domains that speak of the state (a position below SRC_LEN) are the meanings' own. -/

namespace Sys2Proof

/-- The operand domain of each instruction: field widths 0 to 8 and fields that fit them (R102, R108), the encoder's
distances and lengths (R138, R152), the replay's 12-bit distance and 4-bit length (R174), candidate lengths 2 to 14
and an offset before the position (R131, R133). Every LIT and every COPY pattern is well formed (R88). -/
def WellFormed : Instr → Bool
  | .lit _ => true
  | .copy _ _ => true
  | .nop => true
  | .encode => true
  | .decode => true
  | .bwInit => true
  | .bwWriteBit _ => true
  | .bwWriteBits v k => decide (k ≤ 8) && decide (v < 2 ^ k)
  | .bwFlush => true
  | .brInit => true
  | .brRemaining _ => true
  | .brReadBit _ => true
  | .brReadBits _ k => decide (k ≤ 8)
  | .brCleanEnd _ => true
  | .mfTileMatch i i' len => decide (i' < i) && decide (2 ≤ len) && decide (len ≤ 14)
  | .mfFind _ => true
  | .encStep => true
  | .encEmitCopy d len => decide (1 ≤ d) && decide (d ≤ 4095) && decide (2 ≤ len) && decide (len ≤ 14)
  | .encEmitLit _ => true
  | .encFinish => true
  | .decStep => true
  | .copyReplay d len => decide (d ≤ 4095) && decide (len ≤ 15)
  | .reset => true

end Sys2Proof
end

