-- ==== Sys2Proof/Decode.lean ====
section
/-! DEFINITION. Bit numbering (00_scope.md R10, R11), the reading of fields (40_bit_channel.md R107, R108, R109), the
decoder of tokens and commands (30_encoding.md R81 to R84, R90), and the encoder written from the same tables (R82,
R83, R85, R90). The machine reads its program through the same decoder. -/

namespace Sys2Proof

/-! ### Bits -/

/-- The low `k` bits of `v`, most significant first: the order in which a field stands in the stream (R11). -/
def bitsMsb (v : Nat) : Nat → List Bool
  | 0 => []
  | k + 1 => v.testBit k :: bitsMsb v k

/-- `StreamBit` (R10, R107): stream bit `s` is bit `7 - (s mod 8)` of byte `s div 8`. -/
def streamBit (bytes : Nat → Byte) (s : Nat) : Bool := (bytes (s / 8)).getLsbD (7 - s % 8)

/-- The `k`-bit field at position `p`, first bit most significant: the loop of R108. -/
def fieldAt (bit : Nat → Bool) (p : Nat) : Nat → Nat
  | 0 => 0
  | k + 1 => 2 * fieldAt bit p k + (bit (p + k)).toNat

/-! ### The bit reader: `bit` is the stream and `T` the number of its bits -/

/-- `BR_READBIT(p)` (R107). -/
def readBit (bit : Nat → Bool) (T p : Nat) : BitRead :=
  if T ≤ p then .exhausted else .value (bit p).toNat (p + 1)

/-- `BR_READBITS(p, k)` (R108). -/
def readBits (bit : Nat → Bool) (T p k : Nat) : BitRead :=
  if T < p + k then .exhausted else .value (fieldAt bit p k) (p + k)

/-- `BR_CLEAN_END(p)` (R109): fewer than 8 bits remain and all of them are 0. -/
def cleanEnd (bit : Nat → Bool) (T p : Nat) : Bool :=
  decide (T - p < 8) && (List.range (T - p)).all (fun j => !bit (p + j))

/-! ### Tokens -/

/-- Why some bits are no instruction. -/
inductive DecodeError where
  /-- No bit remains for a flag (R109). -/
  | endOfStream
  /-- Flag 0 with fewer than 9 bits (R176). -/
  | truncatedLit
  /-- Flag 1 with fewer than 17 bits (R176). -/
  | truncatedCopy
  /-- A token was read and bits are left over, where exactly one token was asked for. -/
  | trailingBits
  /-- `CTRL.CMD = 0b11` (R90). -/
  | reservedCommand
  deriving DecidableEq, Repr

/-- Field extraction (R84): `distance = (byte1 << 4) | (byte2 >> 4)`. -/
def fieldDistance (byte1 byte2 : Nat) : BitVec 12 := BitVec.ofNat 12 ((byte1 <<< 4) ||| (byte2 >>> 4))

/-- Field extraction (R84): `length = byte2 & 0x0F`. -/
def fieldLength (byte2 : Nat) : BitVec 4 := BitVec.ofNat 4 (byte2 &&& 0x0F)

/-- The token at position `p` and the position after it (R81 to R84): the flag, then 8 bits or twice 8 bits. -/
def decodeToken (bit : Nat → Bool) (T p : Nat) : Except DecodeError (Token × Nat) :=
  match readBit bit T p with
  | .exhausted => .error .endOfStream
  | .value 0 p1 =>
    match readBits bit T p1 8 with
    | .exhausted => .error .truncatedLit
    | .value b p2 => .ok (.lit (BitVec.ofNat 8 b), p2)
  | .value (_ + 1) p1 =>
    match readBits bit T p1 8 with
    | .exhausted => .error .truncatedCopy
    | .value byte1 p2 =>
      match readBits bit T p2 8 with
      | .exhausted => .error .truncatedCopy
      | .value byte2 p3 => .ok (.copy (fieldDistance byte1 byte2) (fieldLength byte2), p3)

/-- The token at stream bit `p` of a byte string, for any bytes and any position. -/
def decodeTokenBytes (bytes : List Byte) (p : Nat) : Except DecodeError (Token × Nat) :=
  decodeToken (streamBit fun k => bytes.getD k 0) (8 * bytes.length) p

/-- The one token that a list of bits is, and no bit more. -/
def decodeTokenBits (l : List Bool) : Except DecodeError Token :=
  match decodeToken (fun k => l.getD k false) l.length 0 with
  | .error e => .error e
  | .ok (t, p) => if p = l.length then .ok t else .error .trailingBits

/-! ### Commands -/

/-- A write of `v` to CTRL is decoded by `v[1:0]` alone (R90). -/
def decodeCommand (v : Word) : Except DecodeError Instr :=
  match v.toNat % 4 with
  | 0 => .ok .nop
  | 1 => .ok .encode
  | 2 => .ok .decode
  | _ => .error .reservedCommand

/-! ### The two instruction sets as one (30_encoding.md, opening) -/

/-- The words of an instruction: the bits of a token in stream order, or a value written to CTRL. -/
inductive Code where
  | token (bits : List Bool)
  | ctrl (v : Word)
  deriving DecidableEq, Repr

/-- The instruction that some words are, or the reason why they are none. -/
def decode : Code → Except DecodeError Instr
  | .token l =>
    match decodeTokenBits l with
    | .ok t => .ok t.toInstr
    | .error e => .error e
  | .ctrl v => decodeCommand v

/-! ### The encoder -/

/-- Field packing (R85): `byte1 = d >> 4`. -/
def packByte1 (d : Nat) : Nat := d >>> 4

/-- Field packing (R85): `byte2 = ((d & 0xF) << 4) | L`. -/
def packByte2 (d len : Nat) : Nat := ((d &&& 0xF) <<< 4) ||| len

/-- The bits of a token in stream order (R82, R83, R85). -/
def encodeToken : Token → List Bool
  | .lit b => false :: bitsMsb b.toNat 8
  | .copy d l => true :: (bitsMsb (packByte1 d.toNat) 8 ++ bitsMsb (packByte2 d.toNat l.toNat) 8)

/-- A token's number of bits: `LITTOK_W` or `COPYTOK_W` (R81). -/
def Token.width : Token → Nat
  | .lit _ => Config.litTokW
  | .copy _ _ => Config.copyTokW

/-- The words of an instruction (R82, R83, R90); the internal operations have none (R92). Reserved bits of a command
are written 0 (R90). -/
def encode : Instr → Option Code
  | .lit b => some (.token (encodeToken (.lit b)))
  | .copy d l => some (.token (encodeToken (.copy d l)))
  | .nop => some (.ctrl 0)
  | .encode => some (.ctrl 1)
  | .decode => some (.ctrl 2)
  | .bwInit => none
  | .bwWriteBit _ => none
  | .bwWriteBits _ _ => none
  | .bwFlush => none
  | .brInit => none
  | .brRemaining _ => none
  | .brReadBit _ => none
  | .brReadBits _ _ => none
  | .brCleanEnd _ => none
  | .mfTileMatch _ _ _ => none
  | .mfFind _ => none
  | .encStep => none
  | .encEmitCopy _ _ => none
  | .encEmitLit _ => none
  | .encFinish => none
  | .decStep => none
  | .copyReplay _ _ => none
  | .reset => none

/-! ### Words as spec/opcode_table.json numbers them -/

/-- The width in bits of a table row whose width in whole bytes is `nbits`: TOKEN9 in 2 bytes, TOKEN17 in 3
(R82, R83). -/
def tableTokenWidth (nbits : Nat) : Nat := if nbits ≤ 16 then Config.litTokW else Config.copyTokW

/-- The instruction that the table word `w` is. A token's integer view has its first stream bit as its most
significant bit (R11), so the 9 or 17 bits are laid out most significant first; a 32-bit row is a value written to
CTRL (R90). -/
def decodeTableWord (nbits w : Nat) : Option Instr :=
  (decode (if nbits ≤ 24 then .token (bitsMsb w (tableTokenWidth nbits)) else .ctrl (BitVec.ofNat 32 w))).toOption

/-- Packs a stream of bits into bytes (R10): `nbytes` bytes, of which byte `k` holds stream bits `8k` to `8k + 7`. -/
def packBytes (bit : Nat → Bool) (nbytes : Nat) : List Byte :=
  (List.range nbytes).map fun k => BitVec.ofNat 8 (fieldAt bit (8 * k) 8)

/-- The bytes of the token stream that holds the one table word `w`, zero padded to a byte boundary (R86). -/
def tableTokenBytes (nbits w : Nat) : List Byte :=
  let l := bitsMsb w (tableTokenWidth nbits)
  packBytes (fun k => l.getD k false) ((l.length + 7) / 8)

end Sys2Proof
end

