-- ==== Sys2Proof/Machine/State.lean ====
section
/-! DEFINITION. The state of the block as plain data (10_state.md R20 to R40, 20_memory.md R60), the reasons a step can
stop, and the state after reset (10_state.md R39). -/

namespace Sys2Proof.Machine

/-- The sequencer state (R30). -/
inductive Seq where
  | idle
  | scanning
  | reading
  deriving DecidableEq, Repr

/-- `STATUS.OP`: the last command started (R23). -/
inductive Op where
  | none
  | encode
  | decode
  deriving DecidableEq, Repr

/-- `STATUS.ERR`: the five values the block produces (R200). -/
inductive ErrKind where
  | none
  | truncatedStream
  | malformedStream
  | invalidWindowSize
  | capacityExceeded
  deriving DecidableEq, Repr

/-- The fields of STATUS (R23). The reserved bits [31:8] read 0 and are no state. -/
structure Status where
  busy : Bool
  done : Bool
  op : Op
  err : ErrKind
  deriving DecidableEq, Repr

/-- SRC and DST (R60): index and byte of each listed byte, indices strictly rising. An unlisted index reads as no
value: it is unwritten (SRC, R40) or unspecified (DST, R39). -/
abbrev Memory := List Host.Cell

/-- What the last host read returned. MODEL's own (log 9). -/
inductive HostData where
  | nothing
  | word (v : Word)
  | byte (b : Byte)
  deriving DecidableEq, Repr

/-- What a pure internal operation returned when it was executed by itself. MODEL's own (log 10): the spec's
operations hand the value to their caller (R106 to R109, R133, R134). -/
inductive OpResult where
  | nothing
  /-- BR_REMAINING. -/
  | bits (n : Nat)
  /-- BR_READBIT, BR_READBITS. -/
  | read (r : BitRead)
  /-- BR_CLEAN_END, MF_TILE_MATCH. -/
  | test (b : Bool)
  /-- MF_FIND: the distance and the length. -/
  | found (m : Option (Nat × Nat))
  deriving DecidableEq, Repr

/-- Accesses to an index the spec says does not exist. No command of the block makes one (log 17); each is safe: the
model stops where no rule gives an effect. -/
inductive Fault where
  /-- A SRC index at or above SRC_CAP: raised by the host's SRC accesses, by BR_READBIT, BR_READBITS, BR_CLEAN_END,
  MF_TILE_MATCH and MF_FIND where they read such a byte, and by ENC_STEP and DEC_STEP while SRC_LEN is above SRC_CAP
  (R60, R76). Safe. -/
  | srcOutOfRange
  /-- A DST index at or above DST_CAP: raised by the host's DST accesses and by an append that finds DST full, against
  Append's precondition (R60, R63). Safe. -/
  | dstOutOfRange
  /-- `OutRead(k)` with `k` not below OUT_LEN, against its precondition: raised by COPY_REPLAY executed by itself
  (R64, R174). Safe. -/
  | outReadOutOfRange
  deriving DecidableEq, Repr

/-- What the machine gives no meaning (R216), each safe: the model stops. -/
inductive Refusal where
  /-- An instruction without a meaning; no arm raises it once every instruction has one. Safe. -/
  | notModelled (mnemonic : String)
  /-- A write to CTRL with `CMD = 0b11`: raised by the host port (R90, R216). Safe. -/
  | reservedCommand
  /-- A write to CTRL while BUSY: raised by the host port and by NOP, ENCODE, DECODE (R216). Safe. -/
  | ctrlWhileBusy
  /-- A write to WSIZE or SRC_LEN while BUSY: raised by the host port (R216). Safe. -/
  | operandWriteWhileBusy
  /-- A write to a SRC byte while BUSY: raised by the host port (R216). Safe. -/
  | srcWriteWhileBusy
  /-- A write to a DST byte while BUSY: raised by the host port (R216). Safe. -/
  | dstWriteWhileBusy
  /-- A host write to a DST byte while idle, an access that R60 does not give the host: raised by the host port
  (log 12). Safe. -/
  | dstReadOnly
  /-- A command that would read an unwritten WSIZE or SRC_LEN: raised by ENCODE, DECODE (R40, R216). Safe. -/
  | unwrittenRegister
  /-- A command whose `SRC[0..min(SRC_LEN, SRC_CAP))` holds an unwritten byte: raised by ENCODE, DECODE (R40, R216).
  Safe. -/
  | unwrittenSource
  /-- A register access that is not an aligned 32-bit word: raised by the host port (R21, R216). Safe. -/
  | badRegisterAccess
  /-- A step outside the state in which its rule says it runs: raised by ENC_STEP, ENC_FINISH, DEC_STEP (R151, R156,
  R171; log 16). Safe. -/
  | outOfSequence
  deriving DecidableEq, Repr

/-- The whole state of the block, its parameters, and what the model keeps of the HOST. -/
structure State where
  /-- The open parameters (R8); no step writes them. -/
  cfg : Params
  /-- STATUS (R23). -/
  status : Status
  /-- WSIZE (R24). -/
  wsize : Word
  /-- Whether the host has written WSIZE since reset (R40). -/
  wsizeWritten : Bool
  /-- SRC_LEN (R25). -/
  srcLen : Word
  /-- Whether the host has written SRC_LEN since reset (R40). -/
  srcLenWritten : Bool
  /-- DST_LEN, also OUT_LEN (R26, R35). -/
  dstLen : Word
  /-- BITS, also CUR (R27, R32). -/
  bits : Word
  /-- TOKENS (R28). -/
  tokens : Word
  /-- EWSIZE, also W: its 12 significant bits (R29, R33). -/
  ewsize : BitVec 12
  /-- SEQ (R30). -/
  seq : Seq
  /-- POS (R31). -/
  pos : Nat
  /-- BW_ACC (R34). -/
  bwAcc : Byte
  /-- BW_N (R34). -/
  bwN : BitVec 3
  /-- SRC (R60, R61). -/
  src : Memory
  /-- DST (R60, R62). -/
  dst : Memory
  /-- What the HOST does, in order. MODEL's own (log 8). -/
  hostq : List HostAction
  /-- What the last host read returned. MODEL's own (log 9). -/
  hostData : HostData
  /-- The largest DST_LEN the host has read in the present command (R71). MODEL's own (log 11). -/
  seenLen : Nat
  /-- What the last pure operation returned. MODEL's own (log 10). -/
  ret : OpResult
  /-- How many free values have been drawn. MODEL's own (log 6). -/
  draws : Nat
  deriving DecidableEq, Repr

/-- The state after reset of a block with parameters `c` (R39, R230). WSIZE, SRC_LEN, POS, BW_ACC and BW_N have no
reset value in the spec: 0 here, DESIGN CHOICE (log 2, log 3), and the first two are marked unwritten. -/
def State.resetOf (c : Params) : State :=
  { cfg := c
    status := { busy := false, done := false, op := .none, err := .none }
    wsize := 0, wsizeWritten := false
    srcLen := 0, srcLenWritten := false
    dstLen := 0, bits := 0, tokens := 0, ewsize := 0
    seq := .idle, pos := 0, bwAcc := 0, bwN := 0
    src := [], dst := []
    hostq := [], hostData := .nothing, seenLen := 0, ret := .nothing, draws := 0 }

/-- The machine right after reset. -/
def State.reset : State := State.resetOf Params.default

end Sys2Proof.Machine
end

