-- ==== Sys2Proof/Machine/Flags.lean ====
section
/-! DEFINITION. STATUS, the block's only status bits (10_state.md R23, R37): its word and its three changes. -/

namespace Sys2Proof.Machine

/-- The 2-bit code of `STATUS.OP` (R23). -/
def Op.code : Op → Nat
  | .none => 0
  | .encode => 1
  | .decode => 2

/-- The 4-bit code of `STATUS.ERR` (R200). -/
def ErrKind.code : ErrKind → Nat
  | .none => 0
  | .truncatedStream => 1
  | .malformedStream => 2
  | .invalidWindowSize => 3
  | .capacityExceeded => 4

/-- STATUS as the host reads it: BUSY [0], DONE [1], OP [3:2], ERR [7:4], the rest 0 (R23). -/
def Status.word (st : Status) : Word :=
  BitVec.ofNat 32 (st.busy.toNat + 2 * st.done.toNat + 4 * st.op.code + 16 * st.err.code)

/-- A command start: `BUSY <- 1, DONE <- 0, ERR <- 0, OP <- op` (R232). -/
def Status.start (op : Op) : Status := { busy := true, done := false, op := op, err := .none }

/-- A successful end: `BUSY <- 0, DONE <- 1`, ERR as it stands (R239). -/
def Status.finish (st : Status) : Status := { st with busy := false, done := true }

/-- An end by error: `ERR <- code(E), BUSY <- 0, DONE <- 1` (R206). -/
def Status.fail (st : Status) (e : ErrKind) : Status := { st with err := e, busy := false, done := true }

end Sys2Proof.Machine
end

