-- ==== Sys2Proof/Machine/Ops.lean ====
section
/-! DEFINITION. The operations over memories and registers that the meanings share: reading and writing memory
(20_memory.md R60 to R64), CommandStart (70_reset_and_hazards.md R232), raise, the one operation that records an error
(60_exceptions.md R206), and done, the successful end (70_reset_and_hazards.md R239). -/

namespace Sys2Proof.Machine

/-! ### Memory -/

/-- The byte listed at index `k`, if one is. -/
def Memory.read : Memory → Nat → Option Byte
  | [], _ => none
  | (a, b) :: m, k => if a = k then some b else Memory.read m k

/-- `MemWrite`: index `k` holds `b`, every other index as before. -/
def Memory.write : Memory → Nat → Byte → Memory
  | [], k, b => [(k, b)]
  | (a, c) :: m, k, b =>
    if k < a then (k, b) :: (a, c) :: m
    else if k = a then (k, b) :: m
    else (a, c) :: Memory.write m k b

/-- The canonical form: indices strictly rising. An unlisted index reads as no value, so no entry equals it. -/
abbrev Memory.wf (m : Memory) : Prop := m.Pairwise fun x y => x.1 < y.1

/-- Whether every index below `n` is listed. -/
def Memory.writtenBelow (m : Memory) : Nat → Bool
  | 0 => true
  | k + 1 => (Memory.read m k).isSome && Memory.writtenBelow m k

/-- `MemRead(SRC, k, 1)`. An unwritten byte is a free value (log 4); a command that would read one is refused at its
start (R40, R216). -/
def State.srcByte (s : State) (k : Nat) : Byte := (Memory.read s.src k).getD (Config.unwrittenSrc k)

/-- `MemRead(DST, k, 1)`. A byte never appended since reset is a free value (log 5). -/
def State.dstByte (s : State) (k : Nat) : Byte := (Memory.read s.dst k).getD (Config.unwrittenDst s.draws k)

/-- `Append(v)` (R63). Its callers check that DST has room. -/
def append (v : Byte) (s : State) : State :=
  { s with dst := Memory.write s.dst s.dstLen.toNat v, dstLen := s.dstLen + 1 }

/-- `OutRead(k)` (R64). Its callers check that `k` is below OUT_LEN. -/
def outRead (s : State) (k : Nat) : Byte := s.dstByte k

/-- SRC has no byte at some index below `e` (R60). -/
def State.srcLacks (s : State) (e : Nat) : Bool := decide (s.cfg.srcCap.toNat < e)

/-- What a pure operation returned goes to `ret`, the model's own field (log 10); `drew` says whether a free value was
drawn for it (log 16). -/
def returned (r : OpResult) (drew : Bool) (s : State) : State := { s with ret := r, draws := s.draws + drew.toNat }

/-! ### The bit stream in SRC (R61) -/

/-- `T = 8 × SRC_LEN`, the number of stream bits (40_bit_channel.md section 2). DESIGN CHOICE (log 16): while SRC_LEN is
unwritten, an operation or a token executed by itself computes with the value SRC_LEN holds, 0 after reset (log 2). -/
def State.streamLen (s : State) : Nat := 8 * s.srcLen.toNat

/-- Stream bit `p` of SRC (R10, R107). -/
def State.streamBit (s : State) (p : Nat) : Bool := Sys2Proof.streamBit s.srcByte p

/-- The token at stream position `p` of SRC and the position after it (R81 to R84). -/
def State.tokenAt (s : State) (p : Nat) : Except DecodeError (Token × Nat) :=
  decodeToken s.streamBit s.streamLen p

/-! ### Start and end of a command -/

/-- `CommandStart(op)` (R232). The host has read no DST_LEN of the new command yet (R71). -/
def commandStart (op : Op) (s : State) : State :=
  { s with status := Status.start op, dstLen := 0, bits := 0, tokens := 0, seenLen := 0 }

/-- POS at the end of a command: kept by the encoder, unspecified after a DECODE and after an error at a command start
(R31, R154, I19; log 7), where it is a free value. -/
def State.posAtEnd (s : State) : Nat :=
  match s.seq with
  | .scanning => s.pos
  | .reading => Config.freePos s.draws
  | .idle => Config.freePos s.draws

/-- `raise E(info)` (R206): the one operation that ends a command with an error. ERR, BUSY, DONE and SEQ are written;
DST, DST_LEN, BITS, TOKENS and EWSIZE stay. No register holds `info`: BITS is where the command stopped. The partial
byte is dropped, so BW_ACC and BW_N are free values (I19; log 7). -/
def raise (e : ErrKind) (s : State) : State :=
  { s with
    status := s.status.fail e
    seq := .idle
    pos := s.posAtEnd
    bwAcc := Config.freeByte s.draws
    bwN := Config.freeBwN s.draws
    draws := s.draws + 1 }

/-- `done()` (R239): the successful end of a command. POS is unspecified after a DECODE (R31). -/
def done (s : State) : State :=
  { s with
    status := s.status.finish
    seq := .idle
    pos := s.posAtEnd
    draws := s.draws + 1 }

/-- A state with the model's own list of host actions and draw count. -/
def State.keepHost (s : State) (q : List HostAction) (n : Nat) : State := { s with hostq := q, draws := n }

/-- RESET's effect (R230, R231): every piece of state at its reset value. The parameters are the block's and stay;
what the HOST does next and the draw count are the model's own and stay (log 25). -/
def resetAll (s : State) : State :=
  (State.resetOf s.cfg).keepHost s.hostq s.draws

end Sys2Proof.Machine
end

