-- ==== Sys2Proof/Machine/Operands.lean ====
section
/-! DEFINITION. The operands the rules compute: the window (42_encoder.md R155), the capacity checks (R154,
43_decoder.md R177), the checks of a command start (60_exceptions.md R216), and the register map (10_state.md R21). -/

namespace Sys2Proof.Machine

/-- `ceil8(m)`: the number of bytes that hold `m` bits (R12). -/
def ceil8 (m : Nat) : Nat := (m + 7) / 8

/-- `WCLAMP(v) = clamp(v, 1, 4095)`, `v` a signed 32-bit integer (R155). -/
def wclamp (v : Word) : BitVec 12 := BitVec.ofInt 12 (min (Config.wMax : Int) (max (Config.wMin : Int) v.toInt))

/-- Whether WSIZE is in [1, 4095] as a signed integer (R150, R203). -/
def windowValid (v : Word) : Bool :=
  decide ((Config.wMin : Int) ≤ v.toInt) && decide (v.toInt ≤ (Config.wMax : Int))

/-- SRC_LEN is above SRC_CAP (R76, R150, R170). -/
def State.srcTooLong (s : State) : Bool := decide (s.cfg.srcCap.toNat < s.srcLen.toNat)

/-- `SRC[0..min(SRC_LEN, SRC_CAP))` holds no unwritten byte (R216). -/
def State.sourceWritten (s : State) : Bool :=
  Memory.writtenBelow s.src (min s.srcLen.toNat s.cfg.srcCap.toNat)

/-- `ENC_CAPCHECK(w)` fails (R154). -/
def State.encFull (s : State) (w : Nat) : Bool := decide (s.cfg.dstCap.toNat < ceil8 (s.bits.toNat + w))

/-- The decoder's capacity check for `k` more bytes fails (R177). -/
def State.outFull (s : State) (k : Nat) : Bool := decide (s.cfg.dstCap.toNat < s.dstLen.toNat + k)

/-- A COPY reads a byte that is not yet written (R175). -/
def State.badDistance (s : State) (distance length : Nat) : Bool :=
  decide (0 < length) && (decide (distance = 0) || decide (s.dstLen.toNat < distance))

/-- DST has room for the bytes that `k` more bits complete, if they complete any: the precondition of each Append they
make (R63, R101). -/
def State.writerRoom (s : State) (k : Nat) : Bool :=
  decide ((s.bwN.toNat + k) / 8 = 0) || decide (s.dstLen.toNat + (s.bwN.toNat + k) / 8 ≤ s.cfg.dstCap.toNat)

/-- DST has room for the byte a flush appends, if it appends one (R63, R103). -/
def State.flushRoom (s : State) : Bool :=
  decide (s.bwN = 0) || decide (s.dstLen.toNat < s.cfg.dstCap.toNat)

/-! ### The register map (R21) -/

/-- A register access the interface admits: an aligned 32-bit word. -/
def wordAccess (off width : Nat) : Bool := decide (width = 4) && decide (off % 4 = 0)

/-- Whether an offset is that of a register the host has not written since reset (R40). -/
def State.regUnwritten (s : State) (off : Nat) : Bool :=
  (decide (off = 0x08) && !s.wsizeWritten) || (decide (off = 0x0C) && !s.srcLenWritten)

/-- What the host reads at an offset (R21 to R29). An unwritten WSIZE or SRC_LEN reads as a free value (R40; log 2). -/
def State.regRead (s : State) (off : Nat) : Word :=
  if s.regUnwritten off then Config.freeWord s.draws
  else match off with
    | 0x00 => 0
    | 0x04 => s.status.word
    | 0x08 => s.wsize
    | 0x0C => s.srcLen
    | 0x10 => s.dstLen
    | 0x14 => s.bits
    | 0x18 => s.tokens
    | 0x1C => s.ewsize.setWidth 32
    | _ => 0

end Sys2Proof.Machine
end

