-- ==== Sys2Proof/Machine/BitChannel.lean ====
section
/-! DEFINITION. The bit channel (40_bit_channel.md): the bit writer into DST (R100 to R103) and the bit reader of SRC
(R105 to R109). -/

namespace Sys2Proof.Machine

/-! ### The bit writer -/

/-- `BW_INIT` (R100). -/
def bwInit (s : State) : State := { s with bwAcc := 0, bwN := 0, bits := 0, dstLen := 0 }

/-- BW_ACC with bit `b` at the next write position: `BW_ACC | (b << (7 - BW_N))` (R101). -/
def accWith (acc : Byte) (n : BitVec 3) (b : Bool) : Byte :=
  acc ||| (BitVec.ofNat 8 b.toNat <<< (7 - n.toNat))

/-- `BW_ACC <- 0; BW_N <- 0`, where a byte has gone to DST (R101, R103). -/
def clearWriter (s : State) : State := { s with bwAcc := 0, bwN := 0 }

/-- `BW_WRITEBIT(b)` (R101): the 8th bit of a byte sends it to DST at once. -/
def bwWriteBit (b : Bool) (s : State) : State :=
  if s.bwN = 7 then
    clearWriter (append (accWith s.bwAcc s.bwN b) { s with bits := s.bits + 1 })
  else
    { s with bits := s.bits + 1, bwAcc := accWith s.bwAcc s.bwN b, bwN := s.bwN + 1 }

/-- `BW_WRITEBITS(v, k)` (R102): bits `k-1` down to 0 of `v`. -/
def bwWriteBits (v : Nat) : Nat → State → State
  | 0, s => s
  | k + 1, s => bwWriteBits v k (bwWriteBit (v.testBit k) s)

/-- `BW_FLUSH` (R103). -/
def bwFlush (s : State) : State :=
  if s.bwN = 0 then s else clearWriter (append s.bwAcc s)

/-- BW_INIT (R100). -/
def execBwInit (s : State) : Host.Outcome State Fault Refusal := .next (bwInit s)

/-- BW_WRITEBIT (R101). -/
def execBwWriteBit (b : Bool) (s : State) : Host.Outcome State Fault Refusal :=
  if s.writerRoom 1 then .next (bwWriteBit b s) else .fault .dstOutOfRange

/-- BW_WRITEBITS (R102). DESIGN CHOICE (log 17): a field that does not fit DST faults before any bit of it is written.
DESIGN CHOICE (log 16): R102 gives `k` in [0, 8] and `v` below `2 ^ k`; a wider field is
written by the same loop, and bits `k` and above of `v` are not written. -/
def execBwWriteBits (v k : Nat) (s : State) : Host.Outcome State Fault Refusal :=
  if s.writerRoom k then .next (bwWriteBits v k s) else .fault .dstOutOfRange

/-- BW_FLUSH (R103). -/
def execBwFlush (s : State) : Host.Outcome State Fault Refusal :=
  if s.flushRoom then .next (bwFlush s) else .fault .dstOutOfRange

/-! ### The bit reader: pure, so only `ret`, the model's own field, receives what an operation returns (R110) -/

/-- `BR_INIT` (R105): `CUR <- 0`, that is `BITS <- 0`. -/
def brInit (s : State) : State := { s with bits := 0 }

/-- BR_INIT (R105). -/
def execBrInit (s : State) : Host.Outcome State Fault Refusal := .next (brInit s)

/-- `BR_REMAINING(p)` (R106): `T - p`; a free value where `p` is past the stream (log 16). -/
def State.remaining (s : State) (p : Nat) : Nat :=
  if s.streamLen < p then Config.freeRemaining s.draws else s.streamLen - p

/-- `BR_CLEAN_END(p)` (R109). Where `p` is past the stream no bit remains to be tested, and the answer is a free value
(log 16); nothing is read at or past SRC_LEN (R110). -/
def State.cleanEndAt (s : State) (p : Nat) : Bool :=
  if s.streamLen < p then Config.freeTest s.draws else cleanEnd s.streamBit s.streamLen p

/-- BR_REMAINING (R106). -/
def execBrRemaining (p : Nat) (s : State) : Host.Outcome State Fault Refusal :=
  .next (returned (.bits (s.remaining p)) (decide (s.streamLen < p)) s)

/-- BR_READBIT (R107). It reads byte `p div 8`, if `p` is below `T`. -/
def execBrReadBit (p : Nat) (s : State) : Host.Outcome State Fault Refusal :=
  if p < s.streamLen ∧ s.srcLacks (ceil8 (p + 1)) then .fault .srcOutOfRange
  else .next (returned (.read (readBit s.streamBit s.streamLen p)) false s)

/-- BR_READBITS (R108). It reads the bytes of bits `p` to `p + k - 1`, if they are present. DESIGN CHOICE (log 16):
R108 gives `k` in [0, 8]; a wider field is read by the same loop. -/
def execBrReadBits (p k : Nat) (s : State) : Host.Outcome State Fault Refusal :=
  if 0 < k ∧ p + k ≤ s.streamLen ∧ s.srcLacks (ceil8 (p + k)) then .fault .srcOutOfRange
  else .next (returned (.read (readBits s.streamBit s.streamLen p k)) false s)

/-- BR_CLEAN_END (R109). It reads the last byte of the stream, where all the remaining bits stand, if there are 1 to 7 of
them. DESIGN CHOICE (log 16): R109 has a token boundary as `p`; executed by itself it tests the bits from any position on. -/
def execBrCleanEnd (p : Nat) (s : State) : Host.Outcome State Fault Refusal :=
  if p < s.streamLen ∧ s.streamLen < p + 8 ∧ s.srcTooLong then .fault .srcOutOfRange
  else .next (returned (.test (s.cleanEndAt p)) (decide (s.streamLen < p)) s)

end Sys2Proof.Machine
end

