-- ==== Sys2Proof/Machine/Decoder.lean ====
section
/-! DEFINITION. The decoder (43_decoder.md): DECODE, the dispatch of one token, and the instructions LIT and COPY. -/

namespace Sys2Proof.Machine

/-- `SEQ <- Reading` (R170). -/
def beginReading (s : State) : State := { s with seq := .reading }

/-- DECODE after the host's duties are met (R170). -/
def startDecode (s : State) : State :=
  let s1 := commandStart .decode s
  if s1.srcTooLong then raise .capacityExceeded s1
  else beginReading (brInit s1)

/-- DECODE (R170), refused while BUSY and where a value it reads is unwritten (R40, R216). -/
def execDecode (s : State) : Host.Outcome State Fault Refusal :=
  if s.status.busy then .refused .ctrlWhileBusy
  else if !s.srcLenWritten then .refused .unwrittenRegister
  else if !s.sourceWritten then .refused .unwrittenSource
  else .next (startDecode s)

/-- The end of a token: CUR moves past its bits and the token is counted (R172, R173). -/
def tokenExecuted (width : Word) (s : State) : State := { s with bits := s.bits + width, tokens := s.tokens + 1 }

/-- LIT's effect once it may run (R172). -/
def litEffect (b : Byte) (s : State) : State :=
  tokenExecuted 9 (append b s)

/-- LIT (R172), the token at CUR: TruncatedStream if its 9 bits are not all present, then CapacityExceeded (R205). -/
def execLit (b : Byte) (s : State) : Host.Outcome State Fault Refusal :=
  if s.streamLen < s.bits.toNat + Config.litTokW then .next (raise .truncatedStream s)
  else if s.outFull 1 then .next (raise .capacityExceeded s)
  else .next (litEffect b s)

/-- `COPY_REPLAY(distance, length)` (R174), byte by byte: OUT_LEN is the present length, which grows each time. -/
def replay (distance : Nat) : Nat → State → State
  | 0, s => s
  | k + 1, s => replay distance k (append (outRead s (s.dstLen.toNat - distance)) s)

/-- COPY's effect once it may run (R173). -/
def copyEffect (distance length : Nat) (s : State) : State :=
  tokenExecuted 17 (replay distance length s)

/-- COPY (R173), the token at CUR: TruncatedStream, then MalformedStream, then CapacityExceeded (R205). -/
def execCopy (distance : BitVec 12) (length : BitVec 4) (s : State) : Host.Outcome State Fault Refusal :=
  if s.streamLen < s.bits.toNat + Config.copyTokW then .next (raise .truncatedStream s)
  else if s.badDistance distance.toNat length.toNat then .next (raise .malformedStream s)
  else if s.outFull length.toNat then .next (raise .capacityExceeded s)
  else .next (copyEffect distance.toNat length.toNat s)

/-- COPY_REPLAY executed by itself (R174). COPY makes its checks first (R173); by itself, a read of a byte that was not
appended and an append past DST_CAP are faults (R63, R64). DESIGN CHOICE (log 17): no byte before the fault is appended. DESIGN CHOICE (log 16): R174 gives `length` in [0, 15]; a
longer length runs by the same loop. -/
def execCopyReplay (distance length : Nat) (s : State) : Host.Outcome State Fault Refusal :=
  if s.badDistance distance length then .fault .outReadOutOfRange
  else if 0 < length ∧ s.outFull length then .fault .dstOutOfRange
  else .next (replay distance length s)

/-- DEC_STEP (R171): runs when `SEQ = Reading`. A clean end ends the command; otherwise the token at CUR runs, and a token
whose fields are not all present is TruncatedStream (R176). DESIGN CHOICE (log 17): while SRC_LEN is above SRC_CAP, where no
DECODE is left running (R170), it faults whichever bytes it would read. DESIGN CHOICE (log 16): R171 has CUR at a token
boundary; executed by itself it takes the bits at CUR as a token wherever CUR is. Where CUR is past the stream it reads no
byte: the end test answers a free value, and where that says no clean end, the flag read, which R171 says cannot be
Exhausted, is TruncatedStream. -/
def execDecStep (s : State) : Host.Outcome State Fault Refusal :=
  if s.seq = .reading then
    if s.srcTooLong then .fault .srcOutOfRange
    else if s.cleanEndAt s.bits.toNat then .next (done s)
    else match s.tokenAt s.bits.toNat with
      | .error _ => .next (raise .truncatedStream s)
      | .ok (.lit b, _) => execLit b s
      | .ok (.copy d l, _) => execCopy d l s
  else .refused .outOfSequence

end Sys2Proof.Machine
end

