-- ==== Sys2Proof/Machine/MatchFinder.lean ====
section
/-! DEFINITION. The match finder (41_match_finder.md): a pure function of the input buffer `inp`, its length `n`, the
window `w` and the position `i` (R130), and the two internal operations that evaluate it. -/

namespace Sys2Proof.Machine

/-- `MF_TILE_MATCH(i, i', L)` (R133): byte `i + k` against byte `k` of the repeated tiling of `IN[i'..i)`. -/
def tileMatch (inp : Nat → Byte) (i i' len : Nat) : Bool :=
  (List.range len).all fun k => inp (i + k) == inp (i' + k % (i - i'))

/-- `cap(i) = min(14, n - i - 1)` (R131). -/
def matchCap (n i : Nat) : Nat := min Config.maxLen (n - i - 1)

/-- `lo(i) = max(0, i - W)` (R132). -/
def windowLo (w i : Nat) : Nat := i - w

/-- The candidate lengths `2, ..., cap(i)` in increasing order (R131). -/
def candLengths (n i : Nat) : List Nat := List.range' Config.minLen (matchCap n i - 1)

/-- The candidate offsets `lo(i), ..., i - 1` in increasing order (R132). -/
def candOffsets (w i : Nat) : List Nat := List.range' (windowLo w i) (i - windowLo w i)

/-- The body of the two loops of R134: `best` is `(bestLength, bestDistance)`, replaced on strictly greater length
only. -/
def tryCandidate (inp : Nat → Byte) (i len : Nat) (best : Nat × Nat) (i' : Nat) : Nat × Nat :=
  if tileMatch inp i i' len && decide (best.1 < len) then (len, i - i') else best

/-- The running best after both loops of R134: the outer one over lengths, the inner one over offsets. -/
def bestMatch (inp : Nat → Byte) (n w i : Nat) : Nat × Nat :=
  (candLengths n i).foldl (fun best len => (candOffsets w i).foldl (tryCandidate inp i len) best) (0, 0)

/-- `MF_FIND(i)` (R134): the distance and the length, or none. -/
def mfFind (inp : Nat → Byte) (n w i : Nat) : Option (Nat × Nat) :=
  let best := bestMatch inp n w i
  if 0 < best.1 ∧ 0 < best.2 then some (best.2, best.1) else none

/-- `MF_FIND(i)` over the block's input and effective window (R33, R130). -/
def State.findMatch (s : State) (i : Nat) : Option (Nat × Nat) :=
  mfFind s.srcByte s.srcLen.toNat s.ewsize.toNat i

/-- The loop of R133 reaches a byte that SRC lacks: it compares byte after byte and returns at the first difference, so it
gets there where every byte before it is equal. Of the two bytes it compares, `i + k` is the higher index. -/
def State.tileLacks (s : State) (i i' len : Nat) : Bool :=
  decide (s.cfg.srcCap.toNat - i < len) && tileMatch s.srcByte i i' (s.cfg.srcCap.toNat - i)

/-- One of the comparisons of `MF_FIND(i)` reaches a byte that SRC lacks: the two loops of R134 make all of them. -/
def State.findLacks (s : State) (i : Nat) : Bool :=
  (candLengths s.srcLen.toNat i).any fun len => (candOffsets s.ewsize.toNat i).any fun i' => s.tileLacks i i' len

/-- MF_TILE_MATCH (R133). An offset that is not before the position gives no tiling, so the answer is a free value
(log 16). DESIGN CHOICE (log 16): the bounds of R131 and R132 on the offset and the length are not checked. -/
def execMfTileMatch (i i' len : Nat) (s : State) : Host.Outcome State Fault Refusal :=
  if i' < i then
    if s.tileLacks i i' len then .fault .srcOutOfRange
    else .next (returned (.test (tileMatch s.srcByte i i' len)) false s)
  else .next (returned (.test (Config.freeTest s.draws)) true s)

/-- MF_FIND (R134). DESIGN CHOICE (log 16): executed by itself it takes SRC_LEN and EWSIZE as they stand, so while
SRC_LEN is unwritten (R40) it takes the value the register holds, 0 after reset (log 2), as `n`. -/
def execMfFind (i : Nat) (s : State) : Host.Outcome State Fault Refusal :=
  if s.findLacks i then .fault .srcOutOfRange
  else .next (returned (.found (s.findMatch i)) false s)

end Sys2Proof.Machine
end

