-- ==== Sys2Proof/Machine/Encoder.lean ====
section
/-! DEFINITION. The encoder (42_encoder.md): ENCODE, one token, the two emissions, the final flush; and NOP. -/

namespace Sys2Proof.Machine

/-- NOP (R159): no effect; a write to CTRL while BUSY is refused (R216). -/
def execNop (s : State) : Host.Outcome State Fault Refusal :=
  if s.status.busy then .refused .ctrlWhileBusy else .next s

/-- `POS <- 0; SEQ <- Scanning` (R150). -/
def beginScanning (s : State) : State := { s with pos := 0, seq := .scanning }

/-- ENCODE after the host's duties are met (R150): CommandStart, the window check, the window, the capacity check of
SRC, then an empty bit writer, POS 0 and Scanning. -/
def startEncode (s : State) : State :=
  let s1 := commandStart .encode s
  if s1.cfg.rejectInvalidWindow && !windowValid s1.wsize then raise .invalidWindowSize s1
  else
    let s2 := { s1 with ewsize := wclamp s1.wsize }
    if s2.srcTooLong then raise .capacityExceeded s2
    else beginScanning (bwInit s2)

/-- ENCODE (R150), refused while BUSY and where a value it reads is unwritten (R40, R216). -/
def execEncode (s : State) : Host.Outcome State Fault Refusal :=
  if s.status.busy then .refused .ctrlWhileBusy
  else if !s.wsizeWritten || !s.srcLenWritten then .refused .unwrittenRegister
  else if !s.sourceWritten then .refused .unwrittenSource
  else .next (startEncode s)

/-- The end of an emission: POS moves by the token's length and the token is counted (R152, R153). -/
def tokenEmitted (len : Nat) (s : State) : State := { s with pos := s.pos + len, tokens := s.tokens + 1 }

/-- What ENC_EMIT_COPY writes once the token fits (R152). -/
def emitCopy (d len : Nat) (s : State) : State :=
  tokenEmitted len (bwWriteBits (packByte2 d len) 8 (bwWriteBits (packByte1 d) 8 (bwWriteBit true s)))

/-- What ENC_EMIT_LIT writes once the token fits (R153). -/
def emitLit (b : Byte) (s : State) : State :=
  tokenEmitted 1 (bwWriteBits b.toNat 8 (bwWriteBit false s))

/-- ENC_EMIT_COPY (R152): ENC_CAPCHECK(17), then the token. The check covers every byte the writer completes
(`8 × DST_LEN + BW_N = BITS`, R34); where that does not hold, an Append past DST_CAP is a fault. DESIGN CHOICE (log 16):
R152 takes `d` and `len` from MF_FIND; executed by itself it emits the instruction's, whatever MF_FIND answers at POS, and
operands outside the ranges of R138 are packed by the same formulas (R85). -/
def execEncEmitCopy (d len : Nat) (s : State) : Host.Outcome State Fault Refusal :=
  if s.encFull Config.copyTokW then .next (raise .capacityExceeded s)
  else if s.writerRoom Config.copyTokW then .next (emitCopy d len s)
  else .fault .dstOutOfRange

/-- ENC_EMIT_LIT (R153): ENC_CAPCHECK(9), then the token; the fault as for ENC_EMIT_COPY. DESIGN CHOICE (log 16): R153
has `b = IN[POS]`; executed by itself it emits the instruction's `b`, whatever stands at POS and wherever POS is. -/
def execEncEmitLit (b : Byte) (s : State) : Host.Outcome State Fault Refusal :=
  if s.encFull Config.litTokW then .next (raise .capacityExceeded s)
  else if s.writerRoom Config.litTokW then .next (emitLit b s)
  else .fault .dstOutOfRange

/-- ENC_STEP (R151): runs when `SEQ = Scanning` and `POS < n`. DESIGN CHOICE (log 17): while SRC_LEN is above SRC_CAP, where
no ENCODE is left running (R150), it faults whichever bytes it would read. -/
def execEncStep (s : State) : Host.Outcome State Fault Refusal :=
  if s.seq = .scanning ∧ s.pos < s.srcLen.toNat then
    if s.srcTooLong then .fault .srcOutOfRange
    else match s.findMatch s.pos with
      | some (d, len) => execEncEmitCopy d len s
      | none => execEncEmitLit (s.srcByte s.pos) s
  else .refused .outOfSequence

/-- ENC_FINISH (R156): runs when `SEQ = Scanning` and `POS = n`. -/
def execEncFinish (s : State) : Host.Outcome State Fault Refusal :=
  if s.seq = .scanning ∧ s.pos = s.srcLen.toNat then
    if s.flushRoom then .next (done (bwFlush s)) else .fault .dstOutOfRange
  else .refused .outOfSequence

end Sys2Proof.Machine
end

