-- ==== Sys2Proof/Machine/Reset.lean ====
section
/-! DEFINITION. RESET (70_reset_and_hazards.md R230, R231). -/

namespace Sys2Proof.Machine

/-- RESET (R230), at any time: while a command runs it abandons the command at once (R231). -/
def execReset (s : State) : Host.Outcome State Fault Refusal := .next (resetAll s)

end Sys2Proof.Machine
end

