-- ==== Sys2Proof/Machine/Dispatch.lean ====
section
/-! DEFINITION. One arm per constructor of Instr, each one direct call of its meaning. -/

namespace Sys2Proof.Machine

def exec (i : Instr) (s : State) : Host.Outcome State Fault Refusal :=
  match i with
  -- the token stream
  | .lit b => Sys2Proof.Machine.execLit b s
  | .copy d l => Sys2Proof.Machine.execCopy d l s
  -- the commands
  | .nop => Sys2Proof.Machine.execNop s
  | .encode => Sys2Proof.Machine.execEncode s
  | .decode => Sys2Proof.Machine.execDecode s
  -- the bit channel
  | .bwInit => Sys2Proof.Machine.execBwInit s
  | .bwWriteBit b => Sys2Proof.Machine.execBwWriteBit b s
  | .bwWriteBits v k => Sys2Proof.Machine.execBwWriteBits v k s
  | .bwFlush => Sys2Proof.Machine.execBwFlush s
  | .brInit => Sys2Proof.Machine.execBrInit s
  | .brRemaining p => Sys2Proof.Machine.execBrRemaining p s
  | .brReadBit p => Sys2Proof.Machine.execBrReadBit p s
  | .brReadBits p k => Sys2Proof.Machine.execBrReadBits p k s
  | .brCleanEnd p => Sys2Proof.Machine.execBrCleanEnd p s
  -- the match finder
  | .mfTileMatch j j' len => Sys2Proof.Machine.execMfTileMatch j j' len s
  | .mfFind j => Sys2Proof.Machine.execMfFind j s
  -- the encoder
  | .encStep => Sys2Proof.Machine.execEncStep s
  | .encEmitCopy d len => Sys2Proof.Machine.execEncEmitCopy d len s
  | .encEmitLit b => Sys2Proof.Machine.execEncEmitLit b s
  | .encFinish => Sys2Proof.Machine.execEncFinish s
  -- the decoder
  | .decStep => Sys2Proof.Machine.execDecStep s
  | .copyReplay d len => Sys2Proof.Machine.execCopyReplay d len s
  -- reset
  | .reset => Sys2Proof.Machine.execReset s

end Sys2Proof.Machine
end

