-- ==== Sys2Proof/Machine/Sequencer.lean ====
section
/-! DEFINITION. CORE's step at token granularity (00_scope.md R6): which operation the sequencer runs in which state,
and the HOST's access to registers, memories and reset (10_state.md R21, 20_memory.md R60, R71, 60_exceptions.md
R216). -/

namespace Sys2Proof.Machine

/-- One CORE step (R6): one encoder token, or the final flush at the end of the input; one decoder token or the end
test; nothing while Idle, where the block holds its state until the next command or reset (R215). -/
def coreStep (s : State) : Host.Outcome State Fault Refusal :=
  match s.seq with
  | .idle => .next s
  | .scanning => if s.pos < s.srcLen.toNat then exec .encStep s else exec .encFinish s
  | .reading => exec .decStep s

/-- A host write to CTRL (R22, R90): refused while BUSY and for the reserved command (R216), else the command. -/
def writeCtrl (v : Word) (s : State) : Host.Outcome State Fault Refusal :=
  if s.status.busy then .refused .ctrlWhileBusy
  else match decodeCommand v with
    | .ok i => exec i s
    | .error _ => .refused .reservedCommand

/-- A host register write (R21): CTRL is a command, WSIZE and SRC_LEN store the value (R24, R25) and are refused while
BUSY (R216), every other offset ignores it. -/
def regWrite (off width : Nat) (v : Word) (s : State) : Host.Outcome State Fault Refusal :=
  if wordAccess off width then
    match off with
    | 0x00 => writeCtrl v s
    | 0x08 =>
      if s.status.busy then .refused .operandWriteWhileBusy
      else .next { s with wsize := v, wsizeWritten := true }
    | 0x0C =>
      if s.status.busy then .refused .operandWriteWhileBusy
      else .next { s with srcLen := v, srcLenWritten := true }
    | _ => .next s
  else .refused .badRegisterAccess

/-- A host register read (R21). A read of DST_LEN makes the bytes below it final for the host (R71). -/
def regReadStep (off width : Nat) (s : State) : Host.Outcome State Fault Refusal :=
  if wordAccess off width then
    .next { s with
      hostData := .word (s.regRead off)
      seenLen := if off = 0x10 then max s.seenLen s.dstLen.toNat else s.seenLen
      draws := s.draws + 1 }
  else .refused .badRegisterAccess

/-- A host write to a SRC byte: while idle only (R60, R216). -/
def srcWriteStep (k : Nat) (b : Byte) (s : State) : Host.Outcome State Fault Refusal :=
  if s.cfg.srcCap.toNat ≤ k then .fault .srcOutOfRange
  else if s.status.busy then .refused .srcWriteWhileBusy
  else .next { s with src := Memory.write s.src k b }

/-- The byte a host read of SRC returns: the byte last written, while idle (R60); a free value if it is unwritten (R40)
or the block is busy, where R60 gives the read no value (log 13). -/
def State.hostSrcByte (s : State) (k : Nat) : Byte :=
  if s.status.busy then Config.freeByte s.draws else (Memory.read s.src k).getD (Config.freeByte s.draws)

/-- A host read of a SRC byte. -/
def srcReadStep (k : Nat) (s : State) : Host.Outcome State Fault Refusal :=
  if s.cfg.srcCap.toNat ≤ k then .fault .srcOutOfRange
  else .next { s with hostData := .byte (s.hostSrcByte k), draws := s.draws + 1 }

/-- A host write to a DST byte: R60 gives the host read access only; while BUSY it is refused by R216. -/
def dstWriteStep (k : Nat) (_b : Byte) (s : State) : Host.Outcome State Fault Refusal :=
  if s.cfg.dstCap.toNat ≤ k then .fault .dstOutOfRange
  else if s.status.busy then .refused .dstWriteWhileBusy
  else .refused .dstReadOnly

/-- The byte a host read of DST returns (R71): what the block stored, except that while BUSY a byte not below a DST_LEN
the host has read is unspecified (I16), and so is a byte nothing was appended to since reset (R39). -/
def State.hostDstByte (s : State) (k : Nat) : Byte :=
  if s.status.busy && decide (s.seenLen ≤ k) then Config.freeByte s.draws
  else (Memory.read s.dst k).getD (Config.freeByte s.draws)

/-- A host read of a DST byte. -/
def dstReadStep (k : Nat) (s : State) : Host.Outcome State Fault Refusal :=
  if s.cfg.dstCap.toNat ≤ k then .fault .dstOutOfRange
  else .next { s with hostData := .byte (s.hostDstByte k), draws := s.draws + 1 }

/-- One action of the HOST. -/
def hostStep (a : HostAction) (s : State) : Host.Outcome State Fault Refusal :=
  match a with
  | .regWrite off width v => regWrite off width v s
  | .regRead off width => regReadStep off width s
  | .srcWrite k b => srcWriteStep k b s
  | .srcRead k => srcReadStep k s
  | .dstWrite k b => dstWriteStep k b s
  | .dstRead k => dstReadStep k s
  | .reset => exec .reset s
  | .wait => coreStep s

/-- One step of the machine: the next action of the HOST if one is listed, else a CORE step (R5, R6; log 8). -/
def machineStep (s : State) : Host.Outcome State Fault Refusal :=
  match s.hostq with
  | [] => coreStep s
  | a :: rest => hostStep a { s with hostq := rest }

/-! ### Placing one instruction where the next step fetches it (log 18) -/

/-- Lists the bytes of `l` in SRC from index `k` on. -/
def placeBytes : List Byte → Nat → Memory → Memory
  | [], _, m => m
  | b :: l, k, m => placeBytes l (k + 1) (Memory.write m k b)

/-- The stream in SRC is the one token that the table word `w` is, and the decoder is about to read it (R170): SRC,
SRC_LEN, CUR and SEQ with the STATUS that goes with it (R30), and no action of the HOST before it. -/
def loadToken (nbits w : Nat) (s : State) : State :=
  { s with
    src := placeBytes (tableTokenBytes nbits w) 0 s.src
    srcLen := BitVec.ofNat 32 (tableTokenBytes nbits w).length, srcLenWritten := true
    bits := 0, seq := .reading, status := Status.start .decode, hostq := [] }

/-- The next action of the HOST is the write of `w` to CTRL, the block is idle, and the host has written the operand
registers (R233). -/
def loadCommand (w : Nat) (s : State) : State :=
  { s with
    hostq := [.regWrite 0x00 4 (BitVec.ofNat 32 w)]
    seq := .idle, status := { s.status with busy := false }
    wsizeWritten := true, srcLenWritten := true }

end Sys2Proof.Machine
end

