-- ==== Sys2Proof/Machine/Step.lean ====
section
/-! DEFINITION. One step of the machine, and the placing of one instruction where the next step fetches it. -/

namespace Sys2Proof.Machine

/-- One step (00_scope.md R6): the next action of the HOST if one is listed, else one step of CORE. -/
def step (s : State) : Host.Outcome State Fault Refusal := machineStep s

/-- `s` with the table word `w` placed so that the very next step runs it: a token is the stream the decoder is about
to read, a command is the CTRL write the HOST is about to make (log 18). -/
def State.withFetchWord (s : State) (nbits w : Nat) : State :=
  if nbits ≤ 24 then loadToken nbits w s else loadCommand w s

end Sys2Proof.Machine
end

