-- ==== Sys2Proof/Safety.lean ====
section
/-! DEFINITION. The invariant of the block, in parts, and what statements call an end of a command, a run of CORE and a
step that stops. The parts are what the rules promise of every state a run reaches. -/

namespace Sys2Proof.Machine

/-- SRC and DST are canonical and list only indices that exist (20_memory.md R60). -/
def State.MemoryOk (s : State) : Prop :=
  Memory.wf s.src ∧ Memory.wf s.dst ∧ (∀ x ∈ s.src, x.1 < s.cfg.srcCap.toNat) ∧ (∀ x ∈ s.dst, x.1 < s.cfg.dstCap.toNat)

/-- STATUS agrees with SEQ (10_state.md R23, R30): BUSY exactly when SEQ is not Idle, never BUSY and DONE, ERR nonzero
only when DONE, OP the command that runs. -/
def State.StatusOk (s : State) : Prop :=
  (s.status.busy = true ↔ s.seq ≠ .idle) ∧ ¬(s.status.busy = true ∧ s.status.done = true) ∧
  (s.status.err ≠ .none → s.status.done = true) ∧
  (s.seq = .scanning → s.status.op = .encode) ∧ (s.seq = .reading → s.status.op = .decode)

/-- DST_LEN bytes were appended and fit (R26, R62, R76), and the host has seen no larger length (R71). -/
def State.OutputOk (s : State) : Prop :=
  s.dstLen.toNat ≤ s.cfg.dstCap.toNat ∧ Memory.writtenBelow s.dst s.dstLen.toNat = true ∧ s.seenLen ≤ s.dstLen.toNat

/-- A running command has its operands: SRC_LEN written, at most SRC_CAP, and every byte of SRC below it written
(R40, R76, R216). -/
def State.OperandsOk (s : State) : Prop :=
  s.seq ≠ .idle → s.srcLenWritten = true ∧ s.srcLen.toNat ≤ s.cfg.srcCap.toNat ∧
    Memory.writtenBelow s.src s.srcLen.toNat = true

/-- The bit writer's state (R34): `BITS = 8 × DST_LEN + BW_N`, and BW_ACC is 0 below the next write position. -/
def State.WriterOk (s : State) : Prop :=
  s.bits.toNat = 8 * s.dstLen.toNat + s.bwN.toNat ∧ ∀ j < 8 - s.bwN.toNat, s.bwAcc.getLsbD j = false

/-- While Scanning (R29, R31, R34, R154, R157): POS at most n, the window in range, the writer's state, the tokens'
bits within what they can be, and the final byte within DST. -/
def State.EncoderOk (s : State) : Prop :=
  s.seq = .scanning → s.pos ≤ s.srcLen.toNat ∧ 1 ≤ s.ewsize.toNat ∧ s.WriterOk ∧
    ceil8 s.bits.toNat ≤ s.cfg.dstCap.toNat ∧ 9 * s.tokens.toNat ≤ s.bits.toNat ∧ s.bits.toNat ≤ 9 * s.pos

/-- While Reading (R32, R181): CUR does not pass the stream, each token took at least 9 bits and gave at most 15
bytes. -/
def State.DecoderOk (s : State) : Prop :=
  s.seq = .reading → s.bits.toNat ≤ s.streamLen ∧ 9 * s.tokens.toNat ≤ s.bits.toNat ∧
    s.dstLen.toNat ≤ 15 * s.tokens.toNat

/-- The invariant of the block. -/
def State.Inv (s : State) : Prop :=
  s.MemoryOk ∧ s.StatusOk ∧ s.OutputOk ∧ s.OperandsOk ∧ s.EncoderOk ∧ s.DecoderOk

/-- A command has ended (R30): Idle with DONE. -/
def State.Ended (s : State) : Prop := s.seq = .idle ∧ s.status.busy = false ∧ s.status.done = true

/-- `CoreRun k s t`: CORE takes `k` steps from `s` to `t`, each while a command runs. -/
def CoreRun : Nat → State → State → Prop
  | 0, s, t => s = t
  | k + 1, s, t => s.seq ≠ .idle ∧ ∃ u, coreStep s = .next u ∧ CoreRun k u t

/-- The bytes the block has put out, `DST[0..DST_LEN)` (R26). -/
def State.output (s : State) : List Byte := (List.range s.dstLen.toNat).map s.dstByte

/-- The bytes of the input or the stream, `SRC[0..SRC_LEN)` (R25). -/
def State.input (s : State) : List Byte := (List.range s.srcLen.toNat).map s.srcByte

/-- Stream bit `k` of the output as the bit writer has it: in DST, or in the partial byte BW_ACC (R34, R101). -/
def State.writerBit (s : State) (k : Nat) : Bool :=
  if k < 8 * s.dstLen.toNat then Sys2Proof.streamBit s.dstByte k else s.bwAcc.getLsbD (7 - (k - 8 * s.dstLen.toNat))

/-- Everything but BITS, DST_LEN, DST and the bit writer's two registers is as it was: what a write of bits keeps
(R101 to R103). -/
def SameButWriter (s t : State) : Prop :=
  t = { s with bits := t.bits, dstLen := t.dstLen, dst := t.dst, bwAcc := t.bwAcc, bwN := t.bwN }

end Sys2Proof.Machine
end

