-- ==== Sys2Proof/Certificates/Slice0/Obligations.lean ====
section
/-! DEFINITION. The statements about the model, each from the numbered rules of the spec that its docstring cites. They
hold for every value of the open parameters (R8), which State carries. -/

open Sys2Proof Sys2Proof.Machine

/-! ### Encoding -/

/-- 30_encoding.md R82, R83, R90; 95_test_vectors.md F-1 to F-6: words of the spec decode to what they stand for. -/
def Obligations.SpecWordsDecode : Prop :=
  decode (.token (bitsMsb 0b001000001 9)) = .ok (.lit 0x41) ∧
  decode (.token (bitsMsb 0b10000000000010011 17)) = .ok (.copy 1 3) ∧
  decode (.token (bitsMsb 0b10000000101000011 17)) = .ok (.copy 20 3) ∧
  decode (.token (bitsMsb 0b11111111111111110 17)) = .ok (.copy 4095 14) ∧
  decode (.token (bitsMsb 0b10001001000111010 17)) = .ok (.copy 291 10) ∧
  decode (.token (bitsMsb 0b11010101111001101 17)) = .ok (.copy 2748 13) ∧
  decode (.ctrl 0) = .ok .nop ∧ decode (.ctrl 1) = .ok .encode ∧ decode (.ctrl 2) = .ok .decode

/-- 30_encoding.md R81 to R85: at any position of any stream where the bits of a token stand, the decoder reads that
token, with every operand at every value, and ends at the bit after it. -/
def Obligations.TokenDecodesWhereItsBitsStand : Prop :=
  ∀ (t : Token) (bit : Nat → Bool) (T p : Nat),
    (∀ j < t.width, bit (p + j) = (encodeToken t).getD j false) → p + t.width ≤ T →
    decodeToken bit T p = .ok (t, p + t.width)

/-- 30_encoding.md R88: every 9-bit pattern with flag 0 is a LIT and every 17-bit pattern with flag 1 is a COPY, and
the token it is has that pattern and no other. -/
def Obligations.EveryPatternIsOneToken : Prop :=
  ∀ l : List Bool, (l.length = 9 ∧ l.head? = some false ∨ l.length = 17 ∧ l.head? = some true) →
    ∃ t, decodeTokenBits l = .ok t ∧ encodeToken t = l ∧ t.width = l.length

/-- 30_encoding.md R82 to R85, R90: decoding the words of a well-formed instruction gives the instruction back. -/
def Obligations.DecodeEncodeAgree : Prop :=
  ∀ (i : Instr) (c : Code), WellFormed i = true → encode i = some c → decode c = .ok i

/-- 30_encoding.md R90: a value written to CTRL is decoded by its bits [1:0] alone, and a write to CTRL while idle runs the
command, or is refused for the reserved one. -/
def Obligations.CommandDecodedByItsLowTwoBits : Prop :=
  ∀ (v : Word) (s : State) (rest : List HostAction), s.status.busy = false → s.hostq = .regWrite 0x00 4 v :: rest →
    (v.extractLsb' 0 2 = 0b00#2 → decodeCommand v = .ok .nop ∧ step s = exec .nop { s with hostq := rest }) ∧
    (v.extractLsb' 0 2 = 0b01#2 → decodeCommand v = .ok .encode ∧ step s = exec .encode { s with hostq := rest }) ∧
    (v.extractLsb' 0 2 = 0b10#2 → decodeCommand v = .ok .decode ∧ step s = exec .decode { s with hostq := rest }) ∧
    (v.extractLsb' 0 2 = 0b11#2 → decodeCommand v = .error .reservedCommand ∧ step s = .refused .reservedCommand)

/-! ### What a step runs -/

/-- 00_scope.md R6, 43_decoder.md R171: while Reading, away from a clean end, a step with no action of the HOST before
it runs the token whose bits stand at CUR. -/
def Obligations.StepRunsTheDecodedToken : Prop :=
  ∀ (s : State) (t : Token) (p : Nat), s.hostq = [] → s.seq = .reading → s.bits.toNat ≤ s.streamLen →
    s.srcLen.toNat ≤ s.cfg.srcCap.toNat → cleanEnd s.streamBit s.streamLen s.bits.toNat = false →
    s.tokenAt s.bits.toNat = .ok (t, p) → step s = exec t.toInstr s

/-- 30_encoding.md R90: a write to CTRL while idle runs the command it decodes to. -/
def Obligations.StepRunsTheWrittenCommand : Prop :=
  ∀ (s : State) (v : Word) (i : Instr) (rest : List HostAction), s.status.busy = false →
    s.hostq = .regWrite 0x00 4 v :: rest → decodeCommand v = .ok i → step s = exec i { s with hostq := rest }

/-- 00_scope.md R6, 42_encoder.md R151, R156, 43_decoder.md R171, 60_exceptions.md R215: which operation a CORE step
runs. The two ways a CORE step is called for, no action listed or `wait`, are the model's (log 8). -/
def Obligations.CoreStepRunsTheSequencersOperation : Prop :=
  (∀ s : State, s.hostq = [] → step s = coreStep s) ∧
  (∀ (s : State) (rest : List HostAction), s.hostq = .wait :: rest → step s = coreStep { s with hostq := rest }) ∧
  ∀ s : State,
    (s.seq = .idle → coreStep s = .next s) ∧
    (s.seq = .scanning → s.pos < s.srcLen.toNat → coreStep s = exec .encStep s) ∧
    (s.seq = .scanning → s.srcLen.toNat ≤ s.pos → coreStep s = exec .encFinish s) ∧
    (s.seq = .reading → coreStep s = exec .decStep s)

/-! ### Reset and the host's registers -/

/-- 10_state.md R39: what the spec gives of the state after reset. -/
def Obligations.ResetStateHoldsTheSpecsValues : Prop :=
  State.reset.status.word = 0 ∧ State.reset.dstLen = 0 ∧ State.reset.bits = 0 ∧ State.reset.tokens = 0 ∧
  State.reset.ewsize = 0 ∧ State.reset.seq = .idle ∧ State.reset.wsizeWritten = false ∧
  State.reset.srcLenWritten = false ∧ (∀ k, Memory.read State.reset.src k = none) ∧
  State.reset.cfg.rejectInvalidWindow = false

/-- 70_reset_and_hazards.md R230, R231: RESET, and so a reset by the HOST, answers a next state from every state, a
running command's too: every register the spec gives a reset value has it, WSIZE, SRC_LEN and every SRC byte are
unwritten, no DST byte is kept, and only the parameters, the HOST's list and the draw count stay. -/
def Obligations.ResetAbandonsAnyCommand : Prop :=
  ∀ s : State, ∃ t, exec .reset s = .next t ∧
    t.status.word = 0 ∧ t.dstLen = 0 ∧ t.bits = 0 ∧ t.tokens = 0 ∧ t.ewsize = 0 ∧ t.seq = .idle ∧
    t.wsizeWritten = false ∧ t.srcLenWritten = false ∧ (∀ k, Memory.read t.src k = none) ∧
    (∀ k, Memory.read t.dst k = none) ∧ t.cfg = s.cfg ∧ t.hostq = s.hostq ∧ t.draws = s.draws ∧
    ∀ (u : State) (rest : List HostAction), u.hostq = .reset :: rest → { u with hostq := rest } = s → step u = .next t

/-- 10_state.md R21 to R29: what a host read of each register returns, and that a read changes nothing of the block.
CTRL and the offsets from 0x20 on read 0. 20_memory.md R71 speaks of a DST_LEN value the host has read: a read of DST_LEN
moves the model's own `seenLen` (log 11) and no other read does. -/
def Obligations.RegisterReadsFollowTheMap : Prop :=
  ∀ (s : State) (off : Nat) (rest : List HostAction), s.hostq = .regRead off 4 :: rest → off % 4 = 0 →
    ∃ v t, step s = .next t ∧ t.hostData = .word v ∧
      t = { s with hostq := rest, hostData := .word v, seenLen := t.seenLen, draws := t.draws } ∧
      (off = 0x00 → v = 0) ∧ (off = 0x04 → v = s.status.word) ∧
      (off = 0x08 → s.wsizeWritten = true → v = s.wsize) ∧
      (off = 0x0C → s.srcLenWritten = true → v = s.srcLen) ∧
      (off = 0x10 → v = s.dstLen) ∧ (off = 0x14 → v = s.bits) ∧ (off = 0x18 → v = s.tokens) ∧
      (off = 0x1C → v.toNat = s.ewsize.toNat) ∧ (0x20 ≤ off → v = 0) ∧
      (off = 0x10 → t.seenLen = max s.seenLen s.dstLen.toNat) ∧ (off ≠ 0x10 → t.seenLen = s.seenLen)

/-- 10_state.md R23, 60_exceptions.md R200: the fields of the STATUS word. -/
def Obligations.StatusWordHasItsFields : Prop :=
  ∀ st : Status,
    st.word.getLsbD 0 = st.busy ∧ st.word.getLsbD 1 = st.done ∧
    (st.word.extractLsb' 2 2).toNat = st.op.code ∧ (st.word.extractLsb' 4 4).toNat = st.err.code ∧
    st.word.extractLsb' 8 24 = 0 ∧
    Op.code .none = 0 ∧ Op.code .encode = 1 ∧ Op.code .decode = 2 ∧
    ErrKind.code .none = 0 ∧ ErrKind.code .truncatedStream = 1 ∧ ErrKind.code .malformedStream = 2 ∧
    ErrKind.code .invalidWindowSize = 3 ∧ ErrKind.code .capacityExceeded = 4

/-- 10_state.md R21, R24, R25: while idle a host write stores WSIZE or SRC_LEN and nothing else, and at any time a write
to a read-only register or to an offset from 0x20 on changes nothing. -/
def Obligations.RegisterWritesStoreTheOperands : Prop :=
  ∀ (s : State) (v : Word) (off : Nat) (rest : List HostAction), s.hostq = .regWrite off 4 v :: rest → off % 4 = 0 →
    (off = 0x08 → s.status.busy = false →
      step s = .next { s with hostq := rest, wsize := v, wsizeWritten := true }) ∧
    (off = 0x0C → s.status.busy = false →
      step s = .next { s with hostq := rest, srcLen := v, srcLenWritten := true }) ∧
    (off ≠ 0x00 → off ≠ 0x08 → off ≠ 0x0C → step s = .next { s with hostq := rest })

/-- 60_exceptions.md R216: the host actions the model refuses, of which `CommandsWithUnwrittenOperandsAreRefused` has
the two that a command's start decides. -/
def Obligations.HostViolationsAreRefused : Prop :=
  ∀ (s : State) (rest : List HostAction),
    (∀ v : Word, s.hostq = .regWrite 0x00 4 v :: rest → v.extractLsb' 0 2 = 0b11#2 → ∃ r, step s = .refused r) ∧
    (∀ v, s.hostq = .regWrite 0x00 4 v :: rest → s.status.busy = true → ∃ r, step s = .refused r) ∧
    (∀ off v, s.hostq = .regWrite off 4 v :: rest → off = 0x08 ∨ off = 0x0C → s.status.busy = true →
      step s = .refused .operandWriteWhileBusy) ∧
    (∀ k b, s.hostq = .srcWrite k b :: rest → k < s.cfg.srcCap.toNat → s.status.busy = true →
      step s = .refused .srcWriteWhileBusy) ∧
    (∀ k b, s.hostq = .dstWrite k b :: rest → k < s.cfg.dstCap.toNat → s.status.busy = true →
      step s = .refused .dstWriteWhileBusy) ∧
    (∀ off width, s.hostq = .regRead off width :: rest → ¬(width = 4 ∧ off % 4 = 0) →
      step s = .refused .badRegisterAccess) ∧
    (∀ off width v, s.hostq = .regWrite off width v :: rest → ¬(width = 4 ∧ off % 4 = 0) →
      step s = .refused .badRegisterAccess)

/-- 10_state.md R40, 60_exceptions.md R216: ENCODE with WSIZE or SRC_LEN unwritten, DECODE with SRC_LEN unwritten, and
either with an unwritten byte in `SRC[0..min(SRC_LEN, SRC_CAP))`, are refused. -/
def Obligations.CommandsWithUnwrittenOperandsAreRefused : Prop :=
  ∀ s : State, s.status.busy = false →
    (s.wsizeWritten = false ∨ s.srcLenWritten = false → exec .encode s = .refused .unwrittenRegister) ∧
    (s.srcLenWritten = false → exec .decode s = .refused .unwrittenRegister) ∧
    ((∃ k < min s.srcLen.toNat s.cfg.srcCap.toNat, Memory.read s.src k = none) →
      (∃ r, exec .encode s = .refused r) ∧ ∃ r, exec .decode s = .refused r)

/-- 20_memory.md R60, R61: while idle a host write to an index of SRC stores that byte and changes nothing else. -/
def Obligations.HostSrcWriteReachesOneByte : Prop :=
  ∀ (s : State) (k : Nat) (b : Byte) (rest : List HostAction), s.hostq = .srcWrite k b :: rest →
    k < s.cfg.srcCap.toNat → s.status.busy = false →
    ∃ t, step s = .next t ∧ t = { s with hostq := rest, src := t.src } ∧ Memory.read t.src k = some b ∧
      ∀ j, j ≠ k → Memory.read t.src j = Memory.read s.src j

/-- 20_memory.md R71: a host read of a DST byte changes nothing of the block; it returns the byte stored there, while
idle and, while BUSY, below a DST_LEN value the host has already read. -/
def Obligations.HostDstReadsReturnFinalBytes : Prop :=
  ∀ (s : State) (k : Nat) (rest : List HostAction), s.Inv → s.hostq = .dstRead k :: rest →
    (s.status.busy = false ∧ (Memory.read s.dst k).isSome = true ∨ s.status.busy = true ∧ k < s.seenLen) →
    ∃ t b, step s = .next t ∧ t.hostData = .byte b ∧ Memory.read s.dst k = some b ∧
      t = { s with hostq := rest, hostData := .byte b, draws := t.draws }

/-! ### Commands -/

/-- 42_encoder.md R159: a host write to CTRL with CMD 0b00 while BUSY is 0 has no effect: no register, memory or SEQ
changes. -/
def Obligations.NopHasNoEffect : Prop :=
  ∀ s : State, s.status.busy = false → exec .nop s = .next s ∧
    ∀ (u : State) (v : Word) (rest : List HostAction), u.hostq = .regWrite 0x00 4 v :: rest →
      { u with hostq := rest } = s → v.extractLsb' 0 2 = 0b00#2 → step u = .next s

/-- 42_encoder.md R150, 70_reset_and_hazards.md R232: where no check fails, ENCODE starts the command from an empty
writer at POS 0 and changes nothing else. `seenLen` is the model's own. -/
def Obligations.EncodeStartsScanning : Prop :=
  ∀ s : State, s.status.busy = false → s.wsizeWritten = true → s.srcLenWritten = true → s.sourceWritten = true →
    s.srcLen.toNat ≤ s.cfg.srcCap.toNat → (s.cfg.rejectInvalidWindow = true → windowValid s.wsize = true) →
    exec .encode s = .next { s with
      status := { busy := true, done := false, op := .encode, err := .none }
      dstLen := 0, bits := 0, tokens := 0, ewsize := wclamp s.wsize, bwAcc := 0, bwN := 0, pos := 0, seq := .scanning
      seenLen := 0 }

/-- 42_encoder.md R150, 60_exceptions.md R203 to R206: the two errors of ENCODE's start, the window check first. An
error at a start leaves DST_LEN, BITS and TOKENS 0 and DST as it was. -/
def Obligations.EncodeStartErrors : Prop :=
  ∀ s : State, s.status.busy = false → s.wsizeWritten = true → s.srcLenWritten = true → s.sourceWritten = true →
    (s.cfg.rejectInvalidWindow = true → (s.wsize.toInt < 1 ∨ 4095 < s.wsize.toInt) →
      ∃ t, exec .encode s = .next t ∧ t.seq = .idle ∧
        t.status = { busy := false, done := true, op := .encode, err := .invalidWindowSize } ∧
        t.dstLen = 0 ∧ t.bits = 0 ∧ t.tokens = 0 ∧ t.ewsize = s.ewsize ∧ t.dst = s.dst ∧ t.src = s.src) ∧
    ((s.cfg.rejectInvalidWindow = true → 1 ≤ s.wsize.toInt ∧ s.wsize.toInt ≤ 4095) →
      s.cfg.srcCap.toNat < s.srcLen.toNat →
      ∃ t, exec .encode s = .next t ∧ t.seq = .idle ∧
        t.status = { busy := false, done := true, op := .encode, err := .capacityExceeded } ∧
        t.dstLen = 0 ∧ t.bits = 0 ∧ t.tokens = 0 ∧ t.ewsize = wclamp s.wsize ∧ t.dst = s.dst ∧ t.src = s.src)

/-- 43_decoder.md R170, 70_reset_and_hazards.md R232: DECODE starts the command at CUR 0, or ends it with
CapacityExceeded where SRC_LEN is above SRC_CAP. EWSIZE stays. -/
def Obligations.DecodeStartsReading : Prop :=
  ∀ s : State, s.status.busy = false → s.srcLenWritten = true → s.sourceWritten = true →
    (s.srcLen.toNat ≤ s.cfg.srcCap.toNat →
      exec .decode s = .next { s with
        status := { busy := true, done := false, op := .decode, err := .none }
        dstLen := 0, bits := 0, tokens := 0, seq := .reading, seenLen := 0 }) ∧
    (s.cfg.srcCap.toNat < s.srcLen.toNat →
      ∃ t, exec .decode s = .next t ∧ t.seq = .idle ∧
        t.status = { busy := false, done := true, op := .decode, err := .capacityExceeded } ∧
        t.dstLen = 0 ∧ t.bits = 0 ∧ t.tokens = 0 ∧ t.ewsize = s.ewsize ∧ t.dst = s.dst ∧ t.src = s.src)

/-- 42_encoder.md R155. -/
def Obligations.WindowClampIsTheIntegerClamp : Prop :=
  ∀ v : Word, ((wclamp v).toNat : Int) = min 4095 (max 1 v.toInt) ∧
    1 ≤ (wclamp v).toNat ∧ (wclamp v).toNat ≤ 4095

/-- 60_exceptions.md R206: what raise writes, and what it leaves as it stood. -/
def Obligations.RaiseEndsTheCommand : Prop :=
  ∀ (e : ErrKind) (s : State),
    (raise e s).status = { s.status with err := e, busy := false, done := true } ∧ (raise e s).seq = .idle ∧
    raise e s = { s with status := (raise e s).status, seq := .idle, pos := (raise e s).pos,
                         bwAcc := (raise e s).bwAcc, bwN := (raise e s).bwN, draws := (raise e s).draws } ∧
    (s.seq = .scanning → (raise e s).pos = s.pos)

/-- 70_reset_and_hazards.md R239: what done writes, and what keeps the command's final values. -/
def Obligations.DoneEndsTheCommand : Prop :=
  ∀ s : State, (done s).status = { s.status with busy := false, done := true } ∧ (done s).seq = .idle ∧
    done s = { s with status := (done s).status, seq := .idle, pos := (done s).pos, draws := (done s).draws }

/-! ### The bit channel -/

/-- 40_bit_channel.md R100, R105. -/
def Obligations.ChannelInitialisation : Prop :=
  ∀ s : State, exec .bwInit s = .next { s with bwAcc := 0, bwN := 0, bits := 0, dstLen := 0 } ∧
    exec .brInit s = .next { s with bits := 0 }

/-- 40_bit_channel.md R101: one bit at the next write position; the 8th bit of a byte sends the byte to DST. The
hypothesis is Append's precondition (20_memory.md R63). -/
def Obligations.WriteBitTakesOneBit : Prop :=
  ∀ (b : Bool) (s : State), (s.bwN = 7 → s.dstLen.toNat < s.cfg.dstCap.toNat) →
    ∃ t acc, exec (.bwWriteBit b) s = .next t ∧ t.bits = s.bits + 1 ∧ SameButWriter s t ∧
      acc = s.bwAcc ||| (if b then (1 : Byte) <<< (7 - s.bwN.toNat) else 0) ∧
      (s.bwN ≠ 7 → t.bwAcc = acc ∧ t.bwN = s.bwN + 1 ∧ t.dstLen = s.dstLen ∧ t.dst = s.dst) ∧
      (s.bwN = 7 → t.bwAcc = 0 ∧ t.bwN = 0 ∧ t.dstLen = s.dstLen + 1 ∧
        Memory.read t.dst s.dstLen.toNat = some acc ∧
        ∀ k, k ≠ s.dstLen.toNat → Memory.read t.dst k = Memory.read s.dst k)

/-- 40_bit_channel.md R102: a `k`-bit field goes to the stream after the bits already there, most significant bit
first, and nothing else changes. -/
def Obligations.WriteBitsAppendsAField : Prop :=
  ∀ (v k : Nat) (s : State), k ≤ 8 → v < 2 ^ k → s.WriterOk →
    s.dstLen.toNat + (s.bwN.toNat + k) / 8 ≤ s.cfg.dstCap.toNat →
    ∃ t, exec (.bwWriteBits v k) s = .next t ∧ SameButWriter s t ∧ t.WriterOk ∧
      t.bits.toNat = s.bits.toNat + k ∧ (∀ j < s.bits.toNat, t.writerBit j = s.writerBit j) ∧
      (∀ j < k, t.writerBit (s.bits.toNat + j) = v.testBit (k - 1 - j)) ∧
      ∀ a, a < s.dstLen.toNat ∨ t.dstLen.toNat ≤ a → Memory.read t.dst a = Memory.read s.dst a

/-- 40_bit_channel.md R103: the flush appends the partial byte, if there is one; BITS stays. -/
def Obligations.FlushAppendsThePartialByte : Prop :=
  ∀ s : State, (s.bwN ≠ 0 → s.dstLen.toNat < s.cfg.dstCap.toNat) →
    ∃ t, exec .bwFlush s = .next t ∧ SameButWriter s t ∧ t.bits = s.bits ∧ t.bwN = 0 ∧
      (s.bwN = 0 → t = s) ∧
      (s.bwN ≠ 0 → t.bwAcc = 0 ∧ t.dstLen = s.dstLen + 1 ∧ Memory.read t.dst s.dstLen.toNat = some s.bwAcc ∧
        ∀ k, k ≠ s.dstLen.toNat → Memory.read t.dst k = Memory.read s.dst k)

/-- 40_bit_channel.md R104, the writer invariant: after BW_INIT, any bits, and BW_FLUSH, BITS counts the bits, DST_LEN
is `ceil8` of it, and the stream in DST is those bits and then zeros. -/
def Obligations.WriterStreamIsTheBitsWritten : Prop :=
  ∀ (l : List Bool) (s : State), ceil8 l.length ≤ s.cfg.dstCap.toNat →
    ∃ t, t = bwFlush (l.foldl (fun u b => bwWriteBit b u) (bwInit s)) ∧ t.bits.toNat = l.length ∧
      t.dstLen.toNat = ceil8 l.length ∧
      (∀ k < l.length, Sys2Proof.streamBit t.dstByte k = l.getD k false) ∧
      ∀ k, l.length ≤ k → k < 8 * ceil8 l.length → Sys2Proof.streamBit t.dstByte k = false

/-- 40_bit_channel.md R106 to R110: each reader operation returns its value and writes nothing. `ret`, where the model
puts the value, is its own (log 10). R108 gives `k` in [0, 8]; that a wider read runs as well is the model's choice
(log 16). -/
def Obligations.ReaderOperationsWriteNothing : Prop :=
  ∀ (p k : Nat) (s : State),
    (p ≤ s.streamLen → exec (.brRemaining p) s = .next { s with ret := .bits (8 * s.srcLen.toNat - p) }) ∧
    (s.srcLen.toNat ≤ s.cfg.srcCap.toNat →
      exec (.brReadBit p) s = .next { s with ret := .read (readBit s.streamBit (8 * s.srcLen.toNat) p) } ∧
      exec (.brReadBits p k) s = .next { s with ret := .read (readBits s.streamBit (8 * s.srcLen.toNat) p k) } ∧
      (p ≤ s.streamLen →
        exec (.brCleanEnd p) s = .next { s with ret := .test (cleanEnd s.streamBit (8 * s.srcLen.toNat) p) }))

/-- 40_bit_channel.md R107, R108, 00_scope.md R10, R11: a read is Exhausted exactly when too few bits remain; otherwise
it gives the bits from `p` on, the first most significant, and the position after them. Stream bit `p` is bit
`7 - (p mod 8)` of byte `p div 8`. -/
def Obligations.ReadsAreMsbFirst : Prop :=
  ∀ (bytes : Nat → Byte) (T p k : Nat),
    (readBit (streamBit bytes) T p = .exhausted ↔ T ≤ p) ∧
    (p < T → readBit (streamBit bytes) T p = .value ((bytes (p / 8)).getLsbD (7 - p % 8)).toNat (p + 1)) ∧
    (readBits (streamBit bytes) T p k = .exhausted ↔ T < p + k) ∧
    (p + k ≤ T → ∃ v < 2 ^ k, readBits (streamBit bytes) T p k = .value v (p + k) ∧
      ∀ j < k, v.testBit (k - 1 - j) = (bytes ((p + j) / 8)).getLsbD (7 - (p + j) % 8))

/-- 40_bit_channel.md R109: a clean end is fewer than 8 remaining bits, all of them 0. -/
def Obligations.CleanEndIsZeroPadding : Prop :=
  ∀ (bit : Nat → Bool) (T p : Nat), p ≤ T →
    (cleanEnd bit T p = true ↔ T - p < 8 ∧ ∀ s, p ≤ s → s < T → bit s = false)

/-! ### The match finder -/

/-- 41_match_finder.md R133, R137: the tiled comparison holds exactly when every byte equals the byte `d` before it. -/
def Obligations.TileMatchIsTheOverlapCopyCondition : Prop :=
  ∀ (inp : Nat → Byte) (i i' len : Nat), i' < i →
    ((tileMatch inp i i' len = true ↔ ∀ k < len, inp (i + k) = inp (i' + k % (i - i'))) ∧
     (tileMatch inp i i' len = true ↔ ∀ k < len, inp (i + k) = inp (i + k - (i - i'))))

/-- 41_match_finder.md R136, the closed form of the loops of R134: matching is prefix-closed; MF_FIND answers none exactly
where there is no candidate length or no offset of the window matches at length 2; otherwise it answers the longest length
at which an offset matches and, at that length, the smallest matching offset, that is the largest distance. -/
def Obligations.FindMatchClosedForm : Prop :=
  ∀ (inp : Nat → Byte) (n w i : Nat),
    (∀ i' len, tileMatch inp i i' (len + 1) = true → tileMatch inp i i' len = true) ∧
    (mfFind inp n w i = none ↔ min 14 (n - i - 1) < 2 ∨
      ∀ i', i - w ≤ i' → i' < i → tileMatch inp i i' 2 = false) ∧
    ∀ d len, mfFind inp n w i = some (d, len) ↔
      ∃ i', d = i - i' ∧ 2 ≤ len ∧ len ≤ min 14 (n - i - 1) ∧ i - w ≤ i' ∧ i' < i ∧ tileMatch inp i i' len = true ∧
        (∀ j, i - w ≤ j → j < i' → tileMatch inp i j len = false) ∧
        ∀ len' j, len < len' → len' ≤ min 14 (n - i - 1) → i - w ≤ j → j < i → tileMatch inp i j len' = false

/-- 41_match_finder.md R138: the bounds of a result, that it fits the fields of the token, and that MF_FIND reads only
`IN[lo(i) .. i + cap(i))`, so never the final byte. -/
def Obligations.FindMatchBounds : Prop :=
  ∀ (inp : Nat → Byte) (n w i d len : Nat), w ≤ 4095 → i < n →
    (mfFind inp n w i = some (d, len) →
      1 ≤ d ∧ d ≤ min i w ∧ d ≤ 4095 ∧ 2 ≤ len ∧ len ≤ min 14 (n - i - 1) ∧ i + len ≤ n - 1 ∧ d < 2 ^ 12 ∧
        len < 2 ^ 4) ∧
    ∀ inp' : Nat → Byte, (∀ k, i - w ≤ k → k < i + min 14 (n - i - 1) → inp' k = inp k) →
      mfFind inp' n w i = mfFind inp n w i

/-- 41_match_finder.md R139: the corner cases. -/
def Obligations.FindMatchCornerCases : Prop :=
  ∀ (inp : Nat → Byte) (n w i : Nat), i < n → 1 ≤ w →
    (i = 0 → mfFind inp n w i = none) ∧
    (n - i ≤ 2 → mfFind inp n w i = none) ∧
    (w = 1 → ∀ d len, mfFind inp n w i = some (d, len) → d = 1 ∧ ∀ k < len, inp (i + k) = inp (i - 1)) ∧
    ((∀ j k, j < n → k < n → inp j = inp k) → 1 ≤ i → 3 ≤ n - i →
      mfFind inp n w i = some (min i w, min 14 (n - i - 1))) ∧
    ((∀ i', i - w ≤ i' → i' < i → tileMatch inp i i' 2 = false) → mfFind inp n w i = none)

/-- 41_match_finder.md R130, R133, R134: the two operations return their value and write nothing: MF_TILE_MATCH where SRC has
every byte it compares, or a difference comes before the first byte that SRC lacks. `ret`, where the model puts the value,
is its own (log 10). R133 gives `2 ≤ L ≤ cap(i)` and `lo(i) ≤ i'`, and R29 a window of at least 1; that MF_TILE_MATCH runs
for every length and earlier offset, and MF_FIND while EWSIZE is 0, is the model's choice (log 16). -/
def Obligations.MatchFinderOperationsWriteNothing : Prop :=
  ∀ (i i' len : Nat) (s : State),
    (i' < i →
      (i + len ≤ s.cfg.srcCap.toNat ∨
        ∃ k, i + k < s.cfg.srcCap.toNat ∧ k < len ∧ s.srcByte (i + k) ≠ s.srcByte (i' + k % (i - i'))) →
      exec (.mfTileMatch i i' len) s = .next { s with ret := .test (tileMatch s.srcByte i i' len) }) ∧
    (i < s.srcLen.toNat → s.srcLen.toNat ≤ s.cfg.srcCap.toNat → exec (.mfFind i) s =
      .next { s with ret := .found (mfFind s.srcByte s.srcLen.toNat s.ewsize.toNat i) })

/-! ### The encoder -/

/-- 42_encoder.md R152, R83, R85: where the token fits, ENC_EMIT_COPY appends the 17 bits of its COPY token to the
stream, moves POS by the length, counts the token, and changes nothing else; each DST byte outside
`[DST_LEN before, DST_LEN after)` is as it was. R152 takes `d` and `len` from MF_FIND; that any operands in the ranges of R138
are emitted is the model's choice (log 16). -/
def Obligations.EmitCopyAppendsItsToken : Prop :=
  ∀ (d len : Nat) (s : State), WellFormed (.encEmitCopy d len) = true → s.WriterOk →
    ceil8 (s.bits.toNat + 17) ≤ s.cfg.dstCap.toNat →
    ∃ t, exec (.encEmitCopy d len) s = .next t ∧
      SameButWriter { s with pos := s.pos + len, tokens := s.tokens + 1 } t ∧ t.WriterOk ∧
      t.bits.toNat = s.bits.toNat + 17 ∧ (∀ k < s.bits.toNat, t.writerBit k = s.writerBit k) ∧
      (∀ j < 17, t.writerBit (s.bits.toNat + j) =
        (encodeToken (.copy (BitVec.ofNat 12 d) (BitVec.ofNat 4 len))).getD j false) ∧
      ∀ a, a < s.dstLen.toNat ∨ t.dstLen.toNat ≤ a → Memory.read t.dst a = Memory.read s.dst a

/-- 42_encoder.md R153, R82: the same for the 9 bits of a LIT token. R153 has `b = IN[POS]`; that any `b` is emitted is the
model's choice (log 16). -/
def Obligations.EmitLitAppendsItsToken : Prop :=
  ∀ (b : Byte) (s : State), s.WriterOk → ceil8 (s.bits.toNat + 9) ≤ s.cfg.dstCap.toNat →
    ∃ t, exec (.encEmitLit b) s = .next t ∧
      SameButWriter { s with pos := s.pos + 1, tokens := s.tokens + 1 } t ∧ t.WriterOk ∧
      t.bits.toNat = s.bits.toNat + 9 ∧ (∀ k < s.bits.toNat, t.writerBit k = s.writerBit k) ∧
      (∀ j < 9, t.writerBit (s.bits.toNat + j) = (encodeToken (.lit b)).getD j false) ∧
      ∀ a, a < s.dstLen.toNat ∨ t.dstLen.toNat ≤ a → Memory.read t.dst a = Memory.read s.dst a

/-- 42_encoder.md R154: a token that does not fit ends the command with CapacityExceeded and writes nothing. -/
def Obligations.TokenThatDoesNotFitWritesNothing : Prop :=
  ∀ s : State,
    (s.cfg.dstCap.toNat < ceil8 (s.bits.toNat + 17) → ∀ d len, exec (.encEmitCopy d len) s =
      .next (raise .capacityExceeded s)) ∧
    (s.cfg.dstCap.toNat < ceil8 (s.bits.toNat + 9) → ∀ b, exec (.encEmitLit b) s =
      .next (raise .capacityExceeded s)) ∧
    (raise .capacityExceeded s).dst = s.dst ∧ (raise .capacityExceeded s).dstLen = s.dstLen ∧
    (raise .capacityExceeded s).bits = s.bits ∧ (raise .capacityExceeded s).tokens = s.tokens ∧
    (s.seq = .scanning → (raise .capacityExceeded s).pos = s.pos)

/-- 42_encoder.md R151: ENC_STEP completes in every state of a running ENCODE that is not at the input's end, and what
it runs is the emission of the match finder's result at POS, or of the byte at POS where there is none. -/
def Obligations.EncodeStepEmitsTheGreedyToken : Prop :=
  ∀ s : State, s.Inv → s.seq = .scanning → s.pos < s.srcLen.toNat →
    (∃ t, exec .encStep s = .next t) ∧
    (∀ d len, mfFind s.srcByte s.srcLen.toNat s.ewsize.toNat s.pos = some (d, len) →
      exec .encStep s = exec (.encEmitCopy d len) s) ∧
    (mfFind s.srcByte s.srcLen.toNat s.ewsize.toNat s.pos = none →
      exec .encStep s = exec (.encEmitLit (s.srcByte s.pos)) s) ∧
    (ceil8 (s.bits.toNat + 17) ≤ s.cfg.dstCap.toNat → ∃ t, exec .encStep s = .next t ∧
      t.tokens = s.tokens + 1 ∧ s.pos < t.pos ∧ t.pos ≤ s.srcLen.toNat ∧ t.seq = .scanning)

/-- 42_encoder.md R156: at the input's end the partial byte is flushed (R103), which empties the writer, and the command
ends. -/
def Obligations.EncodeFinishFlushesAndEnds : Prop :=
  ∀ s : State, s.seq = .scanning → s.pos = s.srcLen.toNat →
    (s.bwN ≠ 0 → s.dstLen.toNat < s.cfg.dstCap.toNat) →
    ∃ t, exec .encFinish s = .next t ∧
      SameButWriter { s with seq := .idle, status := { s.status with busy := false, done := true },
                             draws := t.draws } t ∧
      t.bits = s.bits ∧ t.bwN = 0 ∧ (s.bwN = 0 → t.bwAcc = s.bwAcc ∧ t.dstLen = s.dstLen ∧ t.dst = s.dst) ∧
      (s.bwN ≠ 0 → t.bwAcc = 0 ∧ t.dstLen = s.dstLen + 1 ∧ Memory.read t.dst s.dstLen.toNat = some s.bwAcc ∧
        ∀ k, k ≠ s.dstLen.toNat → Memory.read t.dst k = Memory.read s.dst k)

/-! ### The decoder -/

/-- 43_decoder.md R172: where its bits are present and DST has room, LIT appends its byte, moves CUR by 9, counts the
token, and changes nothing else. -/
def Obligations.LitAppendsItsByte : Prop :=
  ∀ (b : Byte) (s : State), s.bits.toNat + 9 ≤ 8 * s.srcLen.toNat →
    s.dstLen.toNat + 1 ≤ s.cfg.dstCap.toNat →
    ∃ t, exec (.lit b) s = .next t ∧
      t = { s with dst := t.dst, dstLen := s.dstLen + 1, bits := s.bits + 9, tokens := s.tokens + 1 } ∧
      Memory.read t.dst s.dstLen.toNat = some b ∧
      ∀ k, k ≠ s.dstLen.toNat → Memory.read t.dst k = Memory.read s.dst k

/-- 43_decoder.md R173, R174: where its bits are present, its distance is not malformed and DST has room, COPY appends
`length` bytes, each equal to the byte `distance` before it, the bytes it appended itself included; it moves CUR by 17,
counts the token, and changes nothing else. `length = 0` appends nothing whatever the distance. -/
def Obligations.CopyReplaysItsBytes : Prop :=
  ∀ (d : BitVec 12) (len : BitVec 4) (s : State), s.bits.toNat + 17 ≤ 8 * s.srcLen.toNat →
    (len ≠ 0 → d ≠ 0 ∧ d.toNat ≤ s.dstLen.toNat) → s.dstLen.toNat + len.toNat ≤ s.cfg.dstCap.toNat →
    ∃ t, exec (.copy d len) s = .next t ∧
      t = { s with dst := t.dst, dstLen := t.dstLen, bits := s.bits + 17, tokens := s.tokens + 1 } ∧
      t.dstLen.toNat = s.dstLen.toNat + len.toNat ∧
      (∀ j < len.toNat, Memory.read t.dst (s.dstLen.toNat + j) = some (t.dstByte (s.dstLen.toNat + j - d.toNat)) ∧
        t.dstByte (s.dstLen.toNat + j) = s.dstByte (s.dstLen.toNat - d.toNat + j % d.toNat)) ∧
      ∀ k, k < s.dstLen.toNat ∨ t.dstLen.toNat ≤ k → Memory.read t.dst k = Memory.read s.dst k

/-- 43_decoder.md R174: COPY_REPLAY by itself appends the same bytes and writes DST and DST_LEN only. R174 gives `length`
in [0, 15]; that a longer replay runs, by the same loop, is the model's choice (log 16). -/
def Obligations.CopyReplayIsByteByByte : Prop :=
  ∀ (d len : Nat) (s : State), (0 < len → 1 ≤ d ∧ d ≤ s.dstLen.toNat) →
    s.dstLen.toNat + len ≤ s.cfg.dstCap.toNat →
    ∃ t, exec (.copyReplay d len) s = .next t ∧ t = { s with dst := t.dst, dstLen := t.dstLen } ∧
      t.dstLen.toNat = s.dstLen.toNat + len ∧
      (∀ j < len, t.dstByte (s.dstLen.toNat + j) = t.dstByte (s.dstLen.toNat + j - d) ∧
        t.dstByte (s.dstLen.toNat + j) = s.dstByte (s.dstLen.toNat - d + j % d)) ∧
      ∀ k, k < s.dstLen.toNat ∨ t.dstLen.toNat ≤ k → Memory.read t.dst k = Memory.read s.dst k

/-- 60_exceptions.md R201, R202, R204, R205: the errors of LIT and COPY, in the order in which they are tested. -/
def Obligations.TokenErrorsInOrder : Prop :=
  ∀ s : State,
    (∀ b, 8 * s.srcLen.toNat < s.bits.toNat + 9 → exec (.lit b) s = .next (raise .truncatedStream s)) ∧
    (∀ b, s.bits.toNat + 9 ≤ 8 * s.srcLen.toNat → s.cfg.dstCap.toNat < s.dstLen.toNat + 1 →
      exec (.lit b) s = .next (raise .capacityExceeded s)) ∧
    (∀ d len, 8 * s.srcLen.toNat < s.bits.toNat + 17 → exec (.copy d len) s = .next (raise .truncatedStream s)) ∧
    (∀ d len, s.bits.toNat + 17 ≤ 8 * s.srcLen.toNat → len ≠ 0 → (d = 0 ∨ s.dstLen.toNat < d.toNat) →
      exec (.copy d len) s = .next (raise .malformedStream s)) ∧
    (∀ d len, s.bits.toNat + 17 ≤ 8 * s.srcLen.toNat → (len = 0 ∨ d ≠ 0 ∧ d.toNat ≤ s.dstLen.toNat) →
      s.cfg.dstCap.toNat < s.dstLen.toNat + len.toNat → exec (.copy d len) s = .next (raise .capacityExceeded s))

/-- 43_decoder.md R171, R178: at a clean end DEC_STEP ends the command with success and changes nothing else of its
result. -/
def Obligations.DecodeStepEndsAtACleanEnd : Prop :=
  ∀ s : State, s.seq = .reading → s.bits.toNat ≤ 8 * s.srcLen.toNat → s.srcLen.toNat ≤ s.cfg.srcCap.toNat →
    8 * s.srcLen.toNat - s.bits.toNat < 8 →
    (∀ k, s.bits.toNat ≤ k → k < 8 * s.srcLen.toNat → s.streamBit k = false) →
    ∃ t, exec .decStep s = .next t ∧
      t = { s with seq := .idle, status := { s.status with busy := false, done := true }, pos := t.pos,
                   draws := t.draws }

/-- 43_decoder.md R171, 30_encoding.md R81 to R84: DEC_STEP completes wherever the decoder can be, and away from a clean
end it runs the token at CUR: LIT of the 8 bits after a flag 0, COPY of the 12 and 4 bits after a flag 1. R171 has CUR at a
token boundary; that DEC_STEP completes with CUR past the stream as well is the model's choice (log 16). -/
def Obligations.DecodeStepRunsTheTokenAtCur : Prop :=
  ∀ s : State, s.seq = .reading → s.srcLen.toNat ≤ s.cfg.srcCap.toNat →
    (∃ t, exec .decStep s = .next t) ∧
    (s.bits.toNat + 9 ≤ 8 * s.srcLen.toNat → s.streamBit s.bits.toNat = false →
      exec .decStep s = exec (.lit (BitVec.ofNat 8 (fieldAt s.streamBit (s.bits.toNat + 1) 8))) s) ∧
    (s.bits.toNat + 17 ≤ 8 * s.srcLen.toNat → s.streamBit s.bits.toNat = true →
      exec .decStep s = exec (.copy (BitVec.ofNat 12 (fieldAt s.streamBit (s.bits.toNat + 1) 12))
        (BitVec.ofNat 4 (fieldAt s.streamBit (s.bits.toNat + 13) 4))) s)

/-- 43_decoder.md R176: at a position that is not a clean end, flag 0 with fewer than 9 bits or flag 1 with fewer than
17 is TruncatedStream. -/
def Obligations.TruncatedTokenEndsTheDecode : Prop :=
  ∀ s : State, s.seq = .reading → s.srcLen.toNat ≤ s.cfg.srcCap.toNat → s.bits.toNat < 8 * s.srcLen.toNat →
    cleanEnd s.streamBit s.streamLen s.bits.toNat = false →
    (s.streamBit s.bits.toNat = false ∧ 8 * s.srcLen.toNat < s.bits.toNat + 9 ∨
      s.streamBit s.bits.toNat = true ∧ 8 * s.srcLen.toNat < s.bits.toNat + 17) →
    exec .decStep s = .next (raise .truncatedStream s)

/-- 43_decoder.md R179: DEC_STEP, LIT and COPY do not read WSIZE or EWSIZE and leave them as they are: two states that
differ in them only go to states that differ in them only. -/
def Obligations.DecoderHasNoWindow : Prop :=
  ∀ (i : Instr) (s t : State) (w : Word) (wr : Bool) (e : BitVec 12),
    (i = .decStep ∨ (∃ b, i = .lit b) ∨ ∃ d len, i = .copy d len) → exec i s = .next t →
    t.wsize = s.wsize ∧ t.ewsize = s.ewsize ∧
    exec i { s with wsize := w, wsizeWritten := wr, ewsize := e } =
      .next { t with wsize := w, wsizeWritten := wr, ewsize := e }

/-! ### The whole machine -/

/-- The reset state of a block with any parameters, `State.reset` among them, meets the invariant (10_state.md R39). -/
def Obligations.ResetMeetsTheInvariant : Prop := State.reset.Inv ∧ ∀ c : Params, (State.resetOf c).Inv

/-- The invariant (20_memory.md R60, R76; 10_state.md R23, R26, R29 to R32, R34; 43_decoder.md R181) holds after every
step from a state that meets it, whatever the HOST does. -/
def Obligations.StepKeepsTheInvariant : Prop :=
  ∀ s t : State, s.Inv → step s = .next t → t.Inv

/-- 70_reset_and_hazards.md R240, in part: from every state that meets the invariant a CORE step answers a next state. That
a command also ends is said by `EncodeEndsInBoundedSteps` and `DecodeEndsInBoundedSteps`. -/
def Obligations.CoreNeverStops : Prop :=
  ∀ s : State, s.Inv → ∃ t, coreStep s = .next t

/-- 10_state.md R38, 20_memory.md R61, R74: a CORE step writes nothing that belongs to the host. -/
def Obligations.CoreNeverWritesTheHostsState : Prop :=
  ∀ s t : State, coreStep s = .next t →
    t.src = s.src ∧ t.srcLen = s.srcLen ∧ t.srcLenWritten = s.srcLenWritten ∧ t.wsize = s.wsize ∧
    t.wsizeWritten = s.wsizeWritten ∧ t.ewsize = s.ewsize ∧ t.cfg = s.cfg ∧ t.hostq = s.hostq ∧
    t.hostData = s.hostData ∧ t.seenLen = s.seenLen

/-- 20_memory.md R62, R71: in a running command DST is append-only, and DST_LEN, BITS and TOKENS do not decrease. -/
def Obligations.OutputIsAppendOnly : Prop :=
  ∀ s t : State, s.Inv → coreStep s = .next t →
    s.dstLen.toNat ≤ t.dstLen.toNat ∧ s.bits.toNat ≤ t.bits.toNat ∧ s.tokens.toNat ≤ t.tokens.toNat ∧
    t.dstLen.toNat ≤ s.cfg.dstCap.toNat ∧
    ∀ k, k < s.dstLen.toNat ∨ t.dstLen.toNat ≤ k → Memory.read t.dst k = Memory.read s.dst k

/-- 10_state.md R23, R30: a CORE step changes STATUS only where it ends the command, to BUSY 0 and DONE 1. -/
def Obligations.StatusChangesOnlyAtTheEnd : Prop :=
  ∀ s t : State, coreStep s = .next t →
    (t.seq = s.seq ∧ t.status = s.status) ∨
    (s.seq ≠ .idle ∧ t.seq = .idle ∧ t.status.busy = false ∧ t.status.done = true ∧ t.status.op = s.status.op)

/-- 42_encoder.md R157, 70_reset_and_hazards.md R240: from any state of a running ENCODE the command ends within
`n - POS + 1` CORE steps, having emitted `a` LIT and `c` COPY tokens. Counted from the command's start, where TOKENS, BITS
and POS are 0, these are R157's `TOKENS = a + c` and `BITS = 9a + 17c`. -/
def Obligations.EncodeEndsInBoundedSteps : Prop :=
  ∀ s : State, s.Inv → s.seq = .scanning →
    ∃ k t a c, k ≤ s.srcLen.toNat - s.pos + 1 ∧ CoreRun k s t ∧ t.Ended ∧
      t.tokens.toNat = s.tokens.toNat + (a + c) ∧ t.bits.toNat = s.bits.toNat + (9 * a + 17 * c) ∧
      s.pos + a + 2 * c ≤ t.pos ∧ t.pos ≤ s.pos + a + 14 * c ∧
      (t.status.err = .none → t.pos = s.srcLen.toNat ∧ t.dstLen.toNat = ceil8 t.bits.toNat ∧
        t.bits.toNat ≤ 9 * t.pos ∧ t.tokens.toNat ≤ t.pos)

/-- 43_decoder.md R181, 70_reset_and_hazards.md R240: from any state of a running DECODE the command ends within
`(T - CUR) div 9 + 1` CORE steps, having executed at most `T div 9` tokens and put out at most 15 bytes for each. -/
def Obligations.DecodeEndsInBoundedSteps : Prop :=
  ∀ s : State, s.Inv → s.seq = .reading →
    ∃ k t, k ≤ (s.streamLen - s.bits.toNat) / 9 + 1 ∧ CoreRun k s t ∧ t.Ended ∧
      t.tokens.toNat ≤ s.streamLen / 9 ∧ t.dstLen.toNat ≤ 15 * (s.streamLen / 9)

/-- 43_decoder.md R180, the round trip: if an ENCODE started in a state of the invariant runs to success, then a DECODE
of the stream it put out, in any block whose DST has room for the input, runs to success and puts out the input, with
the same TOKENS and BITS. -/
def Obligations.DecodeOfEncodeIsTheInput : Prop :=
  ∀ (s s0 e d : State) (k : Nat), s.Inv → exec .encode s = .next s0 → CoreRun k s0 e → e.seq = .idle →
    e.status.err = .none →
    d.Inv → d.status.busy = false → d.srcLenWritten = true → d.srcLen = e.dstLen →
    d.srcLen.toNat ≤ d.cfg.srcCap.toNat → Memory.writtenBelow d.src d.srcLen.toNat = true → d.input = e.output →
    s.srcLen.toNat ≤ d.cfg.dstCap.toNat →
    ∃ d0 j f, exec .decode d = .next d0 ∧ CoreRun j d0 f ∧ f.Ended ∧ f.status.err = .none ∧
      f.output = s.input ∧ f.tokens = e.tokens ∧ f.bits = e.bits

/-- 42_encoder.md R158, determinism: the stream depends only on the input and the clamped window. Two ENCODEs of one
input under windows with one clamped value put out the same stream with the same BITS, TOKENS and STATUS wherever both end
with success, whatever the capacities of the two blocks and whether or not they reject windows. They agree as well where
one or both fail, in blocks of one DST capacity whose SRC holds the input and whose window, if they reject, is valid. -/
def Obligations.EncodeDependsOnInputAndWindowOnly : Prop :=
  ∀ (s s0 e s' s0' e' : State) (k k' : Nat), s.Inv → s'.Inv →
    exec .encode s = .next s0 → CoreRun k s0 e → e.seq = .idle →
    exec .encode s' = .next s0' → CoreRun k' s0' e' → e'.seq = .idle →
    s.input = s'.input → wclamp s.wsize = wclamp s'.wsize →
    (e.status.err = .none ∧ e'.status.err = .none ∨
      s.cfg.dstCap = s'.cfg.dstCap ∧
      s.srcLen.toNat ≤ s.cfg.srcCap.toNat ∧ (s.cfg.rejectInvalidWindow = true → windowValid s.wsize = true) ∧
      s'.srcLen.toNat ≤ s'.cfg.srcCap.toNat ∧ (s'.cfg.rejectInvalidWindow = true → windowValid s'.wsize = true)) →
    e.output = e'.output ∧ e.bits = e'.bits ∧ e.tokens = e'.tokens ∧ e.status = e'.status
end

