-- ==== Sys2Proof/Laws/Bits.lean ====
section
/-! SUPPORT. Laws of fields and streams of bits: what `bitsMsb` lists, what `fieldAt` reads, and that a token read at a
position where its bits stand is that token. -/

namespace Sys2Proof

@[simp] theorem bitsMsb_length (v k : Nat) : (bitsMsb v k).length = k := by
  induction k with
  | zero => rfl
  | succ k ih => simp [bitsMsb, ih]

/-- Bit `j` of a field in stream order is bit `k - 1 - j` of its value (R11). -/
theorem bitsMsb_getD (v : Nat) {k j : Nat} (h : j < k) : (bitsMsb v k).getD j false = v.testBit (k - 1 - j) := by
  induction k generalizing j with
  | zero => omega
  | succ k ih =>
    cases j with
    | zero => simp [bitsMsb]
    | succ j =>
      have := ih (j := j) (by omega)
      simp only [bitsMsb, List.getD_cons_succ, this]
      congr 1
      omega

theorem fieldAt_lt (bit : Nat → Bool) (p k : Nat) : fieldAt bit p k < 2 ^ k := by
  induction k with
  | zero => simp [fieldAt]
  | succ k ih =>
    have := Bool.toNat_lt (bit (p + k))
    simp only [fieldAt, Nat.pow_succ]
    omega

/-- A field's first stream bit is its most significant bit (R11). -/
theorem fieldAt_testBit (bit : Nat → Bool) (p : Nat) {k j : Nat} (h : j < k) :
    (fieldAt bit p k).testBit (k - 1 - j) = bit (p + j) := by
  induction k generalizing j with
  | zero => omega
  | succ k ih =>
    have e : fieldAt bit p (k + 1) = 2 * fieldAt bit p k + (bit (p + k)).toNat := rfl
    rcases Nat.lt_succ_iff_lt_or_eq.1 h with h | rfl
    · have hj : k + 1 - 1 - j = (k - 1 - j) + 1 := by omega
      have hb := Bool.toNat_lt (bit (p + k))
      rw [hj, Nat.testBit_succ, e, ← ih h]
      congr 1
      omega
    · have hb := Bool.toNat_lt (bit (p + j))
      rw [e]
      simp only [Nat.add_sub_cancel, Nat.sub_self, Nat.testBit_zero]
      cases bit (p + j) <;> simp

/-- A field where the bits of `v` stand reads `v`. -/
theorem fieldAt_eq {bit : Nat → Bool} {p v k : Nat} (hv : v < 2 ^ k)
    (h : ∀ j < k, bit (p + j) = v.testBit (k - 1 - j)) : fieldAt bit p k = v := by
  refine Nat.eq_of_testBit_eq fun i => ?_
  by_cases hi : i < k
  · have := fieldAt_testBit bit p (k := k) (j := k - 1 - i) (by omega)
    rw [h _ (by omega)] at this
    rwa [show k - 1 - (k - 1 - i) = i by omega] at this
  · have hk : 2 ^ k ≤ 2 ^ i := Nat.pow_le_pow_right (by decide) (by omega)
    rw [Nat.testBit_lt_two_pow (Nat.lt_of_lt_of_le (fieldAt_lt bit p k) hk),
      Nat.testBit_lt_two_pow (Nat.lt_of_lt_of_le hv hk)]

/-- Streams that agree on a field read the same field. -/
theorem fieldAt_congr {bit bit' : Nat → Bool} {p p' k : Nat} (h : ∀ j < k, bit (p + j) = bit' (p' + j)) :
    fieldAt bit p k = fieldAt bit' p' k := by
  induction k with
  | zero => rfl
  | succ k ih => simp only [fieldAt, ih fun j hj => h j (by omega), h k (by omega)]

/-- What a field lists is the stream's bits from its position on. -/
theorem bitsMsb_fieldAt (bit : Nat → Bool) (p k : Nat) :
    bitsMsb (fieldAt bit p k) k = (List.range k).map fun j => bit (p + j) := by
  apply List.ext_getElem (by simp)
  intro j h1 _
  have hj : j < k := by simpa using h1
  have := bitsMsb_getD (fieldAt bit p k) hj
  rw [List.getD_eq_getElem _ _ h1] at this
  rw [this, fieldAt_testBit _ _ hj]
  simp

/-- A field is its high part and its low part. -/
theorem fieldAt_add (bit : Nat → Bool) (p a b : Nat) :
    fieldAt bit p (a + b) = fieldAt bit p a * 2 ^ b + fieldAt bit (p + a) b := by
  induction b with
  | zero => simp [fieldAt]
  | succ b ih =>
    rw [← Nat.add_assoc]
    simp only [fieldAt, ih, Nat.pow_succ, Nat.add_assoc]
    ring

/-- Bit `j` of two lists of bits in a row. -/
theorem getD_append_bits (l l' : List Bool) (j : Nat) :
    (l ++ l').getD j false = if j < l.length then l.getD j false else l'.getD (j - l.length) false := by
  simp [List.getElem?_append, List.getD]
  split <;> simp

/-- Extraction undoes packing (R84, R85). -/
theorem fieldDistance_pack (d : BitVec 12) (l : BitVec 4) :
    fieldDistance (packByte1 d.toNat) (packByte2 d.toNat l.toNat) = d := by
  apply BitVec.eq_of_toNat_eq
  have hd := d.isLt
  have hl := l.isLt
  simp only [fieldDistance, packByte1, packByte2, BitVec.toNat_ofNat]
  have h1 : d.toNat >>> 4 <<< 4 ||| ((d.toNat &&& 0xF) <<< 4 ||| l.toNat) >>> 4 = d.toNat := by
    rw [Nat.shiftRight_or_distrib, Nat.shiftLeft_shiftRight]
    have h2 : l.toNat >>> 4 = 0 := by rw [Nat.shiftRight_eq_div_pow]; exact Nat.div_eq_of_lt hl
    rw [h2, Nat.or_zero, show (0xF : Nat) = 2 ^ 4 - 1 from rfl, Nat.and_two_pow_sub_one_eq_mod]
    rw [← Nat.shiftLeft_add_eq_or_of_lt (Nat.mod_lt _ (by decide)), Nat.shiftLeft_eq, Nat.shiftRight_eq_div_pow]
    omega
  rw [h1]
  exact Nat.mod_eq_of_lt hd

/-- Extraction undoes packing (R84, R85). -/
theorem fieldLength_pack (d : Nat) (l : BitVec 4) : fieldLength (packByte2 d l.toNat) = l := by
  apply BitVec.eq_of_toNat_eq
  have hl := l.isLt
  simp only [fieldLength, packByte2, BitVec.toNat_ofNat]
  rw [show (0x0F : Nat) = 2 ^ 4 - 1 from rfl, Nat.and_two_pow_sub_one_eq_mod,
    ← Nat.shiftLeft_add_eq_or_of_lt hl, Nat.shiftLeft_eq]
  omega

theorem packByte1_lt {d : Nat} (h : d < 2 ^ 12) : packByte1 d < 2 ^ 8 := by
  simp only [packByte1, Nat.shiftRight_eq_div_pow]; omega

theorem packByte2_lt (d : Nat) {l : Nat} (h : l < 2 ^ 4) : packByte2 d l < 2 ^ 8 := by
  simp only [packByte2]
  rw [show (0xF : Nat) = 2 ^ 4 - 1 from rfl, Nat.and_two_pow_sub_one_eq_mod,
    ← Nat.shiftLeft_add_eq_or_of_lt h, Nat.shiftLeft_eq]
  omega

/-- Packing undoes extraction (R84, R85): no bit of the two bytes is dropped. -/
theorem pack_fields {byte1 byte2 : Nat} (h1 : byte1 < 2 ^ 8) (h2 : byte2 < 2 ^ 8) :
    packByte1 (fieldDistance byte1 byte2).toNat = byte1 ∧
    packByte2 (fieldDistance byte1 byte2).toNat (fieldLength byte2).toNat = byte2 := by
  have e1 : (fieldDistance byte1 byte2).toNat = byte1 * 16 + byte2 / 16 := by
    simp only [fieldDistance, BitVec.toNat_ofNat]
    rw [← Nat.shiftLeft_add_eq_or_of_lt (by rw [Nat.shiftRight_eq_div_pow]; omega), Nat.shiftLeft_eq,
      Nat.shiftRight_eq_div_pow]
    omega
  have e2 : (fieldLength byte2).toNat = byte2 % 16 := by
    simp only [fieldLength, BitVec.toNat_ofNat]
    rw [show (0x0F : Nat) = 2 ^ 4 - 1 from rfl, Nat.and_two_pow_sub_one_eq_mod]
    omega
  constructor
  · simp only [packByte1, e1, Nat.shiftRight_eq_div_pow]
    omega
  · simp only [packByte2, e1, e2]
    rw [show (0xF : Nat) = 2 ^ 4 - 1 from rfl, Nat.and_two_pow_sub_one_eq_mod,
      ← Nat.shiftLeft_add_eq_or_of_lt (by omega), Nat.shiftLeft_eq]
    omega

@[simp] theorem encodeToken_length (t : Token) : (encodeToken t).length = t.width := by
  cases t <;> simp [encodeToken, Token.width]

end Sys2Proof
end

