-- ==== Sys2Proof/Laws/Checks.lean ====
section
/-! SUPPORT. What each check of a rule says, as a proposition over the state: the form in which proofs use it. -/

namespace Sys2Proof.Machine

theorem State.srcTooLong_iff {s : State} : s.srcTooLong = true ↔ s.cfg.srcCap.toNat < s.srcLen.toNat := by
  simp [State.srcTooLong]

theorem State.srcLacks_iff {s : State} {e : Nat} : s.srcLacks e = true ↔ s.cfg.srcCap.toNat < e := by
  simp [State.srcLacks]

theorem State.encFull_iff {s : State} {w : Nat} :
    s.encFull w = true ↔ s.cfg.dstCap.toNat < ceil8 (s.bits.toNat + w) := by
  simp [State.encFull]

theorem State.outFull_iff {s : State} {k : Nat} : s.outFull k = true ↔ s.cfg.dstCap.toNat < s.dstLen.toNat + k := by
  simp [State.outFull]

theorem State.badDistance_iff {s : State} {d len : Nat} :
    s.badDistance d len = true ↔ 0 < len ∧ (d = 0 ∨ s.dstLen.toNat < d) := by
  simp [State.badDistance]

theorem State.writerRoom_iff {s : State} {k : Nat} :
    s.writerRoom k = true ↔
      (0 < (s.bwN.toNat + k) / 8 → s.dstLen.toNat + (s.bwN.toNat + k) / 8 ≤ s.cfg.dstCap.toNat) := by
  simp only [State.writerRoom, Bool.or_eq_true, decide_eq_true_eq]
  omega

theorem State.flushRoom_iff {s : State} :
    s.flushRoom = true ↔ (s.bwN ≠ 0 → s.dstLen.toNat < s.cfg.dstCap.toNat) := by
  simp only [State.flushRoom, Bool.or_eq_true, decide_eq_true_eq]
  tauto

theorem windowValid_iff {v : Word} : windowValid v = true ↔ 1 ≤ v.toInt ∧ v.toInt ≤ 4095 := by
  simp [windowValid]

theorem wordAccess_iff {off width : Nat} : wordAccess off width = true ↔ width = 4 ∧ off % 4 = 0 := by
  simp [wordAccess]

/-- Where SRC_LEN fits SRC, the source is written exactly when every byte below SRC_LEN is (R216). -/
theorem State.sourceWritten_eq {s : State} (h : s.srcLen.toNat ≤ s.cfg.srcCap.toNat) :
    s.sourceWritten = Memory.writtenBelow s.src s.srcLen.toNat := by
  simp [State.sourceWritten, Nat.min_eq_left h]

/-- A position that does not pass the stream leaves `T - p` bits (R106). -/
theorem State.remaining_eq {s : State} {p : Nat} (h : p ≤ s.streamLen) : s.remaining p = s.streamLen - p := by
  simp [State.remaining, Nat.not_lt.2 h]

/-- At a position that does not pass the stream, the end test is that of R109 over the stream's `T` bits. -/
theorem State.cleanEndAt_eq {s : State} {p : Nat} (h : p ≤ s.streamLen) :
    s.cleanEndAt p = cleanEnd s.streamBit s.streamLen p := by
  rw [State.cleanEndAt, if_neg (Nat.not_lt.2 h)]

/-- Register arithmetic that does not wrap. -/
theorem toNat_add_of_lt {a b : Word} (h : a.toNat + b.toNat < 2 ^ 32) : (a + b).toNat = a.toNat + b.toNat := by
  rw [BitVec.toNat_add]
  exact Nat.mod_eq_of_lt h

end Sys2Proof.Machine
end

