-- ==== Sys2Proof/Laws/Match.lean ====
section
/-! SUPPORT. The match finder's two loops (41_match_finder.md R131 to R134): what a comparison says, and what one pass
of the inner loop does to the running best. -/

namespace Sys2Proof.Machine

theorem tileMatch_iff (inp : Nat → Byte) (i i' len : Nat) :
    tileMatch inp i i' len = true ↔ ∀ k < len, inp (i + k) = inp (i' + k % (i - i')) := by
  simp [tileMatch]

/-- Matching is closed under shorter lengths (R136). -/
theorem tileMatch_shorter {inp : Nat → Byte} {i i' len len' : Nat} (h : tileMatch inp i i' len' = true)
    (hl : len ≤ len') : tileMatch inp i i' len = true := by
  rw [tileMatch_iff] at *
  exact fun k hk => h k (Nat.lt_of_lt_of_le hk hl)

/-- The comparison reaches a byte that SRC lacks exactly where its length does and no byte before differs (R133). -/
theorem State.tileLacks_iff {s : State} {i i' len : Nat} :
    s.tileLacks i i' len = true ↔ s.cfg.srcCap.toNat - i < len ∧
      ∀ k < s.cfg.srcCap.toNat - i, s.srcByte (i + k) = s.srcByte (i' + k % (i - i')) := by
  simp [State.tileLacks, tileMatch]

/-- A comparison whose bytes all exist reaches none that SRC lacks. -/
theorem State.tileLacks_of_le {s : State} {i len : Nat} (i' : Nat) (h : i + len ≤ s.cfg.srcCap.toNat) :
    s.tileLacks i i' len = false := by
  rw [Bool.eq_false_iff, ne_eq, State.tileLacks_iff]
  omega

/-- A comparison that finds a difference among the bytes that exist reaches none that SRC lacks. -/
theorem State.tileLacks_of_ne {s : State} {i i' k : Nat} (len : Nat) (hk : i + k < s.cfg.srcCap.toNat)
    (h : s.srcByte (i + k) ≠ s.srcByte (i' + k % (i - i'))) : s.tileLacks i i' len = false := by
  rw [Bool.eq_false_iff, ne_eq, State.tileLacks_iff]
  exact fun hc => h (hc.2 k (by omega))

@[simp] theorem mem_candOffsets (w i i' : Nat) : i' ∈ candOffsets w i ↔ i - w ≤ i' ∧ i' < i := by
  simp only [candOffsets, windowLo, List.mem_range'_1]
  omega

@[simp] theorem mem_candLengths (n i len : Nat) : len ∈ candLengths n i ↔ 2 ≤ len ∧ len ≤ min 14 (n - i - 1) := by
  simp only [candLengths, matchCap, Config.minLen, Config.maxLen, List.mem_range'_1]
  omega

/-- Where SRC_LEN fits SRC, MF_FIND reads only bytes that exist: its comparisons end below SRC_LEN (R131). -/
theorem State.findLacks_of_le {s : State} (i : Nat) (h : s.srcLen.toNat ≤ s.cfg.srcCap.toNat) :
    s.findLacks i = false := by
  rw [Bool.eq_false_iff, ne_eq]
  simp only [State.findLacks, List.any_eq_true, mem_candLengths]
  rintro ⟨len, hl, i', _, hc⟩
  rw [State.tileLacks_of_le i' (by omega)] at hc
  cases hc

theorem candOffsets_sorted (w i : Nat) : (candOffsets w i).Pairwise (· < ·) := List.pairwise_lt_range'

theorem candLengths_sorted (n i : Nat) : (candLengths n i).Pairwise (· < ·) := List.pairwise_lt_range'

/-- Once the best has length `len`, no candidate of that length replaces it: never on ties (R134). -/
theorem inner_keeps (inp : Nat → Byte) (i len : Nat) (l : List Nat) {best : Nat × Nat} (h : len ≤ best.1) :
    l.foldl (tryCandidate inp i len) best = best := by
  induction l with
  | nil => rfl
  | cons a l ih => simp [tryCandidate, Nat.not_lt.2 h, ih]

/-- One pass of the inner loop over a shorter best: the first matching offset in the scan order, if any (R134, R135). -/
theorem inner_pass (inp : Nat → Byte) (i len : Nat) (l : List Nat) {best : Nat × Nat} (h : best.1 < len) :
    l.foldl (tryCandidate inp i len) best =
      match l.find? (tileMatch inp i · len) with
      | some i' => (len, i - i')
      | none => best := by
  induction l with
  | nil => rfl
  | cons a l ih =>
    rw [List.foldl_cons, List.find?_cons]
    cases hm : tileMatch inp i a len
    · simpa [tryCandidate, hm] using ih
    · have : tryCandidate inp i len best a = (len, i - a) := by simp [tryCandidate, hm, h]
      rw [this, inner_keeps inp i len l (best := (len, i - a)) (Nat.le_refl _)]

/-- What the running best says once the lengths `done` were tried (R134): nothing matched, or it is the smallest offset
that matches at the longest length that any offset matches at. -/
def Best (inp : Nat → Byte) (w i : Nat) (done : List Nat) (best : Nat × Nat) : Prop :=
  (best = (0,0) ∧ ∀ len ∈ done, ∀ i', i - w ≤ i' → i' < i → tileMatch inp i i' len = false) ∨
  ∃ i', best.2 = i - i' ∧ best.1 ∈ done ∧ i - w ≤ i' ∧ i' < i ∧ tileMatch inp i i' best.1 = true ∧
    (∀ j, i - w ≤ j → j < i' → tileMatch inp i j best.1 = false) ∧
    ∀ len ∈ done, best.1 < len → ∀ j, i - w ≤ j → j < i → tileMatch inp i j len = false

/-- One more length, longer than all before. -/
theorem best_step {inp : Nat → Byte} {w i : Nat} {done : List Nat} {best : Nat × Nat} {len : Nat}
    (h : Best inp w i done best) (hl : best.1 < len) (hd : ∀ x ∈ done, x < len) :
    Best inp w i (done ++ [len]) ((candOffsets w i).foldl (tryCandidate inp i len) best) := by
  rw [inner_pass _ _ _ _ hl]
  cases hf : (candOffsets w i).find? (tileMatch inp i · len) with
  | none =>
    simp only [List.find?_eq_none, mem_candOffsets] at hf
    rcases h with ⟨h1, h2⟩ | ⟨i', a, b, c, d, e, f, g⟩
    · refine .inl ⟨h1, fun l hl' j h1 h2' => ?_⟩
      rcases List.mem_append.1 hl' with hm | hm
      · exact h2 l hm j h1 h2'
      · simp at hm; subst hm; simpa using hf j ⟨h1, h2'⟩
    · refine .inr ⟨i', a, List.mem_append_left _ b, c, d, e, f, fun l hl' hlt j h1 h2' => ?_⟩
      rcases List.mem_append.1 hl' with hm | hm
      · exact g l hm hlt j h1 h2'
      · simp at hm; subst hm; simpa using hf j ⟨h1, h2'⟩
  | some i' =>
    have hm := List.find?_some hf
    have hmem := List.mem_of_find?_eq_some hf
    rw [mem_candOffsets] at hmem
    refine .inr ⟨i', rfl, by simp, hmem.1, hmem.2, hm, fun j h1 h2 => ?_, fun l hl' hlt => ?_⟩
    · obtain ⟨_, as, bs, e, hall⟩ := List.find?_eq_some_iff_append.1 hf
      have hj : j ∈ candOffsets w i := by rw [mem_candOffsets]; omega
      have hs := candOffsets_sorted w i
      rw [e] at hj hs
      rcases List.mem_append.1 hj with hj | hj
      · simpa using hall j hj
      · have := (List.pairwise_append.1 hs).2.1
        rcases List.mem_cons.1 hj with hj | hj
        · omega
        · have := (List.pairwise_cons.1 this).1 j hj; omega
    · rcases List.mem_append.1 hl' with hm' | hm'
      · have := hd l hm'; simp at hlt; omega
      · simp at hm' hlt; omega

/-- All the lengths of a rising list. -/
theorem best_all {inp : Nat → Byte} {w i : Nat} (l done : List Nat) (best : Nat × Nat)
    (h : Best inp w i done best) (hs : (done ++ l).Pairwise (· < ·)) (hpos : ∀ x ∈ l, 0 < x) :
    Best inp w i (done ++ l) (l.foldl (fun b len => (candOffsets w i).foldl (tryCandidate inp i len) b) best) := by
  induction l generalizing done best with
  | nil => simpa using h
  | cons a l ih =>
    have hlt : ∀ x ∈ done, x < a := fun x hx => (List.pairwise_append.1 hs).2.2 x hx a (by simp)
    have hb : best.1 < a := by
      rcases h with ⟨h1, _⟩ | ⟨_, _, b, _⟩
      · rw [h1]; exact hpos a (by simp)
      · exact hlt _ b
    have := ih (done ++ [a]) _ (best_step h hb hlt) (by simpa using hs) (fun x hx => hpos x (by simp [hx]))
    simpa using this

/-- The running best after both loops. -/
theorem best_bestMatch (inp : Nat → Byte) (n w i : Nat) : Best inp w i (candLengths n i) (bestMatch inp n w i) := by
  have := best_all (inp := inp) (w := w) (i := i) (candLengths n i) [] (0, 0) (.inl ⟨rfl, by simp⟩)
    (by simpa using candLengths_sorted n i) (by intro x hx; rw [mem_candLengths] at hx; omega)
  simpa [bestMatch] using this

end Sys2Proof.Machine
end

