-- ==== Sys2Proof/Laws/Memory.lean ====
section
/-! SUPPORT. The laws of a memory: a read after a write, the canonical form, and what is written below an index. -/

namespace Sys2Proof.Machine

@[simp] theorem Memory.read_nil (k : Nat) : Memory.read [] k = none := rfl

/-- A read after a write to the same index gives the value written. -/
@[simp] theorem Memory.read_write_same (m : Memory) (k : Nat) (b : Byte) :
    Memory.read (Memory.write m k b) k = some b := by
  induction m with
  | nil => simp [Memory.write, Memory.read]
  | cons c m ih =>
    obtain ⟨a, c⟩ := c
    simp only [Memory.write]
    split
    · simp [Memory.read]
    · split
      · simp [Memory.read]
      · rename_i h
        simp [Memory.read, ih, Ne.symm h]

/-- A write leaves every other index as it was. -/
theorem Memory.read_write_other (m : Memory) {k j : Nat} (b : Byte) (h : j ≠ k) :
    Memory.read (Memory.write m k b) j = Memory.read m j := by
  induction m with
  | nil => simp [Memory.write, Memory.read, Ne.symm h]
  | cons c m ih =>
    obtain ⟨a, c⟩ := c
    simp only [Memory.write]
    split
    · simp [Memory.read, Ne.symm h]
    · split
      · rename_i hk
        subst hk
        simp [Memory.read, Ne.symm h]
      · simp [Memory.read, ih]

/-- A read after a write, in one equation. -/
theorem Memory.read_write (m : Memory) (k j : Nat) (b : Byte) :
    Memory.read (Memory.write m k b) j = if j = k then some b else Memory.read m j := by
  split
  · subst_vars; simp
  · exact Memory.read_write_other m b ‹_›

/-- The indices listed after a write. -/
theorem Memory.mem_write {m : Memory} {k : Nat} {b : Byte} {x : Host.Cell} (h : x ∈ Memory.write m k b) :
    x = (k, b) ∨ x ∈ m := by
  induction m with
  | nil => simpa [Memory.write] using h
  | cons c m ih =>
    obtain ⟨a, c⟩ := c
    simp only [Memory.write] at h
    split at h
    · simpa using h
    · split at h
      · rcases List.mem_cons.1 h with h | h
        · exact .inl h
        · exact .inr (List.mem_cons_of_mem _ h)
      · rcases List.mem_cons.1 h with h | h
        · exact .inr (h ▸ List.mem_cons_self)
        · exact (ih h).imp id (List.mem_cons_of_mem _)

/-- A write keeps the canonical form. -/
theorem Memory.wf_write {m : Memory} (h : Memory.wf m) (k : Nat) (b : Byte) : Memory.wf (Memory.write m k b) := by
  induction m with
  | nil => simp [Memory.write, Memory.wf]
  | cons c m ih =>
    obtain ⟨a, c⟩ := c
    obtain ⟨h1, h2⟩ := List.pairwise_cons.1 h
    simp only [Memory.write]
    split
    · rename_i hk
      refine List.pairwise_cons.2 ⟨fun x hx => ?_, h⟩
      rcases List.mem_cons.1 hx with hx | hx
      · subst hx; exact hk
      · exact Nat.lt_trans hk (h1 x hx)
    · split
      · rename_i hk
        subst hk
        exact List.pairwise_cons.2 ⟨h1, h2⟩
      · refine List.pairwise_cons.2 ⟨fun x hx => ?_, ih h2⟩
        rcases Memory.mem_write hx with hx | hx
        · subst hx; simp; omega
        · exact h1 x hx

/-- A write below a bound keeps every listed index below it. -/
theorem Memory.below_write {m : Memory} {n k : Nat} (h : ∀ x ∈ m, x.1 < n) (hk : k < n) (b : Byte) :
    ∀ x ∈ Memory.write m k b, x.1 < n := by
  intro x hx
  rcases Memory.mem_write hx with hx | hx
  · subst hx; exact hk
  · exact h x hx

/-- Nothing is listed at an index that is above every listed one. -/
theorem Memory.read_none_of_below {m : Memory} {n k : Nat} (h : ∀ x ∈ m, x.1 < n) (hk : n ≤ k) :
    Memory.read m k = none := by
  induction m with
  | nil => rfl
  | cons c m ih =>
    obtain ⟨a, c⟩ := c
    have ha : a < n := h (a, c) List.mem_cons_self
    simp only [Memory.read]
    rw [if_neg (by omega)]
    exact ih fun x hx => h x (List.mem_cons_of_mem _ hx)

/-- In a canonical memory, what is listed is what reads. -/
theorem Memory.read_eq_some_iff {m : Memory} (h : Memory.wf m) (k : Nat) (b : Byte) :
    Memory.read m k = some b ↔ (k, b) ∈ m := by
  induction m with
  | nil => simp
  | cons c m ih =>
    obtain ⟨a, c⟩ := c
    obtain ⟨h1, h2⟩ := List.pairwise_cons.1 h
    simp only [Memory.read, List.mem_cons, Prod.mk.injEq]
    split
    · rename_i hk
      subst hk
      constructor
      · intro hb; simp_all
      · rintro (⟨_, rfl⟩ | hm)
        · rfl
        · exact absurd (h1 _ hm) (Nat.lt_irrefl _)
    · rename_i hk
      rw [ih h2]
      constructor
      · exact .inr
      · rintro (⟨rfl, _⟩ | hm)
        · exact absurd rfl hk
        · exact hm

/-- Canonical memories that read alike are equal. -/
theorem Memory.ext_of_wf {m n : Memory} (hm : Memory.wf m) (hn : Memory.wf n)
    (h : ∀ k, Memory.read m k = Memory.read n k) : m = n := by
  have hmem : ∀ x : Host.Cell, x ∈ m ↔ x ∈ n := fun ⟨k, b⟩ => by
    rw [← Memory.read_eq_some_iff hm, ← Memory.read_eq_some_iff hn, h]
  have nd : ∀ {l : Memory}, Memory.wf l → l.Nodup := fun hl =>
    hl.imp fun hab e => by subst e; exact Nat.lt_irrefl _ hab
  exact ((List.perm_ext_iff_of_nodup (nd hm) (nd hn)).2 hmem).eq_of_pairwise
    (fun a b _ _ hab hba => absurd (Nat.lt_trans hab hba) (Nat.lt_irrefl _)) hm hn

theorem Memory.writtenBelow_iff (m : Memory) (n : Nat) :
    Memory.writtenBelow m n = true ↔ ∀ k < n, (Memory.read m k).isSome := by
  induction n with
  | zero => simp [Memory.writtenBelow]
  | succ n ih =>
    simp only [Memory.writtenBelow, Bool.and_eq_true, ih]
    constructor
    · rintro ⟨h1, h2⟩ k hk
      rcases Nat.lt_succ_iff_lt_or_eq.1 hk with h | rfl
      · exact h2 k h
      · exact h1
    · exact fun h => ⟨h n (Nat.lt_succ_self n), fun k hk => h k (Nat.lt_succ_of_lt hk)⟩

/-- A write keeps what was written below an index. -/
theorem Memory.writtenBelow_write {m : Memory} {n : Nat} (h : Memory.writtenBelow m n = true) (k : Nat) (b : Byte) :
    Memory.writtenBelow (Memory.write m k b) n = true := by
  rw [Memory.writtenBelow_iff] at *
  intro j hj
  rw [Memory.read_write]
  split
  · rfl
  · exact h j hj

/-- An append at the end of what is written extends it by one. -/
theorem Memory.writtenBelow_append {m : Memory} {n : Nat} (h : Memory.writtenBelow m n = true) (b : Byte) :
    Memory.writtenBelow (Memory.write m n b) (n + 1) = true := by
  simp only [Memory.writtenBelow, Memory.read_write_same, Option.isSome_some, Bool.true_and]
  exact Memory.writtenBelow_write h n b

theorem Memory.writtenBelow_mono {m : Memory} {n k : Nat} (h : Memory.writtenBelow m n = true) (hk : k ≤ n) :
    Memory.writtenBelow m k = true := by
  rw [Memory.writtenBelow_iff] at *
  exact fun j hj => h j (Nat.lt_of_lt_of_le hj hk)

end Sys2Proof.Machine
end

