-- ==== Sys2Proof/Laws/PerInstr.lean ====
section
/-! SUPPORT. The shape of every instruction's words (30_encoding.md R81 to R83, R90, R92), one lemma per instruction. -/

/-- The words of an instruction are the 9 bits of a flag 0, the 17 bits of a flag 1, or a command whose reserved bits
are 0. -/
def Sys2Proof.Laws.CodeShape.Statement (i : Sys2Proof.Instr) : Prop :=
  (∀ l, Sys2Proof.encode i = some (.token l) →
    l.length = 9 ∧ l.head? = some false ∨ l.length = 17 ∧ l.head? = some true) ∧
  ∀ v, Sys2Proof.encode i = some (.ctrl v) → v.toNat < 4

namespace Sys2Proof.Laws.CodeShape

theorem lit (b : Byte) : Statement (.lit b) := by
  refine ⟨fun l h => .inl ?_, fun v h => by simp [Sys2Proof.encode] at h⟩
  obtain rfl : encodeToken (.lit b) = l := by simpa [Sys2Proof.encode] using h
  exact ⟨by simp [Token.width], rfl⟩

theorem copy (d : BitVec 12) (len : BitVec 4) : Statement (.copy d len) := by
  refine ⟨fun l h => .inr ?_, fun v h => by simp [Sys2Proof.encode] at h⟩
  obtain rfl : encodeToken (.copy d len) = l := by simpa [Sys2Proof.encode] using h
  exact ⟨by simp [Token.width], rfl⟩

theorem nop : Statement .nop := by
  refine ⟨fun l h => by simp [Sys2Proof.encode] at h, fun v h => ?_⟩
  obtain rfl : (0 : Word) = v := by simpa [Sys2Proof.encode] using h
  decide

theorem encode : Statement .encode := by
  refine ⟨fun l h => by simp [Sys2Proof.encode] at h, fun v h => ?_⟩
  obtain rfl : (1 : Word) = v := by simpa [Sys2Proof.encode] using h
  decide

theorem decode : Statement .decode := by
  refine ⟨fun l h => by simp [Sys2Proof.encode] at h, fun v h => ?_⟩
  obtain rfl : (2 : Word) = v := by simpa [Sys2Proof.encode] using h
  decide

/-- An instruction without words. -/
theorem of_none {i : Instr} (h : Sys2Proof.encode i = none) : Statement i :=
  ⟨fun l hl => by simp [h] at hl, fun v hv => by simp [h] at hv⟩

theorem bwInit : Statement .bwInit := of_none rfl
theorem bwWriteBit (b : Bool) : Statement (.bwWriteBit b) := of_none rfl
theorem bwWriteBits (v k : Nat) : Statement (.bwWriteBits v k) := of_none rfl
theorem bwFlush : Statement .bwFlush := of_none rfl
theorem brInit : Statement .brInit := of_none rfl
theorem brRemaining (p : Nat) : Statement (.brRemaining p) := of_none rfl
theorem brReadBit (p : Nat) : Statement (.brReadBit p) := of_none rfl
theorem brReadBits (p k : Nat) : Statement (.brReadBits p k) := of_none rfl
theorem brCleanEnd (p : Nat) : Statement (.brCleanEnd p) := of_none rfl
theorem mfTileMatch (i i' len : Nat) : Statement (.mfTileMatch i i' len) := of_none rfl
theorem mfFind (i : Nat) : Statement (.mfFind i) := of_none rfl
theorem encStep : Statement .encStep := of_none rfl
theorem encEmitCopy (d len : Nat) : Statement (.encEmitCopy d len) := of_none rfl
theorem encEmitLit (b : Byte) : Statement (.encEmitLit b) := of_none rfl
theorem encFinish : Statement .encFinish := of_none rfl
theorem decStep : Statement .decStep := of_none rfl
theorem copyReplay (d len : Nat) : Statement (.copyReplay d len) := of_none rfl
theorem reset : Statement .reset := of_none rfl

end Sys2Proof.Laws.CodeShape
end

