-- ==== Sys2Proof/Laws/State.lean ====
section
/-! SUPPORT. One lemma per field per update of the state: what each shared operation writes, and that it leaves every
other field as it was. -/

namespace Sys2Proof.Machine

variable (s : State)

/-! ### A byte went to DST (R101, R103). -/

@[simp] theorem clearWriter_cfg : (clearWriter s).cfg = s.cfg := rfl
@[simp] theorem clearWriter_status : (clearWriter s).status = s.status := rfl
@[simp] theorem clearWriter_wsize : (clearWriter s).wsize = s.wsize := rfl
@[simp] theorem clearWriter_wsizeWritten : (clearWriter s).wsizeWritten = s.wsizeWritten := rfl
@[simp] theorem clearWriter_srcLen : (clearWriter s).srcLen = s.srcLen := rfl
@[simp] theorem clearWriter_srcLenWritten : (clearWriter s).srcLenWritten = s.srcLenWritten := rfl
@[simp] theorem clearWriter_dstLen : (clearWriter s).dstLen = s.dstLen := rfl
@[simp] theorem clearWriter_bits : (clearWriter s).bits = s.bits := rfl
@[simp] theorem clearWriter_tokens : (clearWriter s).tokens = s.tokens := rfl
@[simp] theorem clearWriter_ewsize : (clearWriter s).ewsize = s.ewsize := rfl
@[simp] theorem clearWriter_seq : (clearWriter s).seq = s.seq := rfl
@[simp] theorem clearWriter_pos : (clearWriter s).pos = s.pos := rfl
@[simp] theorem clearWriter_bwAcc : (clearWriter s).bwAcc = 0 := rfl
@[simp] theorem clearWriter_bwN : (clearWriter s).bwN = 0 := rfl
@[simp] theorem clearWriter_src : (clearWriter s).src = s.src := rfl
@[simp] theorem clearWriter_dst : (clearWriter s).dst = s.dst := rfl
@[simp] theorem clearWriter_hostq : (clearWriter s).hostq = s.hostq := rfl
@[simp] theorem clearWriter_hostData : (clearWriter s).hostData = s.hostData := rfl
@[simp] theorem clearWriter_seenLen : (clearWriter s).seenLen = s.seenLen := rfl
@[simp] theorem clearWriter_ret : (clearWriter s).ret = s.ret := rfl
@[simp] theorem clearWriter_draws : (clearWriter s).draws = s.draws := rfl

/-! ### The end of an emission (R152, R153). -/

@[simp] theorem tokenEmitted_cfg (len : Nat) : (tokenEmitted len s).cfg = s.cfg := rfl
@[simp] theorem tokenEmitted_status (len : Nat) : (tokenEmitted len s).status = s.status := rfl
@[simp] theorem tokenEmitted_wsize (len : Nat) : (tokenEmitted len s).wsize = s.wsize := rfl
@[simp] theorem tokenEmitted_wsizeWritten (len : Nat) : (tokenEmitted len s).wsizeWritten = s.wsizeWritten := rfl
@[simp] theorem tokenEmitted_srcLen (len : Nat) : (tokenEmitted len s).srcLen = s.srcLen := rfl
@[simp] theorem tokenEmitted_srcLenWritten (len : Nat) : (tokenEmitted len s).srcLenWritten = s.srcLenWritten := rfl
@[simp] theorem tokenEmitted_dstLen (len : Nat) : (tokenEmitted len s).dstLen = s.dstLen := rfl
@[simp] theorem tokenEmitted_bits (len : Nat) : (tokenEmitted len s).bits = s.bits := rfl
@[simp] theorem tokenEmitted_tokens (len : Nat) : (tokenEmitted len s).tokens = s.tokens + 1 := rfl
@[simp] theorem tokenEmitted_ewsize (len : Nat) : (tokenEmitted len s).ewsize = s.ewsize := rfl
@[simp] theorem tokenEmitted_seq (len : Nat) : (tokenEmitted len s).seq = s.seq := rfl
@[simp] theorem tokenEmitted_pos (len : Nat) : (tokenEmitted len s).pos = s.pos + len := rfl
@[simp] theorem tokenEmitted_bwAcc (len : Nat) : (tokenEmitted len s).bwAcc = s.bwAcc := rfl
@[simp] theorem tokenEmitted_bwN (len : Nat) : (tokenEmitted len s).bwN = s.bwN := rfl
@[simp] theorem tokenEmitted_src (len : Nat) : (tokenEmitted len s).src = s.src := rfl
@[simp] theorem tokenEmitted_dst (len : Nat) : (tokenEmitted len s).dst = s.dst := rfl
@[simp] theorem tokenEmitted_hostq (len : Nat) : (tokenEmitted len s).hostq = s.hostq := rfl
@[simp] theorem tokenEmitted_hostData (len : Nat) : (tokenEmitted len s).hostData = s.hostData := rfl
@[simp] theorem tokenEmitted_seenLen (len : Nat) : (tokenEmitted len s).seenLen = s.seenLen := rfl
@[simp] theorem tokenEmitted_ret (len : Nat) : (tokenEmitted len s).ret = s.ret := rfl
@[simp] theorem tokenEmitted_draws (len : Nat) : (tokenEmitted len s).draws = s.draws := rfl

/-! ### The end of a token (R172, R173). -/

@[simp] theorem tokenExecuted_cfg (w : Word) : (tokenExecuted w s).cfg = s.cfg := rfl
@[simp] theorem tokenExecuted_status (w : Word) : (tokenExecuted w s).status = s.status := rfl
@[simp] theorem tokenExecuted_wsize (w : Word) : (tokenExecuted w s).wsize = s.wsize := rfl
@[simp] theorem tokenExecuted_wsizeWritten (w : Word) : (tokenExecuted w s).wsizeWritten = s.wsizeWritten := rfl
@[simp] theorem tokenExecuted_srcLen (w : Word) : (tokenExecuted w s).srcLen = s.srcLen := rfl
@[simp] theorem tokenExecuted_srcLenWritten (w : Word) : (tokenExecuted w s).srcLenWritten = s.srcLenWritten := rfl
@[simp] theorem tokenExecuted_dstLen (w : Word) : (tokenExecuted w s).dstLen = s.dstLen := rfl
@[simp] theorem tokenExecuted_bits (w : Word) : (tokenExecuted w s).bits = s.bits + w := rfl
@[simp] theorem tokenExecuted_tokens (w : Word) : (tokenExecuted w s).tokens = s.tokens + 1 := rfl
@[simp] theorem tokenExecuted_ewsize (w : Word) : (tokenExecuted w s).ewsize = s.ewsize := rfl
@[simp] theorem tokenExecuted_seq (w : Word) : (tokenExecuted w s).seq = s.seq := rfl
@[simp] theorem tokenExecuted_pos (w : Word) : (tokenExecuted w s).pos = s.pos := rfl
@[simp] theorem tokenExecuted_bwAcc (w : Word) : (tokenExecuted w s).bwAcc = s.bwAcc := rfl
@[simp] theorem tokenExecuted_bwN (w : Word) : (tokenExecuted w s).bwN = s.bwN := rfl
@[simp] theorem tokenExecuted_src (w : Word) : (tokenExecuted w s).src = s.src := rfl
@[simp] theorem tokenExecuted_dst (w : Word) : (tokenExecuted w s).dst = s.dst := rfl
@[simp] theorem tokenExecuted_hostq (w : Word) : (tokenExecuted w s).hostq = s.hostq := rfl
@[simp] theorem tokenExecuted_hostData (w : Word) : (tokenExecuted w s).hostData = s.hostData := rfl
@[simp] theorem tokenExecuted_seenLen (w : Word) : (tokenExecuted w s).seenLen = s.seenLen := rfl
@[simp] theorem tokenExecuted_ret (w : Word) : (tokenExecuted w s).ret = s.ret := rfl
@[simp] theorem tokenExecuted_draws (w : Word) : (tokenExecuted w s).draws = s.draws := rfl

/-! ### ENCODE's own initial state (R150). -/

@[simp] theorem beginScanning_cfg : (beginScanning s).cfg = s.cfg := rfl
@[simp] theorem beginScanning_status : (beginScanning s).status = s.status := rfl
@[simp] theorem beginScanning_wsize : (beginScanning s).wsize = s.wsize := rfl
@[simp] theorem beginScanning_wsizeWritten : (beginScanning s).wsizeWritten = s.wsizeWritten := rfl
@[simp] theorem beginScanning_srcLen : (beginScanning s).srcLen = s.srcLen := rfl
@[simp] theorem beginScanning_srcLenWritten : (beginScanning s).srcLenWritten = s.srcLenWritten := rfl
@[simp] theorem beginScanning_dstLen : (beginScanning s).dstLen = s.dstLen := rfl
@[simp] theorem beginScanning_bits : (beginScanning s).bits = s.bits := rfl
@[simp] theorem beginScanning_tokens : (beginScanning s).tokens = s.tokens := rfl
@[simp] theorem beginScanning_ewsize : (beginScanning s).ewsize = s.ewsize := rfl
@[simp] theorem beginScanning_seq : (beginScanning s).seq = .scanning := rfl
@[simp] theorem beginScanning_pos : (beginScanning s).pos = 0 := rfl
@[simp] theorem beginScanning_bwAcc : (beginScanning s).bwAcc = s.bwAcc := rfl
@[simp] theorem beginScanning_bwN : (beginScanning s).bwN = s.bwN := rfl
@[simp] theorem beginScanning_src : (beginScanning s).src = s.src := rfl
@[simp] theorem beginScanning_dst : (beginScanning s).dst = s.dst := rfl
@[simp] theorem beginScanning_hostq : (beginScanning s).hostq = s.hostq := rfl
@[simp] theorem beginScanning_hostData : (beginScanning s).hostData = s.hostData := rfl
@[simp] theorem beginScanning_seenLen : (beginScanning s).seenLen = s.seenLen := rfl
@[simp] theorem beginScanning_ret : (beginScanning s).ret = s.ret := rfl
@[simp] theorem beginScanning_draws : (beginScanning s).draws = s.draws := rfl

/-! ### DECODE's own initial state (R170). -/

@[simp] theorem beginReading_cfg : (beginReading s).cfg = s.cfg := rfl
@[simp] theorem beginReading_status : (beginReading s).status = s.status := rfl
@[simp] theorem beginReading_wsize : (beginReading s).wsize = s.wsize := rfl
@[simp] theorem beginReading_wsizeWritten : (beginReading s).wsizeWritten = s.wsizeWritten := rfl
@[simp] theorem beginReading_srcLen : (beginReading s).srcLen = s.srcLen := rfl
@[simp] theorem beginReading_srcLenWritten : (beginReading s).srcLenWritten = s.srcLenWritten := rfl
@[simp] theorem beginReading_dstLen : (beginReading s).dstLen = s.dstLen := rfl
@[simp] theorem beginReading_bits : (beginReading s).bits = s.bits := rfl
@[simp] theorem beginReading_tokens : (beginReading s).tokens = s.tokens := rfl
@[simp] theorem beginReading_ewsize : (beginReading s).ewsize = s.ewsize := rfl
@[simp] theorem beginReading_seq : (beginReading s).seq = .reading := rfl
@[simp] theorem beginReading_pos : (beginReading s).pos = s.pos := rfl
@[simp] theorem beginReading_bwAcc : (beginReading s).bwAcc = s.bwAcc := rfl
@[simp] theorem beginReading_bwN : (beginReading s).bwN = s.bwN := rfl
@[simp] theorem beginReading_src : (beginReading s).src = s.src := rfl
@[simp] theorem beginReading_dst : (beginReading s).dst = s.dst := rfl
@[simp] theorem beginReading_hostq : (beginReading s).hostq = s.hostq := rfl
@[simp] theorem beginReading_hostData : (beginReading s).hostData = s.hostData := rfl
@[simp] theorem beginReading_seenLen : (beginReading s).seenLen = s.seenLen := rfl
@[simp] theorem beginReading_ret : (beginReading s).ret = s.ret := rfl
@[simp] theorem beginReading_draws : (beginReading s).draws = s.draws := rfl

/-! ### What a pure operation returned (R110). -/

@[simp] theorem returned_cfg (r : OpResult) (c : Bool) : (returned r c s).cfg = s.cfg := rfl
@[simp] theorem returned_status (r : OpResult) (c : Bool) : (returned r c s).status = s.status := rfl
@[simp] theorem returned_wsize (r : OpResult) (c : Bool) : (returned r c s).wsize = s.wsize := rfl
@[simp] theorem returned_wsizeWritten (r : OpResult) (c : Bool) : (returned r c s).wsizeWritten = s.wsizeWritten := rfl
@[simp] theorem returned_srcLen (r : OpResult) (c : Bool) : (returned r c s).srcLen = s.srcLen := rfl
@[simp] theorem returned_srcLenWritten (r : OpResult) (c : Bool) : (returned r c s).srcLenWritten = s.srcLenWritten := rfl
@[simp] theorem returned_dstLen (r : OpResult) (c : Bool) : (returned r c s).dstLen = s.dstLen := rfl
@[simp] theorem returned_bits (r : OpResult) (c : Bool) : (returned r c s).bits = s.bits := rfl
@[simp] theorem returned_tokens (r : OpResult) (c : Bool) : (returned r c s).tokens = s.tokens := rfl
@[simp] theorem returned_ewsize (r : OpResult) (c : Bool) : (returned r c s).ewsize = s.ewsize := rfl
@[simp] theorem returned_seq (r : OpResult) (c : Bool) : (returned r c s).seq = s.seq := rfl
@[simp] theorem returned_pos (r : OpResult) (c : Bool) : (returned r c s).pos = s.pos := rfl
@[simp] theorem returned_bwAcc (r : OpResult) (c : Bool) : (returned r c s).bwAcc = s.bwAcc := rfl
@[simp] theorem returned_bwN (r : OpResult) (c : Bool) : (returned r c s).bwN = s.bwN := rfl
@[simp] theorem returned_src (r : OpResult) (c : Bool) : (returned r c s).src = s.src := rfl
@[simp] theorem returned_dst (r : OpResult) (c : Bool) : (returned r c s).dst = s.dst := rfl
@[simp] theorem returned_hostq (r : OpResult) (c : Bool) : (returned r c s).hostq = s.hostq := rfl
@[simp] theorem returned_hostData (r : OpResult) (c : Bool) : (returned r c s).hostData = s.hostData := rfl
@[simp] theorem returned_seenLen (r : OpResult) (c : Bool) : (returned r c s).seenLen = s.seenLen := rfl
@[simp] theorem returned_ret (r : OpResult) (c : Bool) : (returned r c s).ret = r := rfl
@[simp] theorem returned_draws (r : OpResult) (c : Bool) : (returned r c s).draws = s.draws + c.toNat := rfl

/-! ### `Append` writes DST and DST_LEN only (20_memory.md R63, R68). -/

@[simp] theorem append_cfg (v : Byte) : (append v s).cfg = s.cfg := rfl
@[simp] theorem append_status (v : Byte) : (append v s).status = s.status := rfl
@[simp] theorem append_wsize (v : Byte) : (append v s).wsize = s.wsize := rfl
@[simp] theorem append_wsizeWritten (v : Byte) : (append v s).wsizeWritten = s.wsizeWritten := rfl
@[simp] theorem append_srcLen (v : Byte) : (append v s).srcLen = s.srcLen := rfl
@[simp] theorem append_srcLenWritten (v : Byte) : (append v s).srcLenWritten = s.srcLenWritten := rfl
@[simp] theorem append_dstLen (v : Byte) : (append v s).dstLen = s.dstLen + 1 := rfl
@[simp] theorem append_bits (v : Byte) : (append v s).bits = s.bits := rfl
@[simp] theorem append_tokens (v : Byte) : (append v s).tokens = s.tokens := rfl
@[simp] theorem append_ewsize (v : Byte) : (append v s).ewsize = s.ewsize := rfl
@[simp] theorem append_seq (v : Byte) : (append v s).seq = s.seq := rfl
@[simp] theorem append_pos (v : Byte) : (append v s).pos = s.pos := rfl
@[simp] theorem append_bwAcc (v : Byte) : (append v s).bwAcc = s.bwAcc := rfl
@[simp] theorem append_bwN (v : Byte) : (append v s).bwN = s.bwN := rfl
@[simp] theorem append_src (v : Byte) : (append v s).src = s.src := rfl
@[simp] theorem append_dst (v : Byte) : (append v s).dst = Memory.write s.dst s.dstLen.toNat v := rfl
@[simp] theorem append_hostq (v : Byte) : (append v s).hostq = s.hostq := rfl
@[simp] theorem append_hostData (v : Byte) : (append v s).hostData = s.hostData := rfl
@[simp] theorem append_seenLen (v : Byte) : (append v s).seenLen = s.seenLen := rfl
@[simp] theorem append_ret (v : Byte) : (append v s).ret = s.ret := rfl
@[simp] theorem append_draws (v : Byte) : (append v s).draws = s.draws := rfl

/-! ### CommandStart (R232). -/

@[simp] theorem commandStart_cfg (o : Op) : (commandStart o s).cfg = s.cfg := rfl
@[simp] theorem commandStart_status (o : Op) : (commandStart o s).status = Status.start o := rfl
@[simp] theorem commandStart_wsize (o : Op) : (commandStart o s).wsize = s.wsize := rfl
@[simp] theorem commandStart_wsizeWritten (o : Op) : (commandStart o s).wsizeWritten = s.wsizeWritten := rfl
@[simp] theorem commandStart_srcLen (o : Op) : (commandStart o s).srcLen = s.srcLen := rfl
@[simp] theorem commandStart_srcLenWritten (o : Op) : (commandStart o s).srcLenWritten = s.srcLenWritten := rfl
@[simp] theorem commandStart_dstLen (o : Op) : (commandStart o s).dstLen = 0 := rfl
@[simp] theorem commandStart_bits (o : Op) : (commandStart o s).bits = 0 := rfl
@[simp] theorem commandStart_tokens (o : Op) : (commandStart o s).tokens = 0 := rfl
@[simp] theorem commandStart_ewsize (o : Op) : (commandStart o s).ewsize = s.ewsize := rfl
@[simp] theorem commandStart_seq (o : Op) : (commandStart o s).seq = s.seq := rfl
@[simp] theorem commandStart_pos (o : Op) : (commandStart o s).pos = s.pos := rfl
@[simp] theorem commandStart_bwAcc (o : Op) : (commandStart o s).bwAcc = s.bwAcc := rfl
@[simp] theorem commandStart_bwN (o : Op) : (commandStart o s).bwN = s.bwN := rfl
@[simp] theorem commandStart_src (o : Op) : (commandStart o s).src = s.src := rfl
@[simp] theorem commandStart_dst (o : Op) : (commandStart o s).dst = s.dst := rfl
@[simp] theorem commandStart_hostq (o : Op) : (commandStart o s).hostq = s.hostq := rfl
@[simp] theorem commandStart_hostData (o : Op) : (commandStart o s).hostData = s.hostData := rfl
@[simp] theorem commandStart_seenLen (o : Op) : (commandStart o s).seenLen = 0 := rfl
@[simp] theorem commandStart_ret (o : Op) : (commandStart o s).ret = s.ret := rfl
@[simp] theorem commandStart_draws (o : Op) : (commandStart o s).draws = s.draws := rfl

/-! ### raise (R206). -/

@[simp] theorem raise_cfg (e : ErrKind) : (raise e s).cfg = s.cfg := rfl
@[simp] theorem raise_status (e : ErrKind) : (raise e s).status = s.status.fail e := rfl
@[simp] theorem raise_wsize (e : ErrKind) : (raise e s).wsize = s.wsize := rfl
@[simp] theorem raise_wsizeWritten (e : ErrKind) : (raise e s).wsizeWritten = s.wsizeWritten := rfl
@[simp] theorem raise_srcLen (e : ErrKind) : (raise e s).srcLen = s.srcLen := rfl
@[simp] theorem raise_srcLenWritten (e : ErrKind) : (raise e s).srcLenWritten = s.srcLenWritten := rfl
@[simp] theorem raise_dstLen (e : ErrKind) : (raise e s).dstLen = s.dstLen := rfl
@[simp] theorem raise_bits (e : ErrKind) : (raise e s).bits = s.bits := rfl
@[simp] theorem raise_tokens (e : ErrKind) : (raise e s).tokens = s.tokens := rfl
@[simp] theorem raise_ewsize (e : ErrKind) : (raise e s).ewsize = s.ewsize := rfl
@[simp] theorem raise_seq (e : ErrKind) : (raise e s).seq = .idle := rfl
@[simp] theorem raise_pos (e : ErrKind) : (raise e s).pos = s.posAtEnd := rfl
@[simp] theorem raise_bwAcc (e : ErrKind) : (raise e s).bwAcc = Config.freeByte s.draws := rfl
@[simp] theorem raise_bwN (e : ErrKind) : (raise e s).bwN = Config.freeBwN s.draws := rfl
@[simp] theorem raise_src (e : ErrKind) : (raise e s).src = s.src := rfl
@[simp] theorem raise_dst (e : ErrKind) : (raise e s).dst = s.dst := rfl
@[simp] theorem raise_hostq (e : ErrKind) : (raise e s).hostq = s.hostq := rfl
@[simp] theorem raise_hostData (e : ErrKind) : (raise e s).hostData = s.hostData := rfl
@[simp] theorem raise_seenLen (e : ErrKind) : (raise e s).seenLen = s.seenLen := rfl
@[simp] theorem raise_ret (e : ErrKind) : (raise e s).ret = s.ret := rfl
@[simp] theorem raise_draws (e : ErrKind) : (raise e s).draws = s.draws + 1 := rfl

/-! ### done (R239). -/

@[simp] theorem done_cfg : (done s).cfg = s.cfg := rfl
@[simp] theorem done_status : (done s).status = s.status.finish := rfl
@[simp] theorem done_wsize : (done s).wsize = s.wsize := rfl
@[simp] theorem done_wsizeWritten : (done s).wsizeWritten = s.wsizeWritten := rfl
@[simp] theorem done_srcLen : (done s).srcLen = s.srcLen := rfl
@[simp] theorem done_srcLenWritten : (done s).srcLenWritten = s.srcLenWritten := rfl
@[simp] theorem done_dstLen : (done s).dstLen = s.dstLen := rfl
@[simp] theorem done_bits : (done s).bits = s.bits := rfl
@[simp] theorem done_tokens : (done s).tokens = s.tokens := rfl
@[simp] theorem done_ewsize : (done s).ewsize = s.ewsize := rfl
@[simp] theorem done_seq : (done s).seq = .idle := rfl
@[simp] theorem done_pos : (done s).pos = s.posAtEnd := rfl
@[simp] theorem done_bwAcc : (done s).bwAcc = s.bwAcc := rfl
@[simp] theorem done_bwN : (done s).bwN = s.bwN := rfl
@[simp] theorem done_src : (done s).src = s.src := rfl
@[simp] theorem done_dst : (done s).dst = s.dst := rfl
@[simp] theorem done_hostq : (done s).hostq = s.hostq := rfl
@[simp] theorem done_hostData : (done s).hostData = s.hostData := rfl
@[simp] theorem done_seenLen : (done s).seenLen = s.seenLen := rfl
@[simp] theorem done_ret : (done s).ret = s.ret := rfl
@[simp] theorem done_draws : (done s).draws = s.draws + 1 := rfl

/-! ### BW_INIT (R100). -/

@[simp] theorem bwInit_cfg : (bwInit s).cfg = s.cfg := rfl
@[simp] theorem bwInit_status : (bwInit s).status = s.status := rfl
@[simp] theorem bwInit_wsize : (bwInit s).wsize = s.wsize := rfl
@[simp] theorem bwInit_wsizeWritten : (bwInit s).wsizeWritten = s.wsizeWritten := rfl
@[simp] theorem bwInit_srcLen : (bwInit s).srcLen = s.srcLen := rfl
@[simp] theorem bwInit_srcLenWritten : (bwInit s).srcLenWritten = s.srcLenWritten := rfl
@[simp] theorem bwInit_dstLen : (bwInit s).dstLen = 0 := rfl
@[simp] theorem bwInit_bits : (bwInit s).bits = 0 := rfl
@[simp] theorem bwInit_tokens : (bwInit s).tokens = s.tokens := rfl
@[simp] theorem bwInit_ewsize : (bwInit s).ewsize = s.ewsize := rfl
@[simp] theorem bwInit_seq : (bwInit s).seq = s.seq := rfl
@[simp] theorem bwInit_pos : (bwInit s).pos = s.pos := rfl
@[simp] theorem bwInit_bwAcc : (bwInit s).bwAcc = 0 := rfl
@[simp] theorem bwInit_bwN : (bwInit s).bwN = 0 := rfl
@[simp] theorem bwInit_src : (bwInit s).src = s.src := rfl
@[simp] theorem bwInit_dst : (bwInit s).dst = s.dst := rfl
@[simp] theorem bwInit_hostq : (bwInit s).hostq = s.hostq := rfl
@[simp] theorem bwInit_hostData : (bwInit s).hostData = s.hostData := rfl
@[simp] theorem bwInit_seenLen : (bwInit s).seenLen = s.seenLen := rfl
@[simp] theorem bwInit_ret : (bwInit s).ret = s.ret := rfl
@[simp] theorem bwInit_draws : (bwInit s).draws = s.draws := rfl

/-! ### BR_INIT (R105). -/

@[simp] theorem brInit_cfg : (brInit s).cfg = s.cfg := rfl
@[simp] theorem brInit_status : (brInit s).status = s.status := rfl
@[simp] theorem brInit_wsize : (brInit s).wsize = s.wsize := rfl
@[simp] theorem brInit_wsizeWritten : (brInit s).wsizeWritten = s.wsizeWritten := rfl
@[simp] theorem brInit_srcLen : (brInit s).srcLen = s.srcLen := rfl
@[simp] theorem brInit_srcLenWritten : (brInit s).srcLenWritten = s.srcLenWritten := rfl
@[simp] theorem brInit_dstLen : (brInit s).dstLen = s.dstLen := rfl
@[simp] theorem brInit_bits : (brInit s).bits = 0 := rfl
@[simp] theorem brInit_tokens : (brInit s).tokens = s.tokens := rfl
@[simp] theorem brInit_ewsize : (brInit s).ewsize = s.ewsize := rfl
@[simp] theorem brInit_seq : (brInit s).seq = s.seq := rfl
@[simp] theorem brInit_pos : (brInit s).pos = s.pos := rfl
@[simp] theorem brInit_bwAcc : (brInit s).bwAcc = s.bwAcc := rfl
@[simp] theorem brInit_bwN : (brInit s).bwN = s.bwN := rfl
@[simp] theorem brInit_src : (brInit s).src = s.src := rfl
@[simp] theorem brInit_dst : (brInit s).dst = s.dst := rfl
@[simp] theorem brInit_hostq : (brInit s).hostq = s.hostq := rfl
@[simp] theorem brInit_hostData : (brInit s).hostData = s.hostData := rfl
@[simp] theorem brInit_seenLen : (brInit s).seenLen = s.seenLen := rfl
@[simp] theorem brInit_ret : (brInit s).ret = s.ret := rfl
@[simp] theorem brInit_draws : (brInit s).draws = s.draws := rfl

/-! ### BW_WRITEBIT writes BW_ACC, BW_N, BITS, DST and DST_LEN only (R101). -/

@[simp] theorem bwWriteBit_cfg (b : Bool) : (bwWriteBit b s).cfg = s.cfg := by unfold bwWriteBit; split <;> rfl
@[simp] theorem bwWriteBit_status (b : Bool) : (bwWriteBit b s).status = s.status := by unfold bwWriteBit; split <;> rfl
@[simp] theorem bwWriteBit_wsize (b : Bool) : (bwWriteBit b s).wsize = s.wsize := by unfold bwWriteBit; split <;> rfl
@[simp] theorem bwWriteBit_wsizeWritten (b : Bool) : (bwWriteBit b s).wsizeWritten = s.wsizeWritten := by unfold bwWriteBit; split <;> rfl
@[simp] theorem bwWriteBit_srcLen (b : Bool) : (bwWriteBit b s).srcLen = s.srcLen := by unfold bwWriteBit; split <;> rfl
@[simp] theorem bwWriteBit_srcLenWritten (b : Bool) : (bwWriteBit b s).srcLenWritten = s.srcLenWritten := by unfold bwWriteBit; split <;> rfl
@[simp] theorem bwWriteBit_bits (b : Bool) : (bwWriteBit b s).bits = s.bits + 1 := by unfold bwWriteBit; split <;> rfl
@[simp] theorem bwWriteBit_tokens (b : Bool) : (bwWriteBit b s).tokens = s.tokens := by unfold bwWriteBit; split <;> rfl
@[simp] theorem bwWriteBit_ewsize (b : Bool) : (bwWriteBit b s).ewsize = s.ewsize := by unfold bwWriteBit; split <;> rfl
@[simp] theorem bwWriteBit_seq (b : Bool) : (bwWriteBit b s).seq = s.seq := by unfold bwWriteBit; split <;> rfl
@[simp] theorem bwWriteBit_pos (b : Bool) : (bwWriteBit b s).pos = s.pos := by unfold bwWriteBit; split <;> rfl
@[simp] theorem bwWriteBit_src (b : Bool) : (bwWriteBit b s).src = s.src := by unfold bwWriteBit; split <;> rfl
@[simp] theorem bwWriteBit_hostq (b : Bool) : (bwWriteBit b s).hostq = s.hostq := by unfold bwWriteBit; split <;> rfl
@[simp] theorem bwWriteBit_hostData (b : Bool) : (bwWriteBit b s).hostData = s.hostData := by unfold bwWriteBit; split <;> rfl
@[simp] theorem bwWriteBit_seenLen (b : Bool) : (bwWriteBit b s).seenLen = s.seenLen := by unfold bwWriteBit; split <;> rfl
@[simp] theorem bwWriteBit_ret (b : Bool) : (bwWriteBit b s).ret = s.ret := by unfold bwWriteBit; split <;> rfl
@[simp] theorem bwWriteBit_draws (b : Bool) : (bwWriteBit b s).draws = s.draws := by unfold bwWriteBit; split <;> rfl

/-! ### BW_WRITEBITS writes what BW_WRITEBIT does (R102). -/

@[simp] theorem bwWriteBits_cfg (v k : Nat) : (bwWriteBits v k s).cfg = s.cfg := by induction k generalizing s with | zero => rfl | succ k ih => simp [bwWriteBits, ih]
@[simp] theorem bwWriteBits_status (v k : Nat) : (bwWriteBits v k s).status = s.status := by induction k generalizing s with | zero => rfl | succ k ih => simp [bwWriteBits, ih]
@[simp] theorem bwWriteBits_wsize (v k : Nat) : (bwWriteBits v k s).wsize = s.wsize := by induction k generalizing s with | zero => rfl | succ k ih => simp [bwWriteBits, ih]
@[simp] theorem bwWriteBits_wsizeWritten (v k : Nat) : (bwWriteBits v k s).wsizeWritten = s.wsizeWritten := by induction k generalizing s with | zero => rfl | succ k ih => simp [bwWriteBits, ih]
@[simp] theorem bwWriteBits_srcLen (v k : Nat) : (bwWriteBits v k s).srcLen = s.srcLen := by induction k generalizing s with | zero => rfl | succ k ih => simp [bwWriteBits, ih]
@[simp] theorem bwWriteBits_srcLenWritten (v k : Nat) : (bwWriteBits v k s).srcLenWritten = s.srcLenWritten := by induction k generalizing s with | zero => rfl | succ k ih => simp [bwWriteBits, ih]
@[simp] theorem bwWriteBits_tokens (v k : Nat) : (bwWriteBits v k s).tokens = s.tokens := by induction k generalizing s with | zero => rfl | succ k ih => simp [bwWriteBits, ih]
@[simp] theorem bwWriteBits_ewsize (v k : Nat) : (bwWriteBits v k s).ewsize = s.ewsize := by induction k generalizing s with | zero => rfl | succ k ih => simp [bwWriteBits, ih]
@[simp] theorem bwWriteBits_seq (v k : Nat) : (bwWriteBits v k s).seq = s.seq := by induction k generalizing s with | zero => rfl | succ k ih => simp [bwWriteBits, ih]
@[simp] theorem bwWriteBits_pos (v k : Nat) : (bwWriteBits v k s).pos = s.pos := by induction k generalizing s with | zero => rfl | succ k ih => simp [bwWriteBits, ih]
@[simp] theorem bwWriteBits_src (v k : Nat) : (bwWriteBits v k s).src = s.src := by induction k generalizing s with | zero => rfl | succ k ih => simp [bwWriteBits, ih]
@[simp] theorem bwWriteBits_hostq (v k : Nat) : (bwWriteBits v k s).hostq = s.hostq := by induction k generalizing s with | zero => rfl | succ k ih => simp [bwWriteBits, ih]
@[simp] theorem bwWriteBits_hostData (v k : Nat) : (bwWriteBits v k s).hostData = s.hostData := by induction k generalizing s with | zero => rfl | succ k ih => simp [bwWriteBits, ih]
@[simp] theorem bwWriteBits_seenLen (v k : Nat) : (bwWriteBits v k s).seenLen = s.seenLen := by induction k generalizing s with | zero => rfl | succ k ih => simp [bwWriteBits, ih]
@[simp] theorem bwWriteBits_ret (v k : Nat) : (bwWriteBits v k s).ret = s.ret := by induction k generalizing s with | zero => rfl | succ k ih => simp [bwWriteBits, ih]
@[simp] theorem bwWriteBits_draws (v k : Nat) : (bwWriteBits v k s).draws = s.draws := by induction k generalizing s with | zero => rfl | succ k ih => simp [bwWriteBits, ih]

/-! ### BW_FLUSH leaves BITS: padding is not counted (R103). -/

@[simp] theorem bwFlush_cfg : (bwFlush s).cfg = s.cfg := by unfold bwFlush; split <;> rfl
@[simp] theorem bwFlush_status : (bwFlush s).status = s.status := by unfold bwFlush; split <;> rfl
@[simp] theorem bwFlush_wsize : (bwFlush s).wsize = s.wsize := by unfold bwFlush; split <;> rfl
@[simp] theorem bwFlush_wsizeWritten : (bwFlush s).wsizeWritten = s.wsizeWritten := by unfold bwFlush; split <;> rfl
@[simp] theorem bwFlush_srcLen : (bwFlush s).srcLen = s.srcLen := by unfold bwFlush; split <;> rfl
@[simp] theorem bwFlush_srcLenWritten : (bwFlush s).srcLenWritten = s.srcLenWritten := by unfold bwFlush; split <;> rfl
@[simp] theorem bwFlush_bits : (bwFlush s).bits = s.bits := by unfold bwFlush; split <;> rfl
@[simp] theorem bwFlush_tokens : (bwFlush s).tokens = s.tokens := by unfold bwFlush; split <;> rfl
@[simp] theorem bwFlush_ewsize : (bwFlush s).ewsize = s.ewsize := by unfold bwFlush; split <;> rfl
@[simp] theorem bwFlush_seq : (bwFlush s).seq = s.seq := by unfold bwFlush; split <;> rfl
@[simp] theorem bwFlush_pos : (bwFlush s).pos = s.pos := by unfold bwFlush; split <;> rfl
@[simp] theorem bwFlush_bwN : (bwFlush s).bwN = 0 := by
  unfold bwFlush; split
  · assumption
  · rfl
@[simp] theorem bwFlush_src : (bwFlush s).src = s.src := by unfold bwFlush; split <;> rfl
@[simp] theorem bwFlush_hostq : (bwFlush s).hostq = s.hostq := by unfold bwFlush; split <;> rfl
@[simp] theorem bwFlush_hostData : (bwFlush s).hostData = s.hostData := by unfold bwFlush; split <;> rfl
@[simp] theorem bwFlush_seenLen : (bwFlush s).seenLen = s.seenLen := by unfold bwFlush; split <;> rfl
@[simp] theorem bwFlush_ret : (bwFlush s).ret = s.ret := by unfold bwFlush; split <;> rfl
@[simp] theorem bwFlush_draws : (bwFlush s).draws = s.draws := by unfold bwFlush; split <;> rfl

/-! ### ENC_EMIT_COPY (R152). -/

@[simp] theorem emitCopy_cfg (d len : Nat) : (emitCopy d len s).cfg = s.cfg := by simp [emitCopy]
@[simp] theorem emitCopy_status (d len : Nat) : (emitCopy d len s).status = s.status := by simp [emitCopy]
@[simp] theorem emitCopy_wsize (d len : Nat) : (emitCopy d len s).wsize = s.wsize := by simp [emitCopy]
@[simp] theorem emitCopy_wsizeWritten (d len : Nat) : (emitCopy d len s).wsizeWritten = s.wsizeWritten := by simp [emitCopy]
@[simp] theorem emitCopy_srcLen (d len : Nat) : (emitCopy d len s).srcLen = s.srcLen := by simp [emitCopy]
@[simp] theorem emitCopy_srcLenWritten (d len : Nat) : (emitCopy d len s).srcLenWritten = s.srcLenWritten := by simp [emitCopy]
@[simp] theorem emitCopy_tokens (d len : Nat) : (emitCopy d len s).tokens = s.tokens + 1 := by simp [emitCopy]
@[simp] theorem emitCopy_ewsize (d len : Nat) : (emitCopy d len s).ewsize = s.ewsize := by simp [emitCopy]
@[simp] theorem emitCopy_seq (d len : Nat) : (emitCopy d len s).seq = s.seq := by simp [emitCopy]
@[simp] theorem emitCopy_pos (d len : Nat) : (emitCopy d len s).pos = s.pos + len := by simp [emitCopy]
@[simp] theorem emitCopy_src (d len : Nat) : (emitCopy d len s).src = s.src := by simp [emitCopy]
@[simp] theorem emitCopy_hostq (d len : Nat) : (emitCopy d len s).hostq = s.hostq := by simp [emitCopy]
@[simp] theorem emitCopy_hostData (d len : Nat) : (emitCopy d len s).hostData = s.hostData := by simp [emitCopy]
@[simp] theorem emitCopy_seenLen (d len : Nat) : (emitCopy d len s).seenLen = s.seenLen := by simp [emitCopy]
@[simp] theorem emitCopy_ret (d len : Nat) : (emitCopy d len s).ret = s.ret := by simp [emitCopy]
@[simp] theorem emitCopy_draws (d len : Nat) : (emitCopy d len s).draws = s.draws := by simp [emitCopy]

/-! ### ENC_EMIT_LIT (R153). -/

@[simp] theorem emitLit_cfg (b : Byte) : (emitLit b s).cfg = s.cfg := by simp [emitLit]
@[simp] theorem emitLit_status (b : Byte) : (emitLit b s).status = s.status := by simp [emitLit]
@[simp] theorem emitLit_wsize (b : Byte) : (emitLit b s).wsize = s.wsize := by simp [emitLit]
@[simp] theorem emitLit_wsizeWritten (b : Byte) : (emitLit b s).wsizeWritten = s.wsizeWritten := by simp [emitLit]
@[simp] theorem emitLit_srcLen (b : Byte) : (emitLit b s).srcLen = s.srcLen := by simp [emitLit]
@[simp] theorem emitLit_srcLenWritten (b : Byte) : (emitLit b s).srcLenWritten = s.srcLenWritten := by simp [emitLit]
@[simp] theorem emitLit_tokens (b : Byte) : (emitLit b s).tokens = s.tokens + 1 := by simp [emitLit]
@[simp] theorem emitLit_ewsize (b : Byte) : (emitLit b s).ewsize = s.ewsize := by simp [emitLit]
@[simp] theorem emitLit_seq (b : Byte) : (emitLit b s).seq = s.seq := by simp [emitLit]
@[simp] theorem emitLit_pos (b : Byte) : (emitLit b s).pos = s.pos + 1 := by simp [emitLit]
@[simp] theorem emitLit_src (b : Byte) : (emitLit b s).src = s.src := by simp [emitLit]
@[simp] theorem emitLit_hostq (b : Byte) : (emitLit b s).hostq = s.hostq := by simp [emitLit]
@[simp] theorem emitLit_hostData (b : Byte) : (emitLit b s).hostData = s.hostData := by simp [emitLit]
@[simp] theorem emitLit_seenLen (b : Byte) : (emitLit b s).seenLen = s.seenLen := by simp [emitLit]
@[simp] theorem emitLit_ret (b : Byte) : (emitLit b s).ret = s.ret := by simp [emitLit]
@[simp] theorem emitLit_draws (b : Byte) : (emitLit b s).draws = s.draws := by simp [emitLit]

/-! ### COPY_REPLAY writes DST and DST_LEN only (R174). -/

@[simp] theorem replay_cfg (d k : Nat) : (replay d k s).cfg = s.cfg := by induction k generalizing s with | zero => rfl | succ k ih => simp [replay, ih]
@[simp] theorem replay_status (d k : Nat) : (replay d k s).status = s.status := by induction k generalizing s with | zero => rfl | succ k ih => simp [replay, ih]
@[simp] theorem replay_wsize (d k : Nat) : (replay d k s).wsize = s.wsize := by induction k generalizing s with | zero => rfl | succ k ih => simp [replay, ih]
@[simp] theorem replay_wsizeWritten (d k : Nat) : (replay d k s).wsizeWritten = s.wsizeWritten := by induction k generalizing s with | zero => rfl | succ k ih => simp [replay, ih]
@[simp] theorem replay_srcLen (d k : Nat) : (replay d k s).srcLen = s.srcLen := by induction k generalizing s with | zero => rfl | succ k ih => simp [replay, ih]
@[simp] theorem replay_srcLenWritten (d k : Nat) : (replay d k s).srcLenWritten = s.srcLenWritten := by induction k generalizing s with | zero => rfl | succ k ih => simp [replay, ih]
@[simp] theorem replay_bits (d k : Nat) : (replay d k s).bits = s.bits := by induction k generalizing s with | zero => rfl | succ k ih => simp [replay, ih]
@[simp] theorem replay_tokens (d k : Nat) : (replay d k s).tokens = s.tokens := by induction k generalizing s with | zero => rfl | succ k ih => simp [replay, ih]
@[simp] theorem replay_ewsize (d k : Nat) : (replay d k s).ewsize = s.ewsize := by induction k generalizing s with | zero => rfl | succ k ih => simp [replay, ih]
@[simp] theorem replay_seq (d k : Nat) : (replay d k s).seq = s.seq := by induction k generalizing s with | zero => rfl | succ k ih => simp [replay, ih]
@[simp] theorem replay_pos (d k : Nat) : (replay d k s).pos = s.pos := by induction k generalizing s with | zero => rfl | succ k ih => simp [replay, ih]
@[simp] theorem replay_bwAcc (d k : Nat) : (replay d k s).bwAcc = s.bwAcc := by induction k generalizing s with | zero => rfl | succ k ih => simp [replay, ih]
@[simp] theorem replay_bwN (d k : Nat) : (replay d k s).bwN = s.bwN := by induction k generalizing s with | zero => rfl | succ k ih => simp [replay, ih]
@[simp] theorem replay_src (d k : Nat) : (replay d k s).src = s.src := by induction k generalizing s with | zero => rfl | succ k ih => simp [replay, ih]
@[simp] theorem replay_hostq (d k : Nat) : (replay d k s).hostq = s.hostq := by induction k generalizing s with | zero => rfl | succ k ih => simp [replay, ih]
@[simp] theorem replay_hostData (d k : Nat) : (replay d k s).hostData = s.hostData := by induction k generalizing s with | zero => rfl | succ k ih => simp [replay, ih]
@[simp] theorem replay_seenLen (d k : Nat) : (replay d k s).seenLen = s.seenLen := by induction k generalizing s with | zero => rfl | succ k ih => simp [replay, ih]
@[simp] theorem replay_ret (d k : Nat) : (replay d k s).ret = s.ret := by induction k generalizing s with | zero => rfl | succ k ih => simp [replay, ih]
@[simp] theorem replay_draws (d k : Nat) : (replay d k s).draws = s.draws := by induction k generalizing s with | zero => rfl | succ k ih => simp [replay, ih]

/-! ### LIT (R172). -/

@[simp] theorem litEffect_cfg (b : Byte) : (litEffect b s).cfg = s.cfg := rfl
@[simp] theorem litEffect_status (b : Byte) : (litEffect b s).status = s.status := rfl
@[simp] theorem litEffect_wsize (b : Byte) : (litEffect b s).wsize = s.wsize := rfl
@[simp] theorem litEffect_wsizeWritten (b : Byte) : (litEffect b s).wsizeWritten = s.wsizeWritten := rfl
@[simp] theorem litEffect_srcLen (b : Byte) : (litEffect b s).srcLen = s.srcLen := rfl
@[simp] theorem litEffect_srcLenWritten (b : Byte) : (litEffect b s).srcLenWritten = s.srcLenWritten := rfl
@[simp] theorem litEffect_dstLen (b : Byte) : (litEffect b s).dstLen = s.dstLen + 1 := rfl
@[simp] theorem litEffect_bits (b : Byte) : (litEffect b s).bits = s.bits + 9 := rfl
@[simp] theorem litEffect_tokens (b : Byte) : (litEffect b s).tokens = s.tokens + 1 := rfl
@[simp] theorem litEffect_ewsize (b : Byte) : (litEffect b s).ewsize = s.ewsize := rfl
@[simp] theorem litEffect_seq (b : Byte) : (litEffect b s).seq = s.seq := rfl
@[simp] theorem litEffect_pos (b : Byte) : (litEffect b s).pos = s.pos := rfl
@[simp] theorem litEffect_bwAcc (b : Byte) : (litEffect b s).bwAcc = s.bwAcc := rfl
@[simp] theorem litEffect_bwN (b : Byte) : (litEffect b s).bwN = s.bwN := rfl
@[simp] theorem litEffect_src (b : Byte) : (litEffect b s).src = s.src := rfl
@[simp] theorem litEffect_dst (b : Byte) : (litEffect b s).dst = Memory.write s.dst s.dstLen.toNat b := rfl
@[simp] theorem litEffect_hostq (b : Byte) : (litEffect b s).hostq = s.hostq := rfl
@[simp] theorem litEffect_hostData (b : Byte) : (litEffect b s).hostData = s.hostData := rfl
@[simp] theorem litEffect_seenLen (b : Byte) : (litEffect b s).seenLen = s.seenLen := rfl
@[simp] theorem litEffect_ret (b : Byte) : (litEffect b s).ret = s.ret := rfl
@[simp] theorem litEffect_draws (b : Byte) : (litEffect b s).draws = s.draws := rfl

/-! ### COPY (R173). -/

@[simp] theorem copyEffect_cfg (d k : Nat) : (copyEffect d k s).cfg = s.cfg := by simp [copyEffect]
@[simp] theorem copyEffect_status (d k : Nat) : (copyEffect d k s).status = s.status := by simp [copyEffect]
@[simp] theorem copyEffect_wsize (d k : Nat) : (copyEffect d k s).wsize = s.wsize := by simp [copyEffect]
@[simp] theorem copyEffect_wsizeWritten (d k : Nat) : (copyEffect d k s).wsizeWritten = s.wsizeWritten := by simp [copyEffect]
@[simp] theorem copyEffect_srcLen (d k : Nat) : (copyEffect d k s).srcLen = s.srcLen := by simp [copyEffect]
@[simp] theorem copyEffect_srcLenWritten (d k : Nat) : (copyEffect d k s).srcLenWritten = s.srcLenWritten := by simp [copyEffect]
@[simp] theorem copyEffect_dstLen (d k : Nat) : (copyEffect d k s).dstLen = (replay d k s).dstLen := by simp [copyEffect]
@[simp] theorem copyEffect_bits (d k : Nat) : (copyEffect d k s).bits = s.bits + 17 := by simp [copyEffect]
@[simp] theorem copyEffect_tokens (d k : Nat) : (copyEffect d k s).tokens = s.tokens + 1 := by simp [copyEffect]
@[simp] theorem copyEffect_ewsize (d k : Nat) : (copyEffect d k s).ewsize = s.ewsize := by simp [copyEffect]
@[simp] theorem copyEffect_seq (d k : Nat) : (copyEffect d k s).seq = s.seq := by simp [copyEffect]
@[simp] theorem copyEffect_pos (d k : Nat) : (copyEffect d k s).pos = s.pos := by simp [copyEffect]
@[simp] theorem copyEffect_bwAcc (d k : Nat) : (copyEffect d k s).bwAcc = s.bwAcc := by simp [copyEffect]
@[simp] theorem copyEffect_bwN (d k : Nat) : (copyEffect d k s).bwN = s.bwN := by simp [copyEffect]
@[simp] theorem copyEffect_src (d k : Nat) : (copyEffect d k s).src = s.src := by simp [copyEffect]
@[simp] theorem copyEffect_dst (d k : Nat) : (copyEffect d k s).dst = (replay d k s).dst := by simp [copyEffect]
@[simp] theorem copyEffect_hostq (d k : Nat) : (copyEffect d k s).hostq = s.hostq := by simp [copyEffect]
@[simp] theorem copyEffect_hostData (d k : Nat) : (copyEffect d k s).hostData = s.hostData := by simp [copyEffect]
@[simp] theorem copyEffect_seenLen (d k : Nat) : (copyEffect d k s).seenLen = s.seenLen := by simp [copyEffect]
@[simp] theorem copyEffect_ret (d k : Nat) : (copyEffect d k s).ret = s.ret := by simp [copyEffect]
@[simp] theorem copyEffect_draws (d k : Nat) : (copyEffect d k s).draws = s.draws := by simp [copyEffect]

end Sys2Proof.Machine
end

