-- ==== Sys2Proof/Laws/Writer.lean ====
section
/-! SUPPORT. The bit writer (40_bit_channel.md R100 to R104): what one bit, a list of bits, a field and the flush do to
the stream, to BITS and to DST. -/

namespace Sys2Proof.Machine

/-- Reading DST after an append. -/
theorem dstByte_append (v : Byte) (s : State) (k : Nat) :
    (append v s).dstByte k = if k = s.dstLen.toNat then v else s.dstByte k := by
  simp only [State.dstByte, append, Memory.read_write]
  split <;> simp

/-- DST_LEN after an append that fits. -/
theorem append_dstLen_toNat (v : Byte) {s : State} (h : s.dstLen.toNat < s.cfg.dstCap.toNat) :
    (append v s).dstLen.toNat = s.dstLen.toNat + 1 := by
  have := s.cfg.dstCap.isLt
  simp only [append_dstLen, BitVec.toNat_add]
  simp
  omega

/-- A bit of BW_ACC after bit `b` was put in: position `7 - BW_N` gains it. -/
theorem accWith_getLsbD (acc : Byte) (n : BitVec 3) (b : Bool) (i : Nat) :
    (accWith acc n b).getLsbD i = (acc.getLsbD i || (decide (i = 7 - n.toNat) && b)) := by
  have hn := n.isLt
  by_cases hi : i < 8
  · simp only [accWith, BitVec.getLsbD_or, BitVec.getLsbD_shiftLeft, BitVec.getLsbD_ofNat, hi, decide_true,
      Bool.true_and]
    congr 1
    cases b
    · simp
    · by_cases h : i = 7 - n.toNat
      · subst h; simp
      · by_cases h' : i < 7 - n.toNat
        · simp [h, h']
        · have : ∃ m, i - (7 - n.toNat) = m + 1 := ⟨i - (7 - n.toNat) - 1, by omega⟩
          obtain ⟨m, hm⟩ := this
          simp [h, hm, Nat.testBit_succ]
  · rw [BitVec.getLsbD_of_ge _ _ (by omega), BitVec.getLsbD_of_ge _ _ (by omega)]
    simp
    omega

/-- What writing bits keeps and gives: `t` is `s` with the bits `l` appended to its stream. -/
structure Wrote (s t : State) (l : List Bool) : Prop where
  ok : t.WriterOk
  same : SameButWriter s t
  bits : t.bits.toNat = s.bits.toNat + l.length
  old : ∀ k < s.bits.toNat, t.writerBit k = s.writerBit k
  new : ∀ j < l.length, t.writerBit (s.bits.toNat + j) = l.getD j false
  room : t.dstLen.toNat ≤ s.cfg.dstCap.toNat
  mono : s.dstLen.toNat ≤ t.dstLen.toNat
  frame : ∀ a, a < s.dstLen.toNat ∨ t.dstLen.toNat ≤ a → Memory.read t.dst a = Memory.read s.dst a
  wf : Memory.wf s.dst → Memory.wf t.dst
  below : (∀ x ∈ s.dst, x.1 < s.cfg.dstCap.toNat) → ∀ x ∈ t.dst, x.1 < s.cfg.dstCap.toNat
  written : Memory.writtenBelow s.dst s.dstLen.toNat = true → Memory.writtenBelow t.dst t.dstLen.toNat = true

theorem SameButWriter.refl (s : State) : SameButWriter s s := rfl

theorem SameButWriter.trans {s t u : State} (h : SameButWriter s t) (h' : SameButWriter t u) : SameButWriter s u := by
  unfold SameButWriter at *
  rw [h] at h'
  exact h'

theorem SameButWriter.cfg {s t : State} (h : SameButWriter s t) : t.cfg = s.cfg := by
  unfold SameButWriter at h
  rw [h]

theorem Wrote.nil {s : State} (h : s.WriterOk) (hr : s.dstLen.toNat ≤ s.cfg.dstCap.toNat) : Wrote s s [] where
  ok := h
  same := .refl s
  bits := rfl
  old _ _ := rfl
  new _ h := absurd h (Nat.not_lt_zero _)
  room := hr
  mono := Nat.le_refl _
  frame _ _ := rfl
  wf := id
  below := id
  written := id

theorem Wrote.trans {s t u : State} {l l' : List Bool} (h : Wrote s t l) (h' : Wrote t u l') :
    Wrote s u (l ++ l') where
  ok := h'.ok
  same := h.same.trans h'.same
  bits := by rw [h'.bits, h.bits, List.length_append]; omega
  old k hk := by rw [h'.old k (by rw [h.bits]; omega), h.old k hk]
  new j hj := by
    rw [List.length_append] at hj
    by_cases hl : j < l.length
    · rw [h'.old _ (by rw [h.bits]; omega), h.new j hl]
      simp [List.getElem?_append, hl]
    · have := h'.new (j - l.length) (by omega)
      rw [h.bits, show s.bits.toNat + l.length + (j - l.length) = s.bits.toNat + j by omega] at this
      rw [this]
      simp [List.getElem?_append, hl]
  room := by rw [← h.same.cfg]; exact h'.room
  mono := Nat.le_trans h.mono h'.mono
  frame a ha := by
    have := h.mono
    have := h'.mono
    rw [h'.frame a (by omega), h.frame a (by omega)]
  wf := h'.wf ∘ h.wf
  below := by
    intro hb
    have := h'.below
    rw [h.same.cfg] at this
    exact this (h.below hb)
  written := h'.written ∘ h.written

/-- BW_WRITEBIT, where DST has room for the byte it completes (R101). -/
theorem Wrote.bit (b : Bool) {s : State} (h : s.WriterOk)
    (hr : s.dstLen.toNat + (s.bwN.toNat + 1) / 8 ≤ s.cfg.dstCap.toNat) : Wrote s (bwWriteBit b s) [b] := by
  obtain ⟨hb, hz⟩ := h
  have hcap := s.cfg.dstCap.isLt
  have hn := s.bwN.isLt
  have hbits : (s.bits + 1).toNat = s.bits.toNat + 1 := by
    rw [BitVec.toNat_add]; simp; omega
  unfold bwWriteBit
  split
  · rename_i h7
    have h7' : s.bwN.toNat = 7 := by rw [h7]; rfl
    have hd : s.dstLen.toNat + 1 ≤ s.cfg.dstCap.toNat := by omega
    have hlen : (s.dstLen + 1).toNat = s.dstLen.toNat + 1 := by
      rw [BitVec.toNat_add]; simp; omega
    have hwb : ∀ k < 8 * s.dstLen.toNat + 8,
        Sys2Proof.streamBit (State.dstByte
          (clearWriter (append (accWith s.bwAcc s.bwN b) { s with bits := s.bits + 1 }))) k =
          if k < 8 * s.dstLen.toNat then Sys2Proof.streamBit s.dstByte k
          else (accWith s.bwAcc s.bwN b).getLsbD (7 - (k - 8 * s.dstLen.toNat)) := by
      intro k hk
      simp only [Sys2Proof.streamBit, State.dstByte, clearWriter_dst, clearWriter_draws, append_dst, append_draws, Memory.read_write]
      split
      · rw [if_neg (by omega)]; simp only [Option.getD_some]; congr 1; omega
      · rw [if_pos (by omega)]
    have hL : (clearWriter (append (accWith s.bwAcc s.bwN b) { s with bits := s.bits + 1 })).dstLen.toNat =
        s.dstLen.toNat + 1 := hlen
    refine ⟨⟨?_, ?_⟩, rfl, hbits, ?_, ?_, ?_, ?_, ?_, ?_, ?_, ?_⟩
    · show (s.bits + 1).toNat = 8 * (s.dstLen + 1).toNat + 0
      omega
    · intro j _; simp
    · intro k hk
      simp only [State.writerBit, hL]
      rw [if_pos (by omega), hwb k (by omega)]
      split
      · rfl
      · rw [accWith_getLsbD]; simp; omega
    · intro j hj
      have : j = 0 := by simpa using hj
      subst this
      simp only [State.writerBit, hL]
      rw [if_pos (by omega), hwb _ (by omega), if_neg (by omega), accWith_getLsbD, hz _ (by omega)]
      simp
      omega
    · rw [hL]; exact hd
    · rw [hL]; omega
    · intro a ha
      rw [hL] at ha
      exact Memory.read_write_other _ _ (by show a ≠ s.dstLen.toNat; omega)
    · intro hw; exact Memory.wf_write hw _ _
    · intro hw; exact Memory.below_write hw (by show s.dstLen.toNat < _; omega) _
    · intro hw
      rw [hL]
      exact Memory.writtenBelow_append hw _
  · rename_i h7
    have h7' : s.bwN.toNat ≠ 7 := fun e => h7 (BitVec.eq_of_toNat_eq e)
    have hn1 : (s.bwN + 1).toNat = s.bwN.toNat + 1 := by
      rw [BitVec.toNat_add]; simp; omega
    refine ⟨⟨?_, ?_⟩, rfl, by simpa using hbits, ?_, ?_, by simp; omega, by simp, fun _ _ => rfl, id, id, id⟩
    · show (s.bits + 1).toNat = 8 * s.dstLen.toNat + (s.bwN + 1).toNat
      omega
    · intro j hj
      simp only [hn1] at hj
      rw [accWith_getLsbD, hz j (by omega)]
      simp; omega
    · intro k hk
      simp only [State.writerBit]
      split
      · rfl
      · rw [accWith_getLsbD]; simp; omega
    · intro j hj
      have : j = 0 := by simpa using hj
      subst this
      simp only [State.writerBit]
      rw [if_neg (by omega), accWith_getLsbD, hz _ (by omega)]
      simp; omega

/-- Writing a list of bits, first bit first. -/
theorem Wrote.list (l : List Bool) {s : State} (h : s.WriterOk) (hd : s.dstLen.toNat ≤ s.cfg.dstCap.toNat)
    (hr : s.dstLen.toNat + (s.bwN.toNat + l.length) / 8 ≤ s.cfg.dstCap.toNat) :
    Wrote s (l.foldl (fun u b => bwWriteBit b u) s) l := by
  induction l generalizing s with
  | nil => exact .nil h hd
  | cons b l ih =>
    rw [List.length_cons] at hr
    have h1 := Wrote.bit b h (by omega)
    have hn := h1.ok.1
    have hb := h1.bits
    have hs := h.1
    have hlt := (bwWriteBit b s).bwN.isLt
    have hlt' := s.bwN.isLt
    simp only [List.length_cons, List.length_nil] at hb
    have h2 := ih h1.ok (by rw [h1.same.cfg]; exact h1.room) (by rw [h1.same.cfg]; omega)
    exact h1.trans h2

/-- BW_WRITEBITS writes the bits of its field, most significant first (R102). -/
theorem bwWriteBits_eq_foldl (v k : Nat) (s : State) :
    bwWriteBits v k s = (bitsMsb v k).foldl (fun u b => bwWriteBit b u) s := by
  induction k generalizing s with
  | zero => rfl
  | succ k ih => simp [bwWriteBits, bitsMsb, ih]

/-- The writer's work of ENC_EMIT_COPY is the bits of its token (R152). -/
theorem emitCopy_eq (d : BitVec 12) (len : BitVec 4) (s : State) :
    emitCopy d.toNat len.toNat s =
      tokenEmitted len.toNat ((encodeToken (.copy d len)).foldl (fun u b => bwWriteBit b u) s) := by
  simp only [emitCopy, encodeToken, List.foldl_cons, List.foldl_append, bwWriteBits_eq_foldl]

/-- The writer's work of ENC_EMIT_LIT is the bits of its token (R153). -/
theorem emitLit_eq (b : Byte) (s : State) :
    emitLit b s = tokenEmitted 1 ((encodeToken (.lit b)).foldl (fun u b => bwWriteBit b u) s) := by
  simp only [emitLit, encodeToken, List.foldl_cons, bwWriteBits_eq_foldl]

/-- ENC_EMIT_COPY with a distance and a length that fit their fields (R138, R152). -/
theorem emitCopy_eq_of_lt {d len : Nat} (hd : d < 4096) (hl : len < 16) (s : State) :
    emitCopy d len s = tokenEmitted len
      ((encodeToken (.copy (BitVec.ofNat 12 d) (BitVec.ofNat 4 len))).foldl (fun u b => bwWriteBit b u) s) := by
  have e := emitCopy_eq (BitVec.ofNat 12 d) (BitVec.ofNat 4 len) s
  have hd : (BitVec.ofNat 12 d).toNat = d := by simp; omega
  have hl : (BitVec.ofNat 4 len).toNat = len := by simp; omega
  rwa [hd, hl] at e

/-- What an emission of the bits `l` and of `len` input bytes keeps and gives (R152, R153). -/
theorem Wrote.emitted {s t : State} {l : List Bool} (len : Nat) (h : Wrote s t l) :
    SameButWriter { s with pos := s.pos + len, tokens := s.tokens + 1 } (tokenEmitted len t) ∧
    (tokenEmitted len t).WriterOk ∧ (tokenEmitted len t).bits.toNat = s.bits.toNat + l.length ∧
    (∀ k < s.bits.toNat, (tokenEmitted len t).writerBit k = s.writerBit k) ∧
    (∀ j < l.length, (tokenEmitted len t).writerBit (s.bits.toNat + j) = l.getD j false) ∧
    ∀ a, a < s.dstLen.toNat ∨ (tokenEmitted len t).dstLen.toNat ≤ a →
      Memory.read (tokenEmitted len t).dst a = Memory.read s.dst a := by
  refine ⟨?_, h.ok, h.bits, h.old, h.new, h.frame⟩
  have := h.same
  unfold SameButWriter at *
  rw [this]
  rfl

/-- ENC_CAPCHECK passing leaves room for every byte the token completes and for the flush (R154). -/
theorem State.WriterOk.room {s : State} (h : s.WriterOk) {w : Nat} (hc : ceil8 (s.bits.toNat + w) ≤ s.cfg.dstCap.toNat) :
    s.dstLen.toNat + (s.bwN.toNat + w) / 8 ≤ s.cfg.dstCap.toNat ∧ s.dstLen.toNat ≤ s.cfg.dstCap.toNat := by
  have := h.1
  simp only [ceil8] at hc
  omega

/-- DST_LEN counts the complete bytes of BITS (R34). -/
theorem State.WriterOk.dstLen {s : State} (h : s.WriterOk) : s.dstLen.toNat = s.bits.toNat / 8 := by
  have := h.1
  have := s.bwN.isLt
  omega

/-- BW_FLUSH, where DST has room for its byte: BITS stays, DST_LEN becomes `ceil8` of it, the stream in DST is the
writer's stream and then zeros (R103, R104). -/
theorem bwFlush_spec {s : State} (h : s.WriterOk) (hc : ceil8 s.bits.toNat ≤ s.cfg.dstCap.toNat) :
    (bwFlush s).dstLen.toNat = ceil8 s.bits.toNat ∧
    (∀ k < s.bits.toNat, Sys2Proof.streamBit (bwFlush s).dstByte k = s.writerBit k) ∧
    (∀ k, s.bits.toNat ≤ k → k < 8 * ceil8 s.bits.toNat → Sys2Proof.streamBit (bwFlush s).dstByte k = false) ∧
    (∀ a, a < s.dstLen.toNat ∨ (bwFlush s).dstLen.toNat ≤ a →
      Memory.read (bwFlush s).dst a = Memory.read s.dst a) ∧
    (Memory.wf s.dst → Memory.wf (bwFlush s).dst) ∧
    ((∀ x ∈ s.dst, x.1 < s.cfg.dstCap.toNat) → ∀ x ∈ (bwFlush s).dst, x.1 < s.cfg.dstCap.toNat) ∧
    (Memory.writtenBelow s.dst s.dstLen.toNat = true →
      Memory.writtenBelow (bwFlush s).dst (bwFlush s).dstLen.toNat = true) := by
  obtain ⟨hb, hz⟩ := h
  have hn := s.bwN.isLt
  have hcap := s.cfg.dstCap.isLt
  simp only [ceil8] at hc ⊢
  unfold bwFlush
  split
  · rename_i h0
    have h0' : s.bwN.toNat = 0 := by rw [h0]; rfl
    refine ⟨by omega, fun k hk => ?_, fun k _ _ => by omega, fun _ _ => rfl, id, id, id⟩
    simp only [State.writerBit]
    rw [if_pos (by omega)]
  · rename_i h0
    have h0' : s.bwN.toNat ≠ 0 := fun e => h0 (BitVec.eq_of_toNat_eq e)
    have hlen : (s.dstLen + 1).toNat = s.dstLen.toNat + 1 := by
      rw [BitVec.toNat_add]; simp; omega
    have hwb : ∀ k < 8 * s.dstLen.toNat + 8,
        Sys2Proof.streamBit (clearWriter (append s.bwAcc s)).dstByte k =
          if k < 8 * s.dstLen.toNat then Sys2Proof.streamBit s.dstByte k
          else s.bwAcc.getLsbD (7 - (k - 8 * s.dstLen.toNat)) := by
      intro k hk
      simp only [Sys2Proof.streamBit, State.dstByte, clearWriter_dst, clearWriter_draws, append_dst, append_draws, Memory.read_write]
      split
      · rw [if_neg (by omega)]; simp only [Option.getD_some]; congr 1; omega
      · rw [if_pos (by omega)]
    have hL : (clearWriter (append s.bwAcc s)).dstLen.toNat = s.dstLen.toNat + 1 := hlen
    refine ⟨by rw [hL]; omega, fun k hk => ?_, fun k h1 h2 => ?_, fun a ha => ?_, fun hw => Memory.wf_write hw _ _,
      fun hw => Memory.below_write hw (by omega) _, fun hw => ?_⟩
    · rw [hwb k (by omega)]; rfl
    · rw [hwb k (by omega), if_neg (by omega)]
      exact hz _ (by omega)
    · rw [hL] at ha
      exact Memory.read_write_other _ _ (by omega)
    · rw [hL]
      exact Memory.writtenBelow_append hw _

end Sys2Proof.Machine
end

