-- ==== Sys2Proof/Laws/Replay.lean ====
section
/-! SUPPORT. COPY_REPLAY (43_decoder.md R174, 20_memory.md R62 to R64): what the byte-by-byte replay leaves in DST. -/

namespace Sys2Proof.Machine

/-- What a replay of `len` bytes from `d` back does to DST and DST_LEN. -/
structure Replayed (d len : Nat) (s t : State) : Prop where
  dstLen : t.dstLen.toNat = s.dstLen.toNat + len
  new : ∀ j < len, t.dstByte (s.dstLen.toNat + j) = s.dstByte (s.dstLen.toNat - d + j % d)
  listed : ∀ j < len, Memory.read t.dst (s.dstLen.toNat + j) = some (t.dstByte (s.dstLen.toNat + j))
  frame : ∀ a, a < s.dstLen.toNat ∨ t.dstLen.toNat ≤ a → Memory.read t.dst a = Memory.read s.dst a
  wf : Memory.wf s.dst → Memory.wf t.dst
  below : (∀ x ∈ s.dst, x.1 < s.cfg.dstCap.toNat) → ∀ x ∈ t.dst, x.1 < s.cfg.dstCap.toNat
  written : Memory.writtenBelow s.dst s.dstLen.toNat = true → Memory.writtenBelow t.dst t.dstLen.toNat = true

/-- A replay writes DST and DST_LEN only. -/
theorem replay_same (d k : Nat) (s : State) :
    replay d k s = { s with dst := (replay d k s).dst, dstLen := (replay d k s).dstLen } := by
  induction k generalizing s with
  | zero => rfl
  | succ k ih =>
    simp only [replay]
    rw [ih]
    simp

/-- The remainder that steps through the source span. -/
theorem succ_mod_cases (j : Nat) {d : Nat} (hd : 0 < d) :
    (j % d + 1 = d ∧ (j + 1) % d = 0) ∨ (j % d + 1 < d ∧ (j + 1) % d = j % d + 1) := by
  have hlt := Nat.mod_lt j hd
  rcases Nat.lt_or_ge (j % d + 1) d with h | h
  · refine .inr ⟨h, ?_⟩
    rw [Nat.add_mod, Nat.mod_eq_of_lt (show 1 < d by omega), Nat.mod_eq_of_lt h]
  · refine .inl ⟨by omega, ?_⟩
    have h1 : j % d + 1 = d := by omega
    have h2 := Nat.div_add_mod j d
    have : j + 1 = d * (j / d + 1) := by rw [Nat.mul_add, Nat.mul_one]; omega
    rw [this, Nat.mul_mod_right]

theorem replayed (d len : Nat) {s : State} (hd : 0 < len → 1 ≤ d ∧ d ≤ s.dstLen.toNat)
    (hr : s.dstLen.toNat + len ≤ s.cfg.dstCap.toNat) : Replayed d len s (replay d len s) := by
  induction len generalizing s with
  | zero =>
    exact ⟨rfl, fun _ h => absurd h (Nat.not_lt_zero _), fun _ h => absurd h (Nat.not_lt_zero _), fun _ _ => rfl,
      id, id, id⟩
  | succ k ih =>
    obtain ⟨hd1, hd2⟩ := hd (Nat.succ_pos k)
    let v := outRead s (s.dstLen.toNat - d)
    have hlen : (append v s).dstLen.toNat = s.dstLen.toNat + 1 := append_dstLen_toNat v (by omega)
    have h := ih (s := append v s) (fun _ => ⟨hd1, by omega⟩) (by rw [hlen, append_cfg]; omega)
    have e : replay d (k + 1) s = replay d k (append v s) := rfl
    rw [e]
    have hL := h.dstLen
    rw [hlen] at hL
    have hfirst : Memory.read (replay d k (append v s)).dst s.dstLen.toNat = some v := by
      rw [h.frame _ (by omega)]; simp
    refine ⟨by omega, fun j hj => ?_, fun j hj => ?_, fun a ha => ?_, fun hw => h.wf (Memory.wf_write hw _ _),
      fun hw => ?_, fun hw => h.written ?_⟩
    · cases j with
      | zero => simp [State.dstByte, hfirst]; rfl
      | succ j =>
        have hn := h.new j (by omega)
        rw [hlen, show s.dstLen.toNat + 1 + j = s.dstLen.toNat + (j + 1) by omega] at hn
        rw [hn, dstByte_append]
        rcases succ_mod_cases j (show 0 < d by omega) with ⟨h1, h2⟩ | ⟨h1, h2⟩
        · rw [if_pos (by omega), h2]; rfl
        · rw [if_neg (by omega), h2]; congr 1; omega
    · cases j with
      | zero => simp [State.dstByte, hfirst]
      | succ j =>
        have hn := h.listed j (by omega)
        rwa [hlen, show s.dstLen.toNat + 1 + j = s.dstLen.toNat + (j + 1) by omega] at hn
    · rw [h.frame a (by omega), append_dst, Memory.read_write_other _ _ (by omega)]
    · have := h.below
      rw [append_cfg] at this
      exact this (Memory.below_write hw (by omega) _)
    · rw [hlen]
      exact Memory.writtenBelow_append hw _

/-- The overlapped copy: each byte equals the byte `d` before it, the bytes the replay appended included (R174). -/
theorem Replayed.overlap {d len : Nat} {s t : State} (h : Replayed d len s t)
    (hd : 0 < len → 1 ≤ d ∧ d ≤ s.dstLen.toNat) (ht : t.draws = s.draws) :
    ∀ j < len, t.dstByte (s.dstLen.toNat + j) = t.dstByte (s.dstLen.toNat + j - d) := by
  intro j hj
  obtain ⟨hd1, hd2⟩ := hd (by omega)
  rw [h.new j hj]
  by_cases hjd : j < d
  · rw [Nat.mod_eq_of_lt hjd]
    simp only [State.dstByte, ht]
    rw [h.frame _ (by omega)]
    congr 2 <;> omega
  · have := h.new (j - d) (by omega)
    rw [show s.dstLen.toNat + (j - d) = s.dstLen.toNat + j - d by omega] at this
    rw [this, ← Nat.mod_eq_sub_mod (by omega)]

end Sys2Proof.Machine
end

