-- ==== Sys2Proof/Laws/Step.lean ====
section
/-! SUPPORT. What a command start, a token and a CORE step can do, each said once: if it answers a next state, then that
state is one of these, under these conditions (42_encoder.md R150 to R156, 43_decoder.md R170 to R178). -/

namespace Sys2Proof.Machine

/-- ENCODE's start, where no check fails (R150). -/
def encodeStarted (s : State) : State :=
  beginScanning (bwInit { commandStart .encode s with ewsize := wclamp s.wsize })

/-- DECODE's start, where no check fails (R170). -/
def decodeStarted (s : State) : State := beginReading (brInit (commandStart .decode s))

/-- When ENCODE answers a next state, and which (R40, R150, R216). -/
theorem execEncode_next {s t : State} (h : execEncode s = .next t) :
    s.status.busy = false ∧ s.wsizeWritten = true ∧ s.srcLenWritten = true ∧ s.sourceWritten = true ∧
      t = startEncode s := by
  unfold execEncode at h
  split at h
  · cases h
  · split at h
    · cases h
    · split at h
      · cases h
      · obtain rfl := Host.Outcome.next.inj h
        simp_all

/-- When DECODE answers a next state, and which (R40, R170, R216). -/
theorem execDecode_next {s t : State} (h : execDecode s = .next t) :
    s.status.busy = false ∧ s.srcLenWritten = true ∧ s.sourceWritten = true ∧ t = startDecode s := by
  unfold execDecode at h
  split at h
  · cases h
  · split at h
    · cases h
    · split at h
      · cases h
      · obtain rfl := Host.Outcome.next.inj h
        simp_all

/-- The three ends of ENCODE's start (R150, R205). -/
theorem startEncode_cases (s : State) :
    startEncode s = raise .invalidWindowSize (commandStart .encode s) ∨
    startEncode s = raise .capacityExceeded { commandStart .encode s with ewsize := wclamp s.wsize } ∨
    s.srcLen.toNat ≤ s.cfg.srcCap.toNat ∧ startEncode s = encodeStarted s := by
  unfold startEncode
  dsimp only
  split
  · exact .inl rfl
  · split
    · exact .inr (.inl rfl)
    · rename_i h
      refine .inr (.inr ⟨Nat.le_of_not_lt fun hlt => h ?_, rfl⟩)
      exact State.srcTooLong_iff.2 hlt

/-- The two ends of DECODE's start (R170, R205). -/
theorem startDecode_cases (s : State) :
    startDecode s = raise .capacityExceeded (commandStart .decode s) ∨
    s.srcLen.toNat ≤ s.cfg.srcCap.toNat ∧ startDecode s = decodeStarted s := by
  unfold startDecode
  dsimp only
  split
  · exact .inl rfl
  · rename_i h
    refine .inr ⟨Nat.le_of_not_lt fun hlt => h ?_, rfl⟩
    exact State.srcTooLong_iff.2 hlt

/-- LIT ends the command with an error or has its effect (R172). -/
theorem execLit_next {b : Byte} {s t : State} (h : execLit b s = .next t) :
    (∃ e, e ≠ .none ∧ t = raise e s) ∨
    s.bits.toNat + 9 ≤ s.streamLen ∧ s.dstLen.toNat + 1 ≤ s.cfg.dstCap.toNat ∧ t = litEffect b s := by
  unfold execLit at h
  split at h
  · obtain rfl := Host.Outcome.next.inj h
    exact .inl ⟨_, by decide, rfl⟩
  · split at h
    · obtain rfl := Host.Outcome.next.inj h
      exact .inl ⟨_, by decide, rfl⟩
    · rename_i h1 h2
      rw [State.outFull_iff] at h2
      obtain rfl := Host.Outcome.next.inj h
      exact .inr ⟨Nat.le_of_not_lt h1, Nat.le_of_not_lt h2, rfl⟩

/-- COPY ends the command with an error or has its effect (R173). -/
theorem execCopy_next {d : BitVec 12} {len : BitVec 4} {s t : State} (h : execCopy d len s = .next t) :
    (∃ e, e ≠ .none ∧ t = raise e s) ∨
    s.bits.toNat + 17 ≤ s.streamLen ∧ s.badDistance d.toNat len.toNat = false ∧
      s.dstLen.toNat + len.toNat ≤ s.cfg.dstCap.toNat ∧ t = copyEffect d.toNat len.toNat s := by
  unfold execCopy at h
  split at h
  · obtain rfl := Host.Outcome.next.inj h
    exact .inl ⟨_, by decide, rfl⟩
  · split at h
    · obtain rfl := Host.Outcome.next.inj h
      exact .inl ⟨_, by decide, rfl⟩
    · split at h
      · obtain rfl := Host.Outcome.next.inj h
        exact .inl ⟨_, by decide, rfl⟩
      · rename_i h1 h2 h3
        rw [State.outFull_iff] at h3
        obtain rfl := Host.Outcome.next.inj h
        exact .inr ⟨Nat.le_of_not_lt h1, by simpa using h2, Nat.le_of_not_lt h3, rfl⟩

/-- Everything a CORE step from `s` can lead to, and under which conditions. -/
inductive CoreCase (s : State) : State → Prop
  | idle (hs : s.seq = .idle) : CoreCase s s
  | encFull (w : Nat) (hs : s.seq = .scanning) (hp : s.pos < s.srcLen.toNat)
      (hc : s.cfg.dstCap.toNat < ceil8 (s.bits.toNat + w)) (hw : w ≤ 17) : CoreCase s (raise .capacityExceeded s)
  | encCopy (d len : Nat) (hs : s.seq = .scanning) (hp : s.pos < s.srcLen.toNat)
      (hm : s.findMatch s.pos = some (d, len)) (hc : ceil8 (s.bits.toNat + 17) ≤ s.cfg.dstCap.toNat) :
      CoreCase s (emitCopy d len s)
  | encLit (hs : s.seq = .scanning) (hp : s.pos < s.srcLen.toNat) (hm : s.findMatch s.pos = none)
      (hc : ceil8 (s.bits.toNat + 9) ≤ s.cfg.dstCap.toNat) : CoreCase s (emitLit (s.srcByte s.pos) s)
  | encFinish (hs : s.seq = .scanning) (hp : s.pos = s.srcLen.toNat) (hf : s.flushRoom = true) :
      CoreCase s (done (bwFlush s))
  | decDone (hs : s.seq = .reading) (hc : s.cleanEndAt s.bits.toNat = true) : CoreCase s (done s)
  | decError (e : ErrKind) (hs : s.seq = .reading) (he : e ≠ .none) (hc : s.cleanEndAt s.bits.toNat = false) :
      CoreCase s (raise e s)
  | decLit (b : Byte) (p : Nat) (hs : s.seq = .reading) (hc : s.cleanEndAt s.bits.toNat = false)
      (ht : s.tokenAt s.bits.toNat = .ok (.lit b, p)) (hb : s.bits.toNat + 9 ≤ s.streamLen)
      (ho : s.dstLen.toNat + 1 ≤ s.cfg.dstCap.toNat) : CoreCase s (litEffect b s)
  | decCopy (d : BitVec 12) (len : BitVec 4) (p : Nat) (hs : s.seq = .reading)
      (hc : s.cleanEndAt s.bits.toNat = false) (ht : s.tokenAt s.bits.toNat = .ok (.copy d len, p))
      (hb : s.bits.toNat + 17 ≤ s.streamLen) (hd : s.badDistance d.toNat len.toNat = false)
      (ho : s.dstLen.toNat + len.toNat ≤ s.cfg.dstCap.toNat) : CoreCase s (copyEffect d.toNat len.toNat s)

/-- DEC_STEP (R171). -/
theorem execDecStep_case {s t : State} (h : execDecStep s = .next t) : CoreCase s t := by
  unfold execDecStep at h
  split at h
  · rename_i hs
    split at h
    · cases h
    · split at h
      · obtain rfl := Host.Outcome.next.inj h
        exact .decDone hs ‹_›
      · rename_i hc
        have hc : s.cleanEndAt s.bits.toNat = false := by simpa using hc
        split at h
        · obtain rfl := Host.Outcome.next.inj h
          exact .decError _ hs (by decide) hc
        · rename_i b p ht
          obtain ⟨e, he, rfl⟩ | ⟨h1, h2, rfl⟩ := execLit_next h
          · exact .decError _ hs he hc
          · exact .decLit _ p hs hc ht h1 h2
        · rename_i d len p ht
          obtain ⟨e, he, rfl⟩ | ⟨h1, h2, h3, rfl⟩ := execCopy_next h
          · exact .decError _ hs he hc
          · exact .decCopy _ _ _ hs hc ht h1 h2 h3
  · cases h

/-- ENC_STEP (R151). -/
theorem execEncStep_case {s t : State} (h : execEncStep s = .next t) : CoreCase s t := by
  unfold execEncStep at h
  split at h
  · rename_i hs
    obtain ⟨hs, hp⟩ := hs
    split at h
    · cases h
    · split at h
      · rename_i d len hm
        unfold execEncEmitCopy at h
        split at h
        · rename_i hf
          obtain rfl := Host.Outcome.next.inj h
          exact .encFull 17 hs hp (State.encFull_iff.1 hf) (by omega)
        · rename_i hf
          rw [State.encFull_iff] at hf
          split at h
          · obtain rfl := Host.Outcome.next.inj h
            exact .encCopy d len hs hp hm (Nat.le_of_not_lt hf)
          · cases h
      · rename_i hm
        unfold execEncEmitLit at h
        split at h
        · rename_i hf
          obtain rfl := Host.Outcome.next.inj h
          exact .encFull 9 hs hp (State.encFull_iff.1 hf) (by omega)
        · rename_i hf
          rw [State.encFull_iff] at hf
          split at h
          · obtain rfl := Host.Outcome.next.inj h
            exact .encLit hs hp hm (Nat.le_of_not_lt hf)
          · cases h
  · cases h

/-- A CORE step (R6). -/
theorem coreStep_case {s t : State} (h : coreStep s = .next t) : CoreCase s t := by
  unfold coreStep at h
  split at h
  · obtain rfl := Host.Outcome.next.inj h
    exact .idle ‹_›
  · split at h
    · exact execEncStep_case h
    · simp only [exec, execEncFinish] at h
      split at h
      · rename_i hs
        split at h
        · obtain rfl := Host.Outcome.next.inj h
          exact .encFinish hs.1 hs.2 ‹_›
        · cases h
      · cases h
  · exact execDecStep_case h

end Sys2Proof.Machine
end

