-- ==== Sys2Proof/Tests/Slice0.lean ====
section
/-! SUPPORT. The model's own tests: the WellFormed smoke, words written out from the spec's encodings, one-step tests
whose expected values are the spec's own examples (each test names its rule), and for each statement with hypotheses a
concrete case that meets them together. -/

namespace Sys2Proof.Tests

open Sys2Proof Sys2Proof.Machine

/-! ### Helpers -/

/-- Lists bytes from an index on. -/
def bytesFrom : Nat → List Nat → Memory
  | _, [] => []
  | k, b :: l => (k, BitVec.ofNat 8 b) :: bytesFrom (k + 1) l

/-- A block with 64 bytes of SRC and DST whose host wrote the input `l` and the window `w`. -/
def idleOn (l : List Nat) (w : Int) : State :=
  { State.resetOf { srcCap := 64, dstCap := 64, rejectInvalidWindow := false } with
    wsize := BitVec.ofInt 32 w, wsizeWritten := true
    srcLen := BitVec.ofNat 32 l.length, srcLenWritten := true, src := bytesFrom 0 l }

/-- The same block right after an ENCODE started, at position `p`. -/
def scanningOn (l : List Nat) (w p : Nat) : State :=
  { idleOn l w with
    status := Status.start .encode, seq := .scanning, ewsize := BitVec.ofNat 12 w, pos := p }

/-- The same block right after a DECODE of the stream `l` started, at CUR `p`, with the output `out`. -/
def readingOn (l : List Nat) (p : Nat) (out : List Nat) : State :=
  { idleOn l 0 with
    status := Status.start .decode, seq := .reading, bits := BitVec.ofNat 32 p
    dst := bytesFrom 0 out, dstLen := BitVec.ofNat 32 out.length }

/-- Whether an outcome is a next state with a property. -/
def nextWith (o : Host.Outcome State Fault Refusal) (p : State → Bool) : Bool :=
  match o with
  | .next t => p t
  | .fault _ => false
  | .refused _ => false

/-- Whether an outcome is a refusal with a given reason. -/
def refusedFor (o : Host.Outcome State Fault Refusal) (r : Refusal) : Bool :=
  match o with
  | .next _ => false
  | .fault _ => false
  | .refused q => decide (q = r)

/-- The listed bytes of a memory. -/
def listed (m : Memory) : List (Nat × Nat) := m.map fun x => (x.1, x.2.toNat)

/-! ### WellFormed: an ill-formed term for each check -/

theorem test_wf_writeBits_width : WellFormed (.bwWriteBits 0 9) = false := by decide
theorem test_wf_writeBits_value : WellFormed (.bwWriteBits 8 3) = false := by decide
theorem test_wf_readBits_width : WellFormed (.brReadBits 0 9) = false := by decide
theorem test_wf_tileMatch_offset : WellFormed (.mfTileMatch 3 3 2) = false := by decide
theorem test_wf_tileMatch_short : WellFormed (.mfTileMatch 3 0 1) = false := by decide
theorem test_wf_tileMatch_long : WellFormed (.mfTileMatch 30 0 15) = false := by decide
theorem test_wf_emitCopy_distance : WellFormed (.encEmitCopy 0 2) = false ∧ WellFormed (.encEmitCopy 4096 2) = false := by
  decide
theorem test_wf_emitCopy_length : WellFormed (.encEmitCopy 1 1) = false ∧ WellFormed (.encEmitCopy 1 15) = false := by
  decide
theorem test_wf_copyReplay : WellFormed (.copyReplay 4096 1) = false ∧ WellFormed (.copyReplay 1 16) = false := by
  decide
theorem test_wf_accepts : WellFormed (.bwWriteBits 255 8) = true ∧ WellFormed (.encEmitCopy 4095 14) = true ∧
    WellFormed (.copyReplay 0 0) = true ∧ WellFormed (.mfTileMatch 2 0 14) = true := by decide

/-! ### Decoding: words written out bit by bit from R82, R83, R90 -/

/-- `0bbbbbbbb`: LIT 0x41 (R82). -/
theorem test_decode_lit :
    decode (.token [false, false, true, false, false, false, false, false, true]) = .ok (.lit 0x41) := by decide
/-- `1ddddddddddddllll`: COPY 20, 3 is `1 00000001 01000011` (R83, R152). -/
theorem test_decode_copy :
    decode (.token [true, false, false, false, false, false, false, false, true,
      false, true, false, false, false, false, true, true]) = .ok (.copy 20 3) := by decide
/-- CTRL[1:0] alone selects the command (R90). -/
theorem test_decode_commands :
    decode (.ctrl 0xFFFFFFFC) = .ok .nop ∧ decode (.ctrl 0x80000001) = .ok .encode ∧
    decode (.ctrl 0x00000102) = .ok .decode ∧ decode (.ctrl 3) = .error .reservedCommand := by decide
/-- Too few bits, or bits left over (R81, R176). -/
theorem test_decode_rejects :
    decode (.token []) = .error .endOfStream ∧
    decode (.token (List.replicate 8 false)) = .error .truncatedLit ∧
    decode (.token (List.replicate 16 true)) = .error .truncatedCopy ∧
    decode (.token (List.replicate 10 false)) = .error .trailingBits := by decide
/-- A token in the middle of a byte string: SRC = `20 C0 04` holds LIT 0x41 at 0 and COPY 1, 3 at 9 (F-5, R173). -/
theorem test_decode_bytes :
    decodeTokenBytes [0x20, 0xC0, 0x04, 0xC8] 0 = .ok (.lit 0x41, 9) ∧
    decodeTokenBytes [0x20, 0xC0, 0x04, 0xC8] 9 = .ok (.copy 1 3, 26) := by decide
/-- The words of the table's rows. -/
theorem test_decode_table_words :
    decodeTableWord 16 0x041 = some (.lit 0x41) ∧ decodeTableWord 24 0x10143 = some (.copy 20 3) ∧
    decodeTableWord 32 0 = some .nop ∧ decodeTableWord 32 1 = some .encode ∧ decodeTableWord 32 2 = some .decode ∧
    decodeTableWord 32 3 = none := by decide
/-- Encoding of the example of R152. -/
theorem test_encode_copy :
    encode (.copy 20 3) = some (.token [true, false, false, false, false, false, false, false, true,
      false, true, false, false, false, false, true, true]) := by decide

/-! ### The first step after reset, with one word placed -/

theorem test_fetch_lit :
    nextWith (step (State.reset.withFetchWord 16 0x041)) (fun t => listed t.dst == [(0, 0x41)] && t.bits == 9) = true := by
  decide
theorem test_fetch_copy :
    nextWith (step (State.reset.withFetchWord 24 0x10000)) (fun t => t.bits == 17 && t.tokens == 1) = true := by decide
theorem test_fetch_commands :
    nextWith (step (State.reset.withFetchWord 32 0)) (fun t => t.status.word == 0) = true ∧
    nextWith (step (State.reset.withFetchWord 32 1)) (fun t => t.status.word == 5) = true ∧
    nextWith (step (State.reset.withFetchWord 32 2)) (fun t => t.status.word == 9) = true := by decide

/-! ### One step each, from the spec's examples -/

/-- R172: SRC = `20 80`. -/
theorem test_lit : nextWith (exec (.lit 0x41) (readingOn [0x20, 0x80] 0 []))
    (fun t => listed t.dst == [(0, 0x41)] && t.dstLen == 1 && t.bits == 9 && t.tokens == 1) = true := by decide
/-- R201: a LIT with 8 bits left is TruncatedStream, and BITS stays. -/
theorem test_lit_truncated : nextWith (exec (.lit 0) (readingOn [0x00] 0 []))
    (fun t => t.status.word == 0x1A && t.bits == 0 && t.dstLen == 0) = true := by decide
/-- R173: after LIT 0x41, COPY 1, 3. -/
theorem test_copy : nextWith (exec (.copy 1 3) (readingOn [0x20, 0xC0, 0x04, 0xC8] 9 [0x41]))
    (fun t => listed t.dst == [(0, 0x41), (1, 0x41), (2, 0x41), (3, 0x41)] && t.bits == 26) = true := by decide
/-- R202: LIT 0x41, then COPY 0, 3. -/
theorem test_copy_malformed : nextWith (exec (.copy 0 3) (readingOn [0x20, 0xC0, 0x00, 0xC0] 9 [0x41]))
    (fun t => t.status.word == 0x2A && t.bits == 9 && t.dstLen == 1) = true := by decide
/-- R159: `STATUS = 0x00000006` stays. -/
theorem test_nop :
    nextWith (exec .nop { State.reset with status := { busy := false, done := true, op := .encode, err := .none } })
      (fun t => t.status.word == 6) = true := by decide
/-- R150: WSIZE = 4, SRC_LEN = 5. -/
theorem test_encode : nextWith (exec .encode (idleOn [0x41, 0x41, 0x41, 0x41, 0x41] 4))
    (fun t => t.ewsize == 4 && t.pos == 0 && t.seq == .scanning && t.status.word == 5) = true := by decide
/-- R155, R203: WSIZE = 10000 clamps, and is refused as a window where the block rejects. -/
theorem test_encode_window :
    nextWith (exec .encode (idleOn [] 10000)) (fun t => t.ewsize == 4095) = true ∧
    nextWith (exec .encode { idleOn [] 10000 with cfg := { srcCap := 64, dstCap := 64, rejectInvalidWindow := true } })
      (fun t => t.status.word == 0x36) = true := by decide
/-- R170: SRC_LEN = 5. -/
theorem test_decode : nextWith (exec .decode (idleOn [0x20, 0xC0, 0x04, 0xC8, 0x20] 0))
    (fun t => t.bits == 0 && t.seq == .reading && t.status.word == 9) = true := by decide
/-- R76: SRC_LEN above SRC_CAP. -/
theorem test_decode_too_long :
    nextWith (exec .decode { idleOn [] 0 with cfg := { srcCap := 0, dstCap := 64, rejectInvalidWindow := false }, srcLen := 1 })
      (fun t => t.status.word == 0x4A && t.seq == .idle) = true := by decide
/-- R100. -/
theorem test_bwInit : nextWith (exec .bwInit (readingOn [] 9 [0x41]))
    (fun t => t.bits == 0 && t.dstLen == 0 && t.bwN == 0) = true := by decide
/-- R101: from empty, `BW_WRITEBIT(1)`. -/
theorem test_bwWriteBit : nextWith (exec (.bwWriteBit true) (idleOn [] 0))
    (fun t => t.bwAcc == 0x80 && t.bwN == 1 && t.bits == 1 && t.dstLen == 0) = true := by decide
/-- R101: the 8th bit sends the byte. -/
theorem test_bwWriteBit_eighth :
    nextWith (exec (.bwWriteBit true) { idleOn [] 0 with bwAcc := 0xD4, bwN := 7, bits := 7 })
      (fun t => listed t.dst == [(0, 0xD5)] && t.bwAcc == 0 && t.bwN == 0 && t.bits == 8 && t.dstLen == 1) = true := by
  decide
/-- R102: after one 1 bit, `BW_WRITEBITS(0xAB, 8)`. -/
theorem test_bwWriteBits :
    nextWith (exec (.bwWriteBits 0xAB 8) { idleOn [] 0 with bwAcc := 0x80, bwN := 1, bits := 1 })
      (fun t => listed t.dst == [(0, 0xD5)] && t.bwAcc == 0x80 && t.bwN == 1 && t.bits == 9) = true := by decide
/-- R103: the example goes on: DST is `D5 80`. -/
theorem test_bwFlush :
    nextWith (exec .bwFlush { idleOn [] 0 with bwAcc := 0x80, bwN := 1, bits := 9, dstLen := 1, dst := [(0, 0xD5)] })
      (fun t => listed t.dst == [(0, 0xD5), (1, 0x80)] && t.dstLen == 2 && t.bits == 9) = true := by decide
/-- R103: nothing where BW_N is 0. -/
theorem test_bwFlush_empty : nextWith (exec .bwFlush (idleOn [] 0)) (fun t => t.dstLen == 0 && t.dst.isEmpty) = true := by
  decide
/-- R105. -/
theorem test_brInit : nextWith (exec .brInit (readingOn [0x20, 0x80] 9 [])) (fun t => t.bits == 0) = true := by decide
/-- R106: `T = 16, p = 9` gives 7. -/
theorem test_brRemaining : nextWith (exec (.brRemaining 9) (idleOn [0xD5, 0x80] 0)) (fun t => t.ret == .bits 7) = true := by
  decide
/-- R107: SRC = `D5 80`. -/
theorem test_brReadBit :
    nextWith (exec (.brReadBit 8) (idleOn [0xD5, 0x80] 0)) (fun t => t.ret == .read (.value 1 9)) = true ∧
    nextWith (exec (.brReadBit 16) (idleOn [0xD5, 0x80] 0)) (fun t => t.ret == .read .exhausted) = true := by decide
/-- R108: SRC = `D5 80`. -/
theorem test_brReadBits :
    nextWith (exec (.brReadBits 1 8) (idleOn [0xD5, 0x80] 0)) (fun t => t.ret == .read (.value 0xAB 9)) = true ∧
    nextWith (exec (.brReadBits 9 8) (idleOn [0xD5, 0x80] 0)) (fun t => t.ret == .read .exhausted) = true := by decide
/-- R109: SRC = `20 80` and `20 81` at 9. -/
theorem test_brCleanEnd :
    nextWith (exec (.brCleanEnd 9) (idleOn [0x20, 0x80] 0)) (fun t => t.ret == .test true) = true ∧
    nextWith (exec (.brCleanEnd 9) (idleOn [0x20, 0x81] 0)) (fun t => t.ret == .test false) = true := by decide
/-- R133: "abababa!", `i = 2`, `i' = 0`, `L = 5`. -/
theorem test_mfTileMatch :
    nextWith (exec (.mfTileMatch 2 0 5) (idleOn [97, 98, 97, 98, 97, 98, 97, 33] 0)) (fun t => t.ret == .test true) = true := by
  decide
/-- R133: byte 7 differs at length 6. -/
theorem test_mfTileMatch_false :
    nextWith (exec (.mfTileMatch 2 0 6) (idleOn [97, 98, 97, 98, 97, 98, 97, 33] 0)) (fun t => t.ret == .test false) = true := by
  decide
/-- R134: "abcXabcdYabcd!", `i = 9`, `W = 4095`. -/
theorem test_mfFind :
    nextWith (exec (.mfFind 9)
        { idleOn [97, 98, 99, 88, 97, 98, 99, 100, 89, 97, 98, 99, 100, 33] 0 with ewsize := 4095 })
      (fun t => t.ret == .found (some (5, 4))) = true := by decide
/-- R151: "AAAAA", `W = 4`, `POS = 1`: COPY 1, 3, and POS becomes 4. -/
theorem test_encStep : nextWith (exec .encStep (scanningOn [65, 65, 65, 65, 65] 4 1))
    (fun t => t.pos == 4 && t.tokens == 1 && t.bits == 17) = true := by decide
/-- R152: `COPY 20, 3` writes `1 00000001 01000011`: bytes 80 A1, then the bit 1 in BW_ACC. -/
theorem test_encEmitCopy : nextWith (exec (.encEmitCopy 20 3) (scanningOn [] 4 0))
    (fun t => listed t.dst == [(0, 0x80), (1, 0xA1)] && t.bwAcc == 0x80 && t.bwN == 1 && t.pos == 3) = true := by decide
/-- R153: LIT 0x41 from an empty writer. -/
theorem test_encEmitLit : nextWith (exec (.encEmitLit 0x41) (scanningOn [0x41] 4 0))
    (fun t => listed t.dst == [(0, 0x20)] && t.bwAcc == 0x80 && t.bwN == 1 && t.pos == 1 && t.bits == 9) = true := by decide
/-- R154: a token that does not fit writes nothing. -/
theorem test_encEmitLit_full :
    nextWith (exec (.encEmitLit 0x41)
        { scanningOn [0x41] 4 0 with cfg := { srcCap := 64, dstCap := 1, rejectInvalidWindow := false } })
      (fun t => t.status.word == 0x46 && t.dst.isEmpty && t.bits == 0) = true := by decide
/-- R156: "AAAAA" after its three tokens: BW_FLUSH appends 0x20 and DST_LEN is 5. -/
theorem test_encFinish :
    nextWith (exec .encFinish { scanningOn [65, 65, 65, 65, 65] 4 5 with
        bits := 35, dstLen := 4, dst := bytesFrom 0 [0x20, 0xC0, 0x04, 0xC8], bwAcc := 0x20, bwN := 3 })
      (fun t => listed t.dst == [(0, 0x20), (1, 0xC0), (2, 0x04), (3, 0xC8), (4, 0x20)] && t.dstLen == 5 &&
        t.status.word == 6 && t.bits == 35) = true := by decide
/-- R171: SRC = `20 80` at CUR 0 is a LIT. -/
theorem test_decStep : nextWith (exec .decStep (readingOn [0x20, 0x80] 0 []))
    (fun t => listed t.dst == [(0, 0x41)] && t.bits == 9 && t.seq == .reading) = true := by decide
/-- R171: at CUR 9 seven zero bits remain, and the stream ends. -/
theorem test_decStep_end : nextWith (exec .decStep (readingOn [0x20, 0x80] 9 [0x41]))
    (fun t => t.seq == .idle && t.status.word == 0xA && t.bits == 9) = true := by decide
/-- R174: DST = "ab", `COPY_REPLAY(2, 5)` gives "abababa". -/
theorem test_copyReplay : nextWith (exec (.copyReplay 2 5) (readingOn [] 0 [0x61, 0x62]))
    (fun t => listed t.dst ==
      [(0, 0x61), (1, 0x62), (2, 0x61), (3, 0x62), (4, 0x61), (5, 0x62), (6, 0x61)] && t.dstLen == 7) = true := by decide
/-- R230, R231. -/
theorem test_reset : nextWith (exec .reset (scanningOn [65] 4 0))
    (fun t => t.status.word == 0 && t.seq == .idle && t.src.isEmpty && !t.wsizeWritten) = true := by decide
/-- R216: a write to CTRL while BUSY. -/
theorem test_busy_refused :
    refusedFor (step { scanningOn [65] 4 0 with hostq := [.regWrite 0 4 0] }) .ctrlWhileBusy = true := by decide

/-! ### Witnesses: for each statement with hypotheses, a case that meets them together, at the ends of its ranges -/

/-- A block as `idleOn`, with the list of what the HOST does. -/
def hostDoes (s : State) (q : List HostAction) : State := { s with hostq := q }

/-- A byte string as a buffer. -/
def buffer (l : List Nat) (k : Nat) : Byte := BitVec.ofNat 8 (l.getD k 0)

theorem test_inv_idle : (idleOn [65, 66] 4).Inv := by
  unfold State.Inv State.MemoryOk State.StatusOk State.OutputOk State.OperandsOk State.EncoderOk State.DecoderOk
    State.WriterOk
  decide

theorem test_inv_scanning : (scanningOn [65, 65, 65, 65, 65] 4 0).Inv := by
  unfold State.Inv State.MemoryOk State.StatusOk State.OutputOk State.OperandsOk State.EncoderOk State.DecoderOk
    State.WriterOk
  decide

/-- A running DECODE of `20 C0 04 C8 20` after its first token, whose output the HOST has seen. -/
def afterFirstToken : State :=
  { readingOn [0x20, 0xC0, 0x04, 0xC8, 0x20] 9 [0x41] with tokens := 1, seenLen := 1 }

theorem test_inv_reading : afterFirstToken.Inv := by
  unfold State.Inv State.MemoryOk State.StatusOk State.OutputOk State.OperandsOk State.EncoderOk State.DecoderOk
    State.WriterOk
  decide

theorem test_witness_tokenDecodesWhereItsBitsStand :
    (∀ j < Token.width (.lit 0xFF), (encodeToken (.lit 0xFF)).getD (0 + j) false =
      (encodeToken (.lit 0xFF)).getD j false) ∧ 0 + Token.width (.lit 0xFF) ≤ 9 ∧
    (∀ j < Token.width (.copy 4095 15), (encodeToken (.copy 4095 15)).getD (0 + j) false =
      (encodeToken (.copy 4095 15)).getD j false) ∧ 0 + Token.width (.copy 4095 15) ≤ 17 := by decide

theorem test_witness_everyPatternIsOneToken :
    ((List.replicate 9 false).length = 9 ∧ (List.replicate 9 false).head? = some false) ∧
    ((List.replicate 17 true).length = 17 ∧ (List.replicate 17 true).head? = some true) := by decide

theorem test_witness_decodeEncodeAgree :
    WellFormed (.copy 0 15) = true ∧ (encode (.copy 0 15)).isSome = true ∧ WellFormed (.lit 0) = true ∧
    (encode (.lit 0)).isSome = true ∧ WellFormed .decode = true ∧ encode .decode = some (.ctrl 2) := by decide

theorem test_witness_commandDecodedByItsLowTwoBits :
    (0xFFFFFFFC : Word).extractLsb' 0 2 = 0b00#2 ∧ (0xFFFFFFFD : Word).extractLsb' 0 2 = 0b01#2 ∧
    (0xFFFFFFFE : Word).extractLsb' 0 2 = 0b10#2 ∧ (0xFFFFFFFF : Word).extractLsb' 0 2 = 0b11#2 ∧
    (hostDoes (idleOn [] 0) [.regWrite 0 4 0xFFFFFFFF]).status.busy = false := by decide

theorem test_witness_stepRunsTheDecodedToken :
    (readingOn [0x20, 0x80] 0 []).hostq = [] ∧ (readingOn [0x20, 0x80] 0 []).seq = .reading ∧
    (readingOn [0x20, 0x80] 0 []).bits.toNat ≤ (readingOn [0x20, 0x80] 0 []).streamLen ∧
    (readingOn [0x20, 0x80] 0 []).srcLen.toNat ≤ (readingOn [0x20, 0x80] 0 []).cfg.srcCap.toNat ∧
    cleanEnd (readingOn [0x20, 0x80] 0 []).streamBit 16 0 = false ∧
    (readingOn [0x20, 0x80] 0 []).tokenAt 0 = .ok (.lit 0x41, 9) ∧ afterFirstToken.tokenAt 9 = .ok (.copy 1 3, 26) ∧
    cleanEnd afterFirstToken.streamBit 40 9 = false := by decide

theorem test_witness_stepRunsTheWrittenCommand :
    (hostDoes (idleOn [] 0) [.regWrite 0 4 2]).status.busy = false ∧ decodeCommand 2 = .ok .decode := by decide

theorem test_witness_coreStepRunsTheSequencersOperation :
    (idleOn [] 0).seq = .idle ∧ ((scanningOn [65] 4 0).seq = .scanning ∧ (scanningOn [65] 4 0).pos < 1) ∧
    ((scanningOn [65] 4 1).seq = .scanning ∧ (scanningOn [65] 4 1).srcLen.toNat ≤ (scanningOn [65] 4 1).pos) ∧
    (readingOn [] 0 []).seq = .reading ∧ (readingOn [] 0 []).hostq = [] ∧
    (hostDoes (readingOn [] 0 []) [.wait]).hostq = .wait :: [] := by decide

theorem test_witness_resetAbandonsAnyCommand :
    (hostDoes (scanningOn [65] 4 0) [.reset]).hostq = .reset :: [] ∧
    hostDoes (hostDoes (scanningOn [65] 4 0) [.reset]) [] = scanningOn [65] 4 0 := by decide

theorem test_witness_registerReadsFollowTheMap :
    (∀ off ∈ [0x00, 0x04, 0x08, 0x0C, 0x10, 0x14, 0x18, 0x1C, 0x20],
      (hostDoes (idleOn [65] 4) [.regRead off 4]).hostq = .regRead off 4 :: [] ∧ off % 4 = 0) ∧
    (idleOn [65] 4).wsizeWritten = true ∧ (idleOn [65] 4).srcLenWritten = true := by decide

theorem test_witness_registerWritesStoreTheOperands :
    ∀ off ∈ [0x08, 0x0C, 0x04, 0x1C, 0x20], off % 4 = 0 ∧ off ≠ 0x00 ∧
      (hostDoes (idleOn [] 0) [.regWrite off 4 7]).hostq = .regWrite off 4 7 :: [] ∧
      (hostDoes (idleOn [] 0) [.regWrite off 4 7]).status.busy = false := by decide

/-- The last clause while BUSY too, at both ends of the read-only and reserved offsets (R21). -/
theorem test_witness_readOnlyWritesWhileBusy :
    ∀ off ∈ [0x04, 0x10, 0x1C, 0x20], off % 4 = 0 ∧ off ≠ 0x00 ∧ off ≠ 0x08 ∧ off ≠ 0x0C ∧
      (hostDoes (scanningOn [65] 4 0) [.regWrite off 4 7]).hostq = .regWrite off 4 7 :: [] ∧
      (scanningOn [65] 4 0).status.busy = true := by decide

theorem test_witness_hostViolationsAreRefused :
    (3 : Word).extractLsb' 0 2 = 0b11#2 ∧ (scanningOn [65] 4 0).status.busy = true ∧
    63 < (scanningOn [65] 4 0).cfg.srcCap.toNat ∧ 63 < (scanningOn [65] 4 0).cfg.dstCap.toNat ∧
    ¬((2 : Nat) = 4 ∧ 0x08 % 4 = 0) ∧ ¬((4 : Nat) = 4 ∧ 0x09 % 4 = 0) := by decide

theorem test_witness_commandsWithUnwrittenOperandsAreRefused :
    State.reset.status.busy = false ∧ State.reset.wsizeWritten = false ∧ State.reset.srcLenWritten = false ∧
    ({ idleOn [] 0 with srcLen := 1 } : State).status.busy = false ∧
    ∃ k < min ({ idleOn [] 0 with srcLen := 1 } : State).srcLen.toNat ({ idleOn [] 0 with srcLen := 1 } : State).cfg.srcCap.toNat,
      Memory.read ({ idleOn [] 0 with srcLen := 1 } : State).src k = none := by decide

theorem test_witness_hostSrcWriteReachesOneByte :
    (hostDoes (idleOn [65] 4) [.srcWrite 63 7]).hostq = .srcWrite 63 7 :: [] ∧
    63 < (hostDoes (idleOn [65] 4) [.srcWrite 63 7]).cfg.srcCap.toNat ∧
    (hostDoes (idleOn [65] 4) [.srcWrite 63 7]).status.busy = false := by decide

/-- Both clauses: idle with the byte listed, and busy with the byte below a length that was read. -/
theorem test_witness_hostDstReadsReturnFinalBytes :
    ((hostDoes afterFirstToken [.dstRead 0]).status.busy = true ∧ 0 < (hostDoes afterFirstToken [.dstRead 0]).seenLen) ∧
    (({ idleOn [] 0 with dst := [(0, 65)] } : State).status.busy = false ∧
      (Memory.read ({ idleOn [] 0 with dst := [(0, 65)] } : State).dst 0).isSome = true) := by decide

theorem test_inv_dstRead_busy : (hostDoes afterFirstToken [.dstRead 0]).Inv := by
  unfold State.Inv State.MemoryOk State.StatusOk State.OutputOk State.OperandsOk State.EncoderOk State.DecoderOk
    State.WriterOk
  decide

theorem test_inv_dstRead_idle : (hostDoes { idleOn [] 0 with dst := [(0, 65)] } [.dstRead 0]).Inv := by
  unfold State.Inv State.MemoryOk State.StatusOk State.OutputOk State.OperandsOk State.EncoderOk State.DecoderOk
    State.WriterOk
  decide

theorem test_witness_nopHasNoEffect : (idleOn [] 0).status.busy = false := by decide

/-- A block that rejects, with the windows at the ends of the range. -/
def rejecting (w : Int) : State :=
  { idleOn [65] w with cfg := { srcCap := 64, dstCap := 64, rejectInvalidWindow := true } }

theorem test_witness_encodeStartsScanning :
    ∀ w ∈ [(1 : Int), 4095], (rejecting w).status.busy = false ∧ (rejecting w).wsizeWritten = true ∧
      (rejecting w).srcLenWritten = true ∧ (rejecting w).sourceWritten = true ∧
      (rejecting w).srcLen.toNat ≤ (rejecting w).cfg.srcCap.toNat ∧ windowValid (rejecting w).wsize = true := by decide

theorem test_witness_encodeStartErrors :
    (∀ w ∈ [(0 : Int), 4096, -7], (rejecting w).sourceWritten = true ∧ (rejecting w).cfg.rejectInvalidWindow = true ∧
      ((rejecting w).wsize.toInt < 1 ∨ 4095 < (rejecting w).wsize.toInt)) ∧
    ({ idleOn [] 0 with cfg := { srcCap := 0, dstCap := 0, rejectInvalidWindow := false }, srcLen := 1 } : State).sourceWritten
      = true := by decide

theorem test_witness_decodeStartsReading :
    (idleOn [65] 0).status.busy = false ∧ (idleOn [65] 0).srcLenWritten = true ∧ (idleOn [65] 0).sourceWritten = true ∧
    (idleOn [65] 0).srcLen.toNat ≤ (idleOn [65] 0).cfg.srcCap.toNat ∧
    ({ idleOn [] 0 with cfg := { srcCap := 0, dstCap := 0, rejectInvalidWindow := false }, srcLen := 1 } : State).cfg.srcCap.toNat
      < 1 := by decide

theorem test_witness_raiseEndsTheCommand : (scanningOn [65] 4 0).seq = .scanning := by decide

/-- A full DST with the writer not at a byte's last bit, and one byte of room with it there. -/
theorem test_witness_writeBitTakesOneBit :
    ({ idleOn [] 0 with dstLen := 64, bwN := 6 } : State).bwN ≠ 7 ∧
    (({ idleOn [] 0 with dstLen := 63, bwN := 7 } : State).bwN = 7 ∧
      ({ idleOn [] 0 with dstLen := 63, bwN := 7 } : State).dstLen.toNat < 64) := by decide

/-- A writer with seven bits taken and one byte of room. -/
def almostFull : State := { scanningOn [] 4 0 with bits := 511, dstLen := 63, bwN := 7, bwAcc := 0xFE }

theorem test_writerOk_almostFull : almostFull.WriterOk := by
  unfold State.WriterOk
  decide

theorem test_witness_writeBitsAppendsAField :
    (8 ≤ 8 ∧ 255 < 2 ^ 8 ∧ almostFull.dstLen.toNat + (almostFull.bwN.toNat + 8) / 8 ≤ almostFull.cfg.dstCap.toNat) ∧
    (0 ≤ 8 ∧ 0 < 2 ^ 0 ∧ almostFull.dstLen.toNat + (almostFull.bwN.toNat + 0) / 8 ≤ almostFull.cfg.dstCap.toNat) := by decide

theorem test_witness_flushAppendsThePartialByte :
    (almostFull.bwN ≠ 0 ∧ almostFull.dstLen.toNat < almostFull.cfg.dstCap.toNat) ∧
    ({ idleOn [] 0 with dstLen := 64, bwN := 0 } : State).bwN = 0 := by decide

theorem test_witness_writerStreamIsTheBitsWritten :
    ceil8 (List.replicate 505 true).length ≤ (idleOn [] 0).cfg.dstCap.toNat := by
  rw [List.length_replicate]
  decide

theorem test_witness_readerOperationsWriteNothing :
    16 ≤ (idleOn [0xD5, 0x80] 0).streamLen ∧
    (idleOn [0xD5, 0x80] 0).srcLen.toNat ≤ (idleOn [0xD5, 0x80] 0).cfg.srcCap.toNat := by decide

theorem test_witness_readsAreMsbFirst : (15 < 16 ∧ 16 ≤ 16) ∧ (8 + 8 ≤ 16 ∧ 16 < 9 + 8) := by decide

theorem test_witness_cleanEndIsZeroPadding :
    cleanEnd (streamBit (buffer [0x20, 0x80])) 16 9 = true ∧ 9 ≤ 16 ∧
    cleanEnd (streamBit (buffer [0x20, 0x00])) 16 8 = false ∧ cleanEnd (streamBit (buffer [])) 0 0 = true := by decide

theorem test_witness_tileMatchIsTheOverlapCopyCondition :
    0 < 2 ∧ tileMatch (buffer [97, 98, 97, 98, 97, 98, 97, 33]) 2 0 5 = true := by decide

/-- MF-10 and the corner cases of R139. -/
theorem test_witness_findMatchClosedForm :
    mfFind (buffer [97, 98, 99, 88, 97, 98, 99, 100, 89, 97, 98, 99, 100, 33]) 14 4095 9 = some (5, 4) ∧
    mfFind (buffer [97, 98, 99, 88]) 4 4095 1 = none := by decide

theorem test_witness_findMatchBounds :
    4095 ≤ 4095 ∧ 9 < 14 ∧
    mfFind (buffer [97, 98, 99, 88, 97, 98, 99, 100, 89, 97, 98, 99, 100, 33]) 14 4095 9 = some (5, 4) ∧
    (∀ k < 9 + min 14 (14 - 9 - 1),
      buffer [97, 98, 99, 88, 97, 98, 99, 100, 89, 97, 98, 99, 100, 34] k =
        buffer [97, 98, 99, 88, 97, 98, 99, 100, 89, 97, 98, 99, 100, 33] k) := by decide

theorem test_witness_findMatchCornerCases :
    (0 < 4 ∧ 1 ≤ 1) ∧ 4 - 2 ≤ 2 ∧ mfFind (buffer [65, 65, 65, 65]) 4 1 1 = some (1, 2) ∧
    (∀ j < 4, ∀ k < 4, buffer [65, 65, 65, 65] j = buffer [65, 65, 65, 65] k) ∧ 3 ≤ 4 - 1 ∧
    (∀ i' < 1, tileMatch (buffer [97, 98, 99, 100]) 1 i' 2 = false) := by decide

theorem test_witness_matchFinderOperationsWriteNothing :
    0 < 2 ∧ 2 + 62 ≤ (idleOn [65, 65, 65] 4).cfg.srcCap.toNat ∧ 2 < (idleOn [65, 65, 65] 4).srcLen.toNat ∧
    (idleOn [65, 65, 65] 4).srcLen.toNat ≤ (idleOn [65, 65, 65] 4).cfg.srcCap.toNat := by decide

/-- R133's loop returns false at the first difference, so a length that passes SRC's 64 bytes does not matter; where no byte
differs it comes to the byte that SRC lacks. -/
theorem test_mfTileMatch_differs_first :
    (idleOn [65, 66, 65, 67] 4).srcByte (2 + 1) ≠ (idleOn [65, 66, 65, 67] 4).srcByte (0 + 1 % (2 - 0)) ∧
    nextWith (exec (.mfTileMatch 2 0 99) (idleOn [65, 66, 65, 67] 4)) (fun t => t.ret == .test false) = true ∧
    exec (.mfTileMatch 64 0 2) (idleOn [65, 66, 65, 67] 4) = .fault .srcOutOfRange :=
  ⟨by decide, by decide, rfl⟩

theorem test_writerOk_scanning : (scanningOn [65] 4 0).WriterOk := by
  unfold State.WriterOk
  decide

theorem test_witness_emitCopyAppendsItsToken :
    WellFormed (.encEmitCopy 4095 14) = true ∧
    ceil8 ((scanningOn [65] 4 0).bits.toNat + 17) ≤ (scanningOn [65] 4 0).cfg.dstCap.toNat := by decide

theorem test_witness_emitLitAppendsItsToken :
    ceil8 ((scanningOn [65] 4 0).bits.toNat + 9) ≤ (scanningOn [65] 4 0).cfg.dstCap.toNat := by decide

theorem test_witness_tokenThatDoesNotFitWritesNothing :
    almostFull.cfg.dstCap.toNat < ceil8 (almostFull.bits.toNat + 9) ∧
    almostFull.cfg.dstCap.toNat < ceil8 (almostFull.bits.toNat + 17) ∧ almostFull.seq = .scanning := by decide

theorem test_witness_encodeStepEmitsTheGreedyToken :
    (scanningOn [65, 65, 65, 65, 65] 4 0).seq = .scanning ∧ (scanningOn [65, 65, 65, 65, 65] 4 0).pos < 5 ∧
    mfFind (scanningOn [65, 65, 65, 65, 65] 4 0).srcByte 5 4 0 = none ∧
    mfFind (scanningOn [65, 65, 65, 65, 65] 4 1).srcByte 5 4 1 = some (1, 3) ∧ ceil8 (0 + 17) ≤ 64 := by decide

/-- "AAAAA" after its first token (R151): the writer keeps one bit of the LIT. -/
theorem test_inv_afterFirstLit :
    ({ scanningOn [65, 65, 65, 65, 65] 4 1 with
        bits := 9, tokens := 1, dstLen := 1, dst := [(0, 0x20)], bwAcc := 0x80, bwN := 1 } : State).Inv := by
  unfold State.Inv State.MemoryOk State.StatusOk State.OutputOk State.OperandsOk State.EncoderOk State.DecoderOk
    State.WriterOk
  decide

theorem test_witness_encodeFinishFlushesAndEnds :
    (scanningOn [65] 4 1).seq = .scanning ∧ (scanningOn [65] 4 1).pos = (scanningOn [65] 4 1).srcLen.toNat ∧
    (scanningOn [65] 4 1).bwN = 0 ∧ ({ scanningOn [65] 4 1 with dstLen := 63, bwN := 7 } : State).bwN ≠ 0 ∧
    ({ scanningOn [65] 4 1 with dstLen := 63, bwN := 7 } : State).dstLen.toNat < 64 := by decide

theorem test_witness_litAppendsItsByte :
    ({ readingOn [0x20, 0x80] 7 [] with dstLen := 63 } : State).bits.toNat + 9 ≤ 8 * 2 ∧
    ({ readingOn [0x20, 0x80] 7 [] with dstLen := 63 } : State).dstLen.toNat + 1 ≤
      ({ readingOn [0x20, 0x80] 7 [] with dstLen := 63 } : State).cfg.dstCap.toNat := by decide

/-- The distance that is the whole output, and length 0 with a distance that no output could meet. -/
theorem test_witness_copyReplaysItsBytes :
    (afterFirstToken.bits.toNat + 17 ≤ 8 * afterFirstToken.srcLen.toNat ∧ (1 : BitVec 12) ≠ 0 ∧
      (1 : BitVec 12).toNat ≤ afterFirstToken.dstLen.toNat ∧
      afterFirstToken.dstLen.toNat + (15 : BitVec 4).toNat ≤ afterFirstToken.cfg.dstCap.toNat) ∧
    ((0 : BitVec 4) ≠ 0 → (4095 : BitVec 12) ≠ 0 ∧ (4095 : BitVec 12).toNat ≤ afterFirstToken.dstLen.toNat) := by decide

theorem test_witness_copyReplayIsByteByByte :
    1 ≤ 1 ∧ 1 ≤ afterFirstToken.dstLen.toNat ∧ afterFirstToken.dstLen.toNat + 15 ≤ afterFirstToken.cfg.dstCap.toNat ∧
    afterFirstToken.dstLen.toNat + 63 ≤ afterFirstToken.cfg.dstCap.toNat := by
  decide

/-- One state for each clause, at the boundary of its range. -/
theorem test_witness_tokenErrorsInOrder :
    8 * (readingOn [0x00] 0 []).srcLen.toNat < (readingOn [0x00] 0 []).bits.toNat + 9 ∧
    (({ readingOn [0x20, 0x80] 7 [] with dstLen := 64 } : State).bits.toNat + 9 ≤ 8 * 2 ∧
      ({ readingOn [0x20, 0x80] 7 [] with dstLen := 64 } : State).cfg.dstCap.toNat < 64 + 1) ∧
    8 * (readingOn [0x80, 0x00] 0 []).srcLen.toNat < (readingOn [0x80, 0x00] 0 []).bits.toNat + 17 ∧
    (afterFirstToken.bits.toNat + 17 ≤ 8 * afterFirstToken.srcLen.toNat ∧ (3 : BitVec 4) ≠ 0 ∧
      afterFirstToken.dstLen.toNat < (2 : BitVec 12).toNat) ∧
    (({ afterFirstToken with dstLen := 64 } : State).bits.toNat + 17 ≤ 8 * afterFirstToken.srcLen.toNat ∧
      (1 : BitVec 12) ≠ 0 ∧ (1 : BitVec 12).toNat ≤ ({ afterFirstToken with dstLen := 64 } : State).dstLen.toNat ∧
      ({ afterFirstToken with dstLen := 64 } : State).cfg.dstCap.toNat < 64 + (1 : BitVec 4).toNat) := by decide

/-- Seven zero bits left, and no bit left. -/
theorem test_witness_decodeStepEndsAtACleanEnd :
    ((readingOn [0x20, 0x80] 9 []).bits.toNat ≤ 8 * 2 ∧ 8 * 2 - (readingOn [0x20, 0x80] 9 []).bits.toNat < 8 ∧
      ∀ k < 16, (readingOn [0x20, 0x80] 9 []).bits.toNat ≤ k → (readingOn [0x20, 0x80] 9 []).streamBit k = false) ∧
    ((readingOn [] 0 []).bits.toNat ≤ 8 * 0 ∧ (readingOn [] 0 []).srcLen.toNat ≤ (readingOn [] 0 []).cfg.srcCap.toNat) := by
  decide

theorem test_witness_decodeStepRunsTheTokenAtCur :
    ((readingOn [0x20, 0x80] 0 []).bits.toNat + 9 ≤ 8 * 2 ∧ (readingOn [0x20, 0x80] 0 []).streamBit 0 = false) ∧
    (afterFirstToken.bits.toNat + 17 ≤ 8 * 5 ∧ afterFirstToken.streamBit 9 = true) := by decide

theorem test_witness_truncatedTokenEndsTheDecode :
    (cleanEnd (readingOn [0x01] 0 []).streamBit 8 0 = false ∧ (readingOn [0x01] 0 []).streamBit 0 = false ∧
      8 * 1 < (readingOn [0x01] 0 []).bits.toNat + 9) ∧
    (cleanEnd (readingOn [0x80, 0x00] 0 []).streamBit 16 0 = false ∧ (readingOn [0x80, 0x00] 0 []).streamBit 0 = true ∧
      8 * 2 < (readingOn [0x80, 0x00] 0 []).bits.toNat + 17) := by decide

theorem test_witness_decoderHasNoWindow :
    nextWith (exec .decStep afterFirstToken) (fun t => t.tokens == 2) = true ∧
    nextWith (exec (.lit 0x41) (readingOn [0x20, 0x80] 0 [])) (fun t => t.tokens == 1) = true ∧
    nextWith (exec (.copy 1 3) afterFirstToken) (fun t => t.tokens == 2) = true := by decide

/-- A CORE step from a state of the invariant, for STEP and CORE statements alike (`test_inv_reading`). -/
theorem test_witness_wholeMachine :
    nextWith (coreStep afterFirstToken) (fun t => t.dstLen == 4) = true ∧
    nextWith (step afterFirstToken) (fun t => t.seq == .reading) = true ∧
    (scanningOn [65, 65, 65, 65, 65] 4 0).seq = .scanning ∧ afterFirstToken.seq = .reading := by decide

/-- ENCODE of one byte: two CORE steps to success (R157). -/
theorem test_witness_encodeRun :
    ∃ s0 e, exec .encode (idleOn [65] 4095) = .next s0 ∧ CoreRun 2 s0 e ∧ e.seq = .idle ∧ e.status.err = .none ∧
      e.output = [0x20, 0x80] ∧ e.dstLen = 2 :=
  ⟨_, _, rfl, ⟨by decide, _, rfl, by decide, _, rfl, rfl⟩, by decide, by decide, by decide, by decide⟩

theorem test_inv_encodeInput : (idleOn [65] 4095).Inv := by
  unfold State.Inv State.MemoryOk State.StatusOk State.OutputOk State.OperandsOk State.EncoderOk State.DecoderOk
    State.WriterOk
  decide

theorem test_inv_encodeClamped : (idleOn [65] 5000).Inv := by
  unfold State.Inv State.MemoryOk State.StatusOk State.OutputOk State.OperandsOk State.EncoderOk State.DecoderOk
    State.WriterOk
  decide

theorem test_inv_decodeStream : (idleOn [0x20, 0x80] 0).Inv := by
  unfold State.Inv State.MemoryOk State.StatusOk State.OutputOk State.OperandsOk State.EncoderOk State.DecoderOk
    State.WriterOk
  decide

/-- The block that decodes that stream (R180). -/
theorem test_witness_decodeOfEncodeIsTheInput :
    (idleOn [0x20, 0x80] 0).status.busy = false ∧ (idleOn [0x20, 0x80] 0).srcLenWritten = true ∧
    (idleOn [0x20, 0x80] 0).srcLen = 2 ∧ Memory.writtenBelow (idleOn [0x20, 0x80] 0).src 2 = true ∧
    (idleOn [0x20, 0x80] 0).input = [0x20, 0x80] ∧
    (idleOn [65] 4095).srcLen.toNat ≤ (idleOn [0x20, 0x80] 0).cfg.dstCap.toNat := by decide

/-- Two windows with one clamped value (R155, R158). -/
theorem test_witness_encodeDependsOnInputAndWindowOnly :
    (idleOn [65] 4095).input = (idleOn [65] 5000).input ∧ wclamp (idleOn [65] 4095).wsize = wclamp (idleOn [65] 5000).wsize ∧
    (idleOn [65] 4095).cfg.dstCap = (idleOn [65] 5000).cfg.dstCap ∧
    (idleOn [65] 4095).cfg.rejectInvalidWindow = false := by decide

/-- The same stream, with success, in a block that rejects and has the smallest DST that holds it. -/
def smallRejecting : State :=
  { idleOn [65] 4095 with cfg := { srcCap := 1, dstCap := 2, rejectInvalidWindow := true } }

theorem test_inv_smallRejecting : smallRejecting.Inv := by
  unfold State.Inv State.MemoryOk State.StatusOk State.OutputOk State.OperandsOk State.EncoderOk State.DecoderOk
    State.WriterOk
  decide

theorem test_witness_encodeDependsAcrossCapacities :
    smallRejecting.input = (idleOn [65] 5000).input ∧ wclamp smallRejecting.wsize = wclamp (idleOn [65] 5000).wsize ∧
    smallRejecting.cfg.dstCap ≠ (idleOn [65] 5000).cfg.dstCap ∧
    ∃ s0 e, exec .encode smallRejecting = .next s0 ∧ CoreRun 2 s0 e ∧ e.seq = .idle ∧ e.status.err = .none ∧
      e.output = [0x20, 0x80] :=
  ⟨by decide, by decide, by decide, _, _, rfl, ⟨by decide, _, rfl, by decide, _, rfl, rfl⟩, by decide, by decide, by decide⟩

end Sys2Proof.Tests
end

section
/-! What a step runs (00_scope.md R6): one equation per state of SEQ for CORE's step, the two ways in which the machine's
step is one of CORE, and the decoder's dispatch of the token at CUR (43_decoder.md R171). -/

namespace Sys2Proof.Machine

/-! ### CORE's step, one equation per state of SEQ -/

theorem coreStep_of_idle {s : State} (hseq : s.seq = .idle) : coreStep s = .next s := by
  simp [coreStep, hseq]

theorem coreStep_of_scanning_lt {s : State} (hseq : s.seq = .scanning) (hpos : s.pos < s.srcLen.toNat) :
    coreStep s = exec .encStep s := by
  simp [coreStep, hseq, hpos]

theorem coreStep_of_scanning_ge {s : State} (hseq : s.seq = .scanning) (hpos : s.srcLen.toNat ≤ s.pos) :
    coreStep s = exec .encFinish s := by
  simp [coreStep, hseq, Nat.not_lt.2 hpos]

theorem coreStep_of_reading {s : State} (hseq : s.seq = .reading) : coreStep s = exec .decStep s := by
  simp [coreStep, hseq]

/-! ### When the machine's step is one of CORE (log 8) -/

theorem step_of_no_hostAction {s : State} (hq : s.hostq = []) : step s = coreStep s := by
  simp [step, machineStep, hq]

theorem step_of_wait {s : State} {rest : List HostAction} (hq : s.hostq = .wait :: rest) :
    step s = coreStep { s with hostq := rest } := by
  simp [step, machineStep, hostStep, hq]

/-! ### The token at CUR -/

/-- Within SRC_CAP and where the end test says no, DEC_STEP is the token that the decoder reads at CUR (R171). -/
theorem exec_decStep_of_token {s : State} {t : Token} {p : Nat} (hseq : s.seq = .reading)
    (hcap : s.srcLen.toNat ≤ s.cfg.srcCap.toNat) (hend : s.cleanEndAt s.bits.toNat = false)
    (htok : s.tokenAt s.bits.toNat = .ok (t, p)) : exec .decStep s = exec t.toInstr s := by
  have hfits : ¬ s.srcTooLong = true := fun h => Nat.not_lt.2 hcap (State.srcTooLong_iff.1 h)
  have hdispatch : exec .decStep s = execDecStep s := rfl
  rw [hdispatch, execDecStep, if_pos hseq, if_neg hfits, if_neg (by simp [hend]), htok]
  cases t with
  | lit b => rfl
  | copy d len => rfl

/-! ### The obligations -/

/-- Settles O6: with no host action the step is CORE's, which while Reading is DEC_STEP, and at a position that does not
pass the stream its end test is that of R109. -/
theorem stepRunsTheDecodedToken : Obligations.StepRunsTheDecodedToken := by
  intro s t p hq hseq hcur hcap hend htok
  calc step s = coreStep s := step_of_no_hostAction hq
    _ = exec .decStep s := coreStep_of_reading hseq
    _ = exec t.toInstr s := exec_decStep_of_token hseq hcap ((State.cleanEndAt_eq hcur).trans hend) htok

/-- Settles O8: the equations of CORE's step, with the two ways of calling for one. -/
theorem coreStepRunsTheSequencersOperation : Obligations.CoreStepRunsTheSequencersOperation :=
  ⟨fun _ => step_of_no_hostAction, fun _ _ => step_of_wait, fun _ =>
    ⟨coreStep_of_idle, coreStep_of_scanning_lt, coreStep_of_scanning_ge, coreStep_of_reading⟩⟩

end Sys2Proof.Machine
end

section
/-! The status word (10_state.md R23, R200), the reset state (R39), the register map as one equation per offset (R21 to
R29), and what a command start refuses (R40, R216). -/

namespace Sys2Proof.Machine

/-! ### The STATUS word -/

theorem Op.code_lt (op : Op) : op.code < 4 := by
  cases op <;> decide

theorem ErrKind.code_lt (err : ErrKind) : err.code < 16 := by
  cases err <;> decide

/-- The word of STATUS is the sum of its shifted fields: nothing of it is cut off. -/
theorem Status.word_toNat (st : Status) :
    st.word.toNat = st.busy.toNat + 2 * st.done.toNat + 4 * st.op.code + 16 * st.err.code := by
  have hbusy := Bool.toNat_lt st.busy
  have hdone := Bool.toNat_lt st.done
  have hop := st.op.code_lt
  have herr := st.err.code_lt
  rw [Status.word, BitVec.toNat_ofNat, Nat.mod_eq_of_lt (by omega)]

theorem Status.word_busy (st : Status) : st.word.getLsbD 0 = st.busy := by
  have hdone := Bool.toNat_lt st.done
  rw [BitVec.getLsbD, Status.word_toNat, Nat.testBit_eq_decide_div_mod_eq]
  cases st.busy <;> simp <;> omega

theorem Status.word_done (st : Status) : st.word.getLsbD 1 = st.done := by
  have hbusy := Bool.toNat_lt st.busy
  rw [BitVec.getLsbD, Status.word_toNat, Nat.testBit_eq_decide_div_mod_eq]
  cases st.done <;> simp <;> omega

theorem Status.word_op (st : Status) : (st.word.extractLsb' 2 2).toNat = st.op.code := by
  have hbusy := Bool.toNat_lt st.busy
  have hdone := Bool.toNat_lt st.done
  have hop := st.op.code_lt
  rw [BitVec.extractLsb'_toNat, Status.word_toNat, Nat.shiftRight_eq_div_pow]
  omega

theorem Status.word_err (st : Status) : (st.word.extractLsb' 4 4).toNat = st.err.code := by
  have hbusy := Bool.toNat_lt st.busy
  have hdone := Bool.toNat_lt st.done
  have hop := st.op.code_lt
  have herr := st.err.code_lt
  rw [BitVec.extractLsb'_toNat, Status.word_toNat, Nat.shiftRight_eq_div_pow]
  omega

theorem Status.word_reserved (st : Status) : st.word.extractLsb' 8 24 = 0 := by
  have hbusy := Bool.toNat_lt st.busy
  have hdone := Bool.toNat_lt st.done
  have hop := st.op.code_lt
  have herr := st.err.code_lt
  apply BitVec.eq_of_toNat_eq
  rw [BitVec.extractLsb'_toNat, Status.word_toNat, Nat.shiftRight_eq_div_pow]
  simp only [BitVec.ofNat_eq_ofNat, BitVec.toNat_ofNat]
  omega

/-- Settles O12: the fields of the word's sum, and the two tables of codes. -/
theorem statusWordHasItsFields : Obligations.StatusWordHasItsFields := fun st =>
  ⟨st.word_busy, st.word_done, st.word_op, st.word_err, st.word_reserved, rfl, rfl, rfl, rfl, rfl, rfl, rfl, rfl⟩

/-! ### A host action -/

theorem step_of_hostAction {s : State} {a : HostAction} {rest : List HostAction} (hq : s.hostq = a :: rest) :
    step s = hostStep a { s with hostq := rest } := by
  simp [step, machineStep, hq]

/-! ### A register read, by its offset (R21 to R29) -/

theorem State.regRead_ctrl (s : State) : s.regRead 0x00 = 0 := by
  simp [State.regRead, State.regUnwritten]

theorem State.regRead_status (s : State) : s.regRead 0x04 = s.status.word := by
  simp [State.regRead, State.regUnwritten]

theorem State.regRead_wsize {s : State} (hw : s.wsizeWritten = true) : s.regRead 0x08 = s.wsize := by
  simp [State.regRead, State.regUnwritten, hw]

theorem State.regRead_srcLen {s : State} (hw : s.srcLenWritten = true) : s.regRead 0x0C = s.srcLen := by
  simp [State.regRead, State.regUnwritten, hw]

theorem State.regRead_dstLen (s : State) : s.regRead 0x10 = s.dstLen := by
  simp [State.regRead, State.regUnwritten]

theorem State.regRead_bits (s : State) : s.regRead 0x14 = s.bits := by
  simp [State.regRead, State.regUnwritten]

theorem State.regRead_tokens (s : State) : s.regRead 0x18 = s.tokens := by
  simp [State.regRead, State.regUnwritten]

theorem State.regRead_ewsize_toNat (s : State) : (s.regRead 0x1C).toNat = s.ewsize.toNat := by
  have hlt := s.ewsize.isLt
  have hread : s.regRead 0x1C = s.ewsize.setWidth 32 := by simp [State.regRead, State.regUnwritten]
  rw [hread, BitVec.toNat_setWidth]
  omega

theorem State.regRead_reserved {s : State} {off : Nat} (hoff : 0x20 ≤ off) : s.regRead off = 0 := by
  have hwritten : s.regUnwritten off = false := by
    simp only [State.regUnwritten, Bool.or_eq_false_iff, Bool.and_eq_false_iff, decide_eq_false_iff_not]
    omega
  unfold State.regRead
  rw [hwritten]
  split
  · contradiction
  · split
    case h_9 => rfl
    all_goals omega

/-- The state after a host read of the register at `off` (R21, R71). -/
def registerRead (off : Nat) (s : State) : State :=
  { s with
    hostData := .word (s.regRead off)
    seenLen := if off = 0x10 then max s.seenLen s.dstLen.toNat else s.seenLen
    draws := s.draws + 1 }

theorem regReadStep_of_aligned {s : State} {off : Nat} (hoff : off % 4 = 0) :
    regReadStep off 4 s = .next (registerRead off s) := by
  rw [regReadStep, if_pos (wordAccess_iff.2 ⟨rfl, hoff⟩), registerRead]

/-- Settles O11: the read is `registerRead`, and the register map has one equation per offset. -/
theorem registerReadsFollowTheMap : Obligations.RegisterReadsFollowTheMap := by
  intro s off rest hq hoff
  let r : State := { s with hostq := rest }
  have hstep : step s = .next (registerRead off r) :=
    (step_of_hostAction hq).trans (regReadStep_of_aligned hoff)
  refine ⟨r.regRead off, registerRead off r, hstep, rfl, rfl, ?_, ?_, ?_, ?_, ?_, ?_, ?_, ?_, ?_, ?_, ?_⟩
  · rintro rfl; exact r.regRead_ctrl
  · rintro rfl; exact r.regRead_status
  · rintro rfl hw; exact State.regRead_wsize (s := r) hw
  · rintro rfl hw; exact State.regRead_srcLen (s := r) hw
  · rintro rfl; exact r.regRead_dstLen
  · rintro rfl; exact r.regRead_bits
  · rintro rfl; exact r.regRead_tokens
  · rintro rfl; exact r.regRead_ewsize_toNat
  · exact State.regRead_reserved
  · exact fun hdst => if_pos hdst
  · exact fun hdst => if_neg hdst

/-! ### A register write, by its offset (R21, R24, R25) -/

theorem regWrite_wsize {s : State} (v : Word) (hbusy : s.status.busy = false) :
    regWrite 0x08 4 v s = .next { s with wsize := v, wsizeWritten := true } := by
  simp [regWrite, wordAccess, hbusy]

theorem regWrite_srcLen {s : State} (v : Word) (hbusy : s.status.busy = false) :
    regWrite 0x0C 4 v s = .next { s with srcLen := v, srcLenWritten := true } := by
  simp [regWrite, wordAccess, hbusy]

theorem regWrite_ignored {off : Nat} (v : Word) (s : State) (hoff : off % 4 = 0) (hctrl : off ≠ 0x00)
    (hwsize : off ≠ 0x08) (hsrcLen : off ≠ 0x0C) : regWrite off 4 v s = .next s := by
  unfold regWrite
  rw [if_pos (wordAccess_iff.2 ⟨rfl, hoff⟩)]
  split
  case h_4 => rfl
  all_goals contradiction

/-- Settles O13: one equation of the register write for each of the three kinds of offset. -/
theorem registerWritesStoreTheOperands : Obligations.RegisterWritesStoreTheOperands := by
  intro s v off rest hq hoff
  have hstep : step s = regWrite off 4 v { s with hostq := rest } := step_of_hostAction hq
  refine ⟨?_, ?_, fun hctrl hwsize hsrcLen => hstep.trans (regWrite_ignored v _ hoff hctrl hwsize hsrcLen)⟩
  · rintro rfl hbusy; exact hstep.trans (regWrite_wsize v hbusy)
  · rintro rfl hbusy; exact hstep.trans (regWrite_srcLen v hbusy)

/-! ### The reset state (R39) -/

/-- Settles O9: each register holds its value by the definition of the reset state, and an empty SRC lists no byte. -/
theorem resetStateHoldsTheSpecsValues : Obligations.ResetStateHoldsTheSpecsValues :=
  ⟨rfl, rfl, rfl, rfl, rfl, rfl, rfl, rfl, Memory.read_nil, rfl⟩

/-! ### What a command start refuses (R40, R216) -/

theorem exec_encode_of_unwrittenRegister {s : State} (hbusy : s.status.busy = false)
    (hw : s.wsizeWritten = false ∨ s.srcLenWritten = false) : exec .encode s = .refused .unwrittenRegister := by
  have hreg : (!s.wsizeWritten || !s.srcLenWritten) = true := by simpa using hw
  simp [exec, execEncode, hbusy, hreg]

theorem exec_decode_of_unwrittenRegister {s : State} (hbusy : s.status.busy = false)
    (hw : s.srcLenWritten = false) : exec .decode s = .refused .unwrittenRegister := by
  simp [exec, execDecode, hbusy, hw]

/-- An unwritten byte that the command could read makes the check of the source fail. -/
theorem State.sourceWritten_eq_false {s : State} {k : Nat} (hk : k < min s.srcLen.toNat s.cfg.srcCap.toNat)
    (hread : Memory.read s.src k = none) : s.sourceWritten = false := by
  rw [Bool.eq_false_iff, State.sourceWritten, ne_eq, Memory.writtenBelow_iff]
  intro hall
  simpa [hread] using hall k hk

/-- With its registers written or not, ENCODE is refused while a byte of the source is unwritten. -/
theorem exec_encode_of_unwrittenSource {s : State} (hbusy : s.status.busy = false) (hsrc : s.sourceWritten = false) :
    ∃ r, exec .encode s = .refused r := by
  by_cases hw : s.wsizeWritten = false ∨ s.srcLenWritten = false
  · exact ⟨_, exec_encode_of_unwrittenRegister hbusy hw⟩
  · obtain ⟨hws, hsl⟩ : s.wsizeWritten = true ∧ s.srcLenWritten = true := by simpa using hw
    exact ⟨.unwrittenSource, by simp [exec, execEncode, hbusy, hws, hsl, hsrc]⟩

theorem exec_decode_of_unwrittenSource {s : State} (hbusy : s.status.busy = false) (hsrc : s.sourceWritten = false) :
    ∃ r, exec .decode s = .refused r := by
  by_cases hw : s.srcLenWritten = false
  · exact ⟨_, exec_decode_of_unwrittenRegister hbusy hw⟩
  · have hsl : s.srcLenWritten = true := by simpa using hw
    exact ⟨.unwrittenSource, by simp [exec, execDecode, hbusy, hsl, hsrc]⟩

/-- Settles O15: the check of the registers comes first, then that of the source's bytes. -/
theorem commandsWithUnwrittenOperandsAreRefused : Obligations.CommandsWithUnwrittenOperandsAreRefused := by
  intro s hbusy
  refine ⟨exec_encode_of_unwrittenRegister hbusy, exec_decode_of_unwrittenRegister hbusy, ?_⟩
  rintro ⟨k, hk, hread⟩
  have hsrc := State.sourceWritten_eq_false hk hread
  exact ⟨exec_encode_of_unwrittenSource hbusy hsrc, exec_decode_of_unwrittenSource hbusy hsrc⟩

end Sys2Proof.Machine
end

section
/-! What a CORE step leaves as it was: the host's state always (10_state.md R38, 20_memory.md R61, R74), STATUS until
the command ends (10_state.md R23, R30). -/

namespace Sys2Proof.Machine

/-- Settles O54: every end of a CORE step is made of operations that leave each of these fields as it was. -/
theorem coreNeverWritesTheHostsState : Obligations.CoreNeverWritesTheHostsState := by
  intro s t hstep
  cases coreStep_case hstep with
  | idle => simp
  | encFull => simp
  | encCopy => simp
  | encLit => simp
  | encFinish => simp
  | decDone => simp
  | decError => simp
  | decLit => simp
  | decCopy => simp

theorem raise_ended (e : ErrKind) (s : State) : (raise e s).Ended ∧ (raise e s).status.op = s.status.op :=
  ⟨⟨rfl, rfl, rfl⟩, rfl⟩

theorem done_ended (s : State) : (done s).Ended ∧ (done s).status.op = s.status.op :=
  ⟨⟨rfl, rfl, rfl⟩, rfl⟩

/-- A CORE step leaves SEQ and STATUS, or ends the command that runs. -/
theorem CoreCase.status_or_ended {s t : State} (hcase : CoreCase s t) :
    (t.seq = s.seq ∧ t.status = s.status) ∨ (s.seq ≠ .idle ∧ t.Ended ∧ t.status.op = s.status.op) := by
  cases hcase with
  | idle => exact .inl ⟨rfl, rfl⟩
  | encFull _ hseq => exact .inr ⟨by simp [hseq], raise_ended _ s⟩
  | encCopy => exact .inl (by simp)
  | encLit => exact .inl (by simp)
  | encFinish hseq => exact .inr ⟨by simp [hseq], by simpa using done_ended (bwFlush s)⟩
  | decDone hseq => exact .inr ⟨by simp [hseq], done_ended s⟩
  | decError e hseq => exact .inr ⟨by simp [hseq], raise_ended e s⟩
  | decLit => exact .inl (by simp)
  | decCopy => exact .inl (by simp)

/-- Settles O56: `raise` and `done` are the ends of a command, every other CORE step leaves SEQ and STATUS. -/
theorem statusChangesOnlyAtTheEnd : Obligations.StatusChangesOnlyAtTheEnd := by
  intro s t hstep
  obtain hsame | ⟨hrun, ⟨hseq, hbusy, hdone⟩, hop⟩ := (coreStep_case hstep).status_or_ended
  · exact .inl hsame
  · exact .inr ⟨hrun, hseq, hbusy, hdone, hop⟩

end Sys2Proof.Machine
end

section
/-! The invariant of the block: it holds at reset (10_state.md R39), and every step keeps it, of CORE and of the HOST.
The two ends of a command need only its memory and its output; a token, emitted or decoded, and a command's start carry
the rest. -/

namespace Sys2Proof.Machine

/-! ### The operands that the invariant bounds -/

/-- The clamped window is not 0 (R155). -/
theorem one_le_wclamp (v : Word) : 1 ≤ (wclamp v).toNat := by
  rw [wclamp, BitVec.toNat_ofInt]
  simp only [Config.wMax, Config.wMin]
  omega

/-- MF_FIND's answer is a distance within the window and a length of at least 2 that ends below the final byte
(R131, R132, R138). -/
theorem mfFind_bounds {inp : Nat → Byte} {n w i d len : Nat} (hfind : mfFind inp n w i = some (d, len)) :
    1 ≤ d ∧ d ≤ w ∧ 2 ≤ len ∧ len ≤ 14 ∧ i + len < n := by
  simp only [mfFind, Option.ite_none_right_eq_some, Option.some.injEq, Prod.mk.injEq] at hfind
  obtain ⟨hpos, rfl, rfl⟩ := hfind
  obtain ⟨hzero, -⟩ | ⟨i', hdist, hlen, hlo, hlt, -⟩ := best_bestMatch inp n w i
  · simp [hzero] at hpos
  · rw [mem_candLengths] at hlen
    omega

/-! ### The parts of the invariant -/

theorem State.Inv.memoryOk {s : State} (h : s.Inv) : s.MemoryOk := h.1
theorem State.Inv.statusOk {s : State} (h : s.Inv) : s.StatusOk := h.2.1
theorem State.Inv.outputOk {s : State} (h : s.Inv) : s.OutputOk := h.2.2.1
theorem State.Inv.operandsOk {s : State} (h : s.Inv) : s.OperandsOk := h.2.2.2.1
theorem State.Inv.encoderOk {s : State} (h : s.Inv) : s.EncoderOk := h.2.2.2.2.1
theorem State.Inv.decoderOk {s : State} (h : s.Inv) : s.DecoderOk := h.2.2.2.2.2

/-! ### While Idle, and at the two ends of a command -/

/-- While no command runs, the invariant asks nothing of the operands, the encoder or the decoder. -/
theorem State.Inv.of_idle {s : State} (hseq : s.seq = .idle) (hmem : s.MemoryOk) (hstatus : s.StatusOk)
    (hout : s.OutputOk) : s.Inv :=
  ⟨hmem, hstatus, hout, fun hrun => absurd hseq hrun, fun hscan => by simp [hseq] at hscan,
    fun hread => by simp [hseq] at hread⟩

theorem State.Inv.idle_of_not_busy {s : State} (h : s.Inv) (hbusy : s.status.busy = false) : s.seq = .idle := by
  obtain ⟨hrun, -⟩ := h.statusOk
  simpa [hbusy] using hrun

/-- A command that has ended: STATUS agrees with Idle, whatever its error. -/
theorem State.Ended.statusOk {s : State} (h : s.Ended) : s.StatusOk := by
  obtain ⟨hseq, hbusy, hdone⟩ := h
  simp [State.StatusOk, hseq, hbusy, hdone]

theorem raise_inv {s : State} (e : ErrKind) (hmem : s.MemoryOk) (hout : s.OutputOk) : (raise e s).Inv :=
  .of_idle rfl hmem (raise_ended e s).1.statusOk hout

theorem done_inv {s : State} (hmem : s.MemoryOk) (hout : s.OutputOk) : (done s).Inv :=
  .of_idle rfl hmem (done_ended s).1.statusOk hout

/-! ### Reset -/

theorem resetOf_inv (c : Params) : (State.resetOf c).Inv := by
  refine .of_idle rfl ?_ ?_ ?_
  · simp [State.MemoryOk, State.resetOf]
  · simp [State.StatusOk, State.resetOf]
  · simp [State.OutputOk, State.resetOf, Memory.writtenBelow]

/-- Settles O51: the reset state of every block is Idle, with empty memories and counters 0. -/
theorem resetMeetsTheInvariant : Obligations.ResetMeetsTheInvariant :=
  ⟨resetOf_inv Params.default, resetOf_inv⟩

/-- RESET's state differs from the reset state in the model's own fields only, of which the invariant says nothing. -/
theorem resetAll_inv (s : State) : (resetAll s).Inv := resetOf_inv s.cfg

/-! ### The start of a command -/

theorem commandStart_outputOk (op : Op) (s : State) : (commandStart op s).OutputOk := by
  simp [State.OutputOk, Memory.writtenBelow]

theorem encodeStarted_inv {s : State} (hmem : s.MemoryOk) (hwritten : s.srcLenWritten = true)
    (hsrc : s.sourceWritten = true) (hlen : s.srcLen.toNat ≤ s.cfg.srcCap.toNat) : (encodeStarted s).Inv := by
  rw [State.sourceWritten_eq hlen] at hsrc
  refine ⟨hmem, ?_, ?_, fun _ => ⟨hwritten, hlen, hsrc⟩, fun _ => ?_, fun hread => ?_⟩
  · simp [State.StatusOk, encodeStarted, Status.start]
  · simp [State.OutputOk, encodeStarted, Memory.writtenBelow]
  · simpa [State.WriterOk, encodeStarted, ceil8] using one_le_wclamp s.wsize
  · simp [encodeStarted] at hread

theorem decodeStarted_inv {s : State} (hmem : s.MemoryOk) (hwritten : s.srcLenWritten = true)
    (hsrc : s.sourceWritten = true) (hlen : s.srcLen.toNat ≤ s.cfg.srcCap.toNat) : (decodeStarted s).Inv := by
  rw [State.sourceWritten_eq hlen] at hsrc
  refine ⟨hmem, ?_, ?_, fun _ => ⟨hwritten, hlen, hsrc⟩, fun hscan => ?_, fun _ => ?_⟩
  · simp [State.StatusOk, decodeStarted, Status.start]
  · simp [State.OutputOk, decodeStarted, Memory.writtenBelow]
  · simp [decodeStarted] at hscan
  · simp [decodeStarted]

theorem execEncode_keeps_inv {s t : State} (h : s.Inv) (hexec : execEncode s = .next t) : t.Inv := by
  obtain ⟨-, -, hwritten, hsrc, rfl⟩ := execEncode_next hexec
  obtain hfail | hfail | ⟨hlen, hstart⟩ := startEncode_cases s
  · exact hfail ▸ raise_inv _ h.memoryOk (commandStart_outputOk .encode s)
  · exact hfail ▸ raise_inv _ h.memoryOk (commandStart_outputOk .encode s)
  · exact hstart ▸ encodeStarted_inv h.memoryOk hwritten hsrc hlen

theorem execDecode_keeps_inv {s t : State} (h : s.Inv) (hexec : execDecode s = .next t) : t.Inv := by
  obtain ⟨-, hwritten, hsrc, rfl⟩ := execDecode_next hexec
  obtain hfail | ⟨hlen, hstart⟩ := startDecode_cases s
  · exact hfail ▸ raise_inv _ h.memoryOk (commandStart_outputOk .decode s)
  · exact hstart ▸ decodeStarted_inv h.memoryOk hwritten hsrc hlen

/-! ### What a write of bits keeps, by field (R101 to R103) -/

theorem SameButWriter.eq {s t : State} (h : SameButWriter s t) :
    t = { s with bits := t.bits, dstLen := t.dstLen, dst := t.dst, bwAcc := t.bwAcc, bwN := t.bwN } := h

theorem SameButWriter.status {s t : State} (h : SameButWriter s t) : t.status = s.status :=
  (congrArg State.status h.eq :)
theorem SameButWriter.srcLen {s t : State} (h : SameButWriter s t) : t.srcLen = s.srcLen :=
  (congrArg State.srcLen h.eq :)
theorem SameButWriter.srcLenWritten {s t : State} (h : SameButWriter s t) : t.srcLenWritten = s.srcLenWritten :=
  (congrArg State.srcLenWritten h.eq :)
theorem SameButWriter.tokens {s t : State} (h : SameButWriter s t) : t.tokens = s.tokens :=
  (congrArg State.tokens h.eq :)
theorem SameButWriter.ewsize {s t : State} (h : SameButWriter s t) : t.ewsize = s.ewsize :=
  (congrArg State.ewsize h.eq :)
theorem SameButWriter.seq {s t : State} (h : SameButWriter s t) : t.seq = s.seq := (congrArg State.seq h.eq :)
theorem SameButWriter.pos {s t : State} (h : SameButWriter s t) : t.pos = s.pos := (congrArg State.pos h.eq :)
theorem SameButWriter.src {s t : State} (h : SameButWriter s t) : t.src = s.src := (congrArg State.src h.eq :)
theorem SameButWriter.seenLen {s t : State} (h : SameButWriter s t) : t.seenLen = s.seenLen :=
  (congrArg State.seenLen h.eq :)

theorem Wrote.memoryOk {s t : State} {l : List Bool} (hw : Wrote s t l) (h : s.MemoryOk) : t.MemoryOk := by
  obtain ⟨hwfSrc, hwfDst, hbelowSrc, hbelowDst⟩ := h
  rw [State.MemoryOk, hw.same.src, hw.same.cfg]
  exact ⟨hwfSrc, hw.wf hwfDst, hbelowSrc, hw.below hbelowDst⟩

theorem Wrote.outputOk {s t : State} {l : List Bool} (hw : Wrote s t l) (h : s.OutputOk) : t.OutputOk := by
  obtain ⟨-, hwritten, hseen⟩ := h
  rw [State.OutputOk, hw.same.seenLen, hw.same.cfg]
  exact ⟨hw.room, hw.written hwritten, hseen.trans hw.mono⟩

/-! ### The encoder -/

/-- Counting one more token of at least 9 bits does not wrap (R28). -/
theorem tokens_succ_toNat {s : State} (h : 9 * s.tokens.toNat ≤ s.bits.toNat) :
    (s.tokens + 1).toNat = s.tokens.toNat + 1 := by
  have hbits := s.bits.isLt
  exact toNat_add_of_lt (by simp; omega)

/-- An emission that took `len` bytes of the input for at most `9 × len` bits, after the capacity check. -/
theorem State.Inv.emitted {s t : State} {l : List Bool} {len : Nat} (h : s.Inv) (hseq : s.seq = .scanning)
    (hw : Wrote s t l) (htoken : 9 ≤ l.length) (hgain : l.length ≤ 9 * len) (hpos : s.pos + len ≤ s.srcLen.toNat)
    (hcap : ceil8 (s.bits.toNat + l.length) ≤ s.cfg.dstCap.toNat) : (tokenEmitted len t).Inv := by
  obtain ⟨-, hwin, -, -, htokens, hbits⟩ := h.encoderOk hseq
  refine ⟨hw.memoryOk h.memoryOk, ?_, hw.outputOk h.outputOk, fun _ => ?_,
    fun _ => ⟨?_, ?_, hw.ok, ?_, ?_, ?_⟩, fun hread => ?_⟩
  · simpa [State.StatusOk, hw.same.status, hw.same.seq] using h.statusOk
  · simpa [hw.same.srcLen, hw.same.srcLenWritten, hw.same.src, hw.same.cfg] using h.operandsOk (by simp [hseq])
  · simpa [hw.same.pos, hw.same.srcLen] using hpos
  · simpa [hw.same.ewsize] using hwin
  · simpa [hw.same.cfg, hw.bits] using hcap
  · rw [tokenEmitted_tokens, tokenEmitted_bits, hw.same.tokens, tokens_succ_toNat htokens, hw.bits]
    omega
  · rw [tokenEmitted_bits, tokenEmitted_pos, hw.bits, hw.same.pos]
    omega
  · simp [hw.same.seq, hseq] at hread

/-- While Scanning, the token that passed ENC_CAPCHECK is written (R154). -/
theorem State.Inv.wrote {s : State} {l : List Bool} (h : s.Inv) (hseq : s.seq = .scanning)
    (hcap : ceil8 (s.bits.toNat + l.length) ≤ s.cfg.dstCap.toNat) :
    Wrote s (l.foldl (fun u b => bwWriteBit b u) s) l := by
  obtain ⟨-, -, hwriter, -⟩ := h.encoderOk hseq
  obtain ⟨hroom, hdst⟩ := hwriter.room hcap
  exact .list l hwriter hdst hroom

theorem emitLit_keeps_inv {s : State} (b : Byte) (h : s.Inv) (hseq : s.seq = .scanning)
    (hpos : s.pos < s.srcLen.toNat) (hcap : ceil8 (s.bits.toNat + 9) ≤ s.cfg.dstCap.toNat) : (emitLit b s).Inv := by
  have hlen : (encodeToken (.lit b)).length = 9 := encodeToken_length _
  rw [emitLit_eq]
  rw [← hlen] at hcap
  exact h.emitted hseq (h.wrote hseq hcap) hlen.ge hlen.le hpos hcap

theorem emitCopy_keeps_inv {s : State} {d len : Nat} (h : s.Inv) (hseq : s.seq = .scanning)
    (hfind : s.findMatch s.pos = some (d, len)) (hcap : ceil8 (s.bits.toNat + 17) ≤ s.cfg.dstCap.toNat) :
    (emitCopy d len s).Inv := by
  obtain ⟨-, hwindow, hmin, hmax, hend⟩ := mfFind_bounds hfind
  have hwin := s.ewsize.isLt
  have hlen : (encodeToken (.copy (.ofNat 12 d) (.ofNat 4 len))).length = 17 := encodeToken_length _
  rw [emitCopy_eq_of_lt (by omega) (by omega)]
  rw [← hlen] at hcap
  exact h.emitted hseq (h.wrote hseq hcap) (by omega) (by omega) hend.le hcap

/-- The final flush keeps memory and output: its byte is within DST (R103, R154). -/
theorem bwFlush_memoryOk_outputOk {s : State} (h : s.Inv) (hseq : s.seq = .scanning) :
    (bwFlush s).MemoryOk ∧ (bwFlush s).OutputOk := by
  obtain ⟨hwfSrc, hwfDst, hbelowSrc, hbelowDst⟩ := h.memoryOk
  obtain ⟨-, hwritten, hseen⟩ := h.outputOk
  obtain ⟨-, -, hwriter, hcap, -⟩ := h.encoderOk hseq
  obtain ⟨hdst, -, -, -, hwf, hbelow, hflushed⟩ := bwFlush_spec hwriter hcap
  have hgrows : s.dstLen.toNat ≤ ceil8 s.bits.toNat := by
    rw [hwriter.dstLen, ceil8]
    omega
  constructor
  · rw [State.MemoryOk, bwFlush_src, bwFlush_cfg]
    exact ⟨hwfSrc, hwf hwfDst, hbelowSrc, hbelow hbelowDst⟩
  · rw [State.OutputOk, bwFlush_seenLen, bwFlush_cfg]
    exact ⟨hdst ▸ hcap, hflushed hwritten, hdst ▸ hseen.trans hgrows⟩

/-! ### The decoder -/

/-- A token of `w` bits within the stream that brought the output to `n` bytes, at most 15 more, listed in `m`. -/
theorem State.Inv.decoded {s : State} {m : Memory} {n w : Word} (h : s.Inv) (hseq : s.seq = .reading)
    (hwf : Memory.wf m) (hbelow : ∀ x ∈ m, x.1 < s.cfg.dstCap.toNat)
    (hwritten : Memory.writtenBelow m n.toNat = true) (hgrows : s.dstLen.toNat ≤ n.toNat)
    (hgain : n.toNat ≤ s.dstLen.toNat + 15) (hroom : n.toNat ≤ s.cfg.dstCap.toNat) (htoken : 9 ≤ w.toNat)
    (hstream : s.bits.toNat + w.toNat ≤ s.streamLen) : (tokenExecuted w { s with dst := m, dstLen := n }).Inv := by
  obtain ⟨hwfSrc, -, hbelowSrc, -⟩ := h.memoryOk
  obtain ⟨-, -, hseen⟩ := h.outputOk
  obtain ⟨-, htokens, hbytes⟩ := h.decoderOk hseq
  obtain ⟨-, hsrcLen, -⟩ := h.operandsOk (by simp [hseq])
  have hsrcCap := s.cfg.srcCap.isLt
  have hbits : (s.bits + w).toNat = s.bits.toNat + w.toNat := by
    rw [State.streamLen] at hstream
    exact toNat_add_of_lt (by omega)
  refine ⟨⟨hwfSrc, hwf, hbelowSrc, hbelow⟩, h.statusOk, ⟨hroom, hwritten, hseen.trans hgrows⟩, h.operandsOk,
    fun hscan => ?_, fun _ => ⟨?_, ?_, ?_⟩⟩
  · simp [hseq] at hscan
  · rw [tokenExecuted_bits, hbits]
    exact hstream
  · rw [tokenExecuted_bits, hbits, tokenExecuted_tokens, tokens_succ_toNat htokens]
    omega
  · rw [tokenExecuted_tokens, tokens_succ_toNat htokens, tokenExecuted_dstLen]
    show n.toNat ≤ _
    omega

theorem litEffect_keeps_inv {s : State} (b : Byte) (h : s.Inv) (hseq : s.seq = .reading)
    (hstream : s.bits.toNat + 9 ≤ s.streamLen) (hroom : s.dstLen.toNat + 1 ≤ s.cfg.dstCap.toNat) :
    (litEffect b s).Inv := by
  have hdst : (s.dstLen + 1).toNat = s.dstLen.toNat + 1 := append_dstLen_toNat b hroom
  obtain ⟨-, hwfDst, -, hbelowDst⟩ := h.memoryOk
  obtain ⟨-, hwritten, -⟩ := h.outputOk
  have hwritten' := Memory.writtenBelow_append hwritten b
  exact h.decoded hseq (Memory.wf_write hwfDst _ b) (Memory.below_write hbelowDst hroom b) (hdst ▸ hwritten')
    (by omega) (by omega) (by omega) (w := 9) (by decide) hstream

theorem copyEffect_keeps_inv {s : State} (d : BitVec 12) (len : BitVec 4) (h : s.Inv) (hseq : s.seq = .reading)
    (hstream : s.bits.toNat + 17 ≤ s.streamLen) (hdist : s.badDistance d.toNat len.toNat = false)
    (hroom : s.dstLen.toNat + len.toNat ≤ s.cfg.dstCap.toNat) : (copyEffect d.toNat len.toNat s).Inv := by
  have hsource : 0 < len.toNat → 1 ≤ d.toNat ∧ d.toNat ≤ s.dstLen.toNat := by
    rw [Bool.eq_false_iff, ne_eq, State.badDistance_iff] at hdist
    omega
  have hreplay := replayed d.toNat len.toNat hsource hroom
  have hlen := len.isLt
  have hdst := hreplay.dstLen
  obtain ⟨-, hwfDst, -, hbelowDst⟩ := h.memoryOk
  obtain ⟨-, hwritten, -⟩ := h.outputOk
  rw [copyEffect, replay_same]
  exact h.decoded hseq (hreplay.wf hwfDst) (hreplay.below hbelowDst) (hreplay.written hwritten) (by omega) (by omega)
    (by omega) (w := 17) (by decide) hstream

/-! ### A CORE step -/

theorem coreStep_keeps_inv {s t : State} (h : s.Inv) (hstep : coreStep s = .next t) : t.Inv := by
  have hmem := h.memoryOk
  have hout := h.outputOk
  cases coreStep_case hstep with
  | idle => exact h
  | encFull => exact raise_inv _ hmem hout
  | encCopy d len hseq hpos hfind hcap => exact emitCopy_keeps_inv h hseq hfind hcap
  | encLit hseq hpos hfind hcap => exact emitLit_keeps_inv _ h hseq hpos hcap
  | encFinish hseq =>
    obtain ⟨hmem', hout'⟩ := bwFlush_memoryOk_outputOk h hseq
    exact done_inv hmem' hout'
  | decDone => exact done_inv hmem hout
  | decError => exact raise_inv _ hmem hout
  | decLit b p hseq hend htok hstream hroom => exact litEffect_keeps_inv b h hseq hstream hroom
  | decCopy d len p hseq hend htok hstream hdist hroom => exact copyEffect_keeps_inv d len h hseq hstream hdist hroom

/-! ### A host action -/

theorem decodeCommand_ok {v : Word} {i : Instr} (hdec : decodeCommand v = .ok i) :
    i = .nop ∨ i = .encode ∨ i = .decode := by
  unfold decodeCommand at hdec
  split at hdec <;> simp_all

/-- A write to CTRL that answers a next state is the command that it decodes to, while idle (R22, R90). -/
theorem writeCtrl_next {v : Word} {s t : State} (hwrite : writeCtrl v s = .next t) :
    t = s ∨ execEncode s = .next t ∨ execDecode s = .next t := by
  unfold writeCtrl at hwrite
  split at hwrite
  · cases hwrite
  · rename_i hbusy
    split at hwrite
    · rename_i i hdec
      obtain rfl | rfl | rfl := decodeCommand_ok hdec
      · rw [exec, execNop, if_neg hbusy] at hwrite
        exact .inl (Host.Outcome.next.inj hwrite).symm
      · exact .inr (.inl hwrite)
      · exact .inr (.inr hwrite)
    · cases hwrite

/-- A register write that answers a next state is a command, stores an operand while idle, or is ignored (R21). -/
theorem regWrite_next {off width : Nat} {v : Word} {s t : State} (hwrite : regWrite off width v s = .next t) :
    writeCtrl v s = .next t ∨ t = s ∨ s.status.busy = false ∧
      (t = { s with wsize := v, wsizeWritten := true } ∨ t = { s with srcLen := v, srcLenWritten := true }) := by
  unfold regWrite at hwrite
  split at hwrite
  · split at hwrite
    · exact .inl hwrite
    · split at hwrite
      · cases hwrite
      · rename_i hbusy
        exact .inr (.inr ⟨by simpa using hbusy, .inl (Host.Outcome.next.inj hwrite).symm⟩)
    · split at hwrite
      · cases hwrite
      · rename_i hbusy
        exact .inr (.inr ⟨by simpa using hbusy, .inr (Host.Outcome.next.inj hwrite).symm⟩)
    · exact .inr (.inl (Host.Outcome.next.inj hwrite).symm)
  · cases hwrite

/-- A SRC write that answers a next state stores one byte below SRC_CAP while idle (R60). -/
theorem srcWriteStep_next {k : Nat} {b : Byte} {s t : State} (hwrite : srcWriteStep k b s = .next t) :
    k < s.cfg.srcCap.toNat ∧ s.status.busy = false ∧ t = { s with src := Memory.write s.src k b } := by
  unfold srcWriteStep at hwrite
  split at hwrite
  · cases hwrite
  · rename_i hk
    split at hwrite
    · cases hwrite
    · rename_i hbusy
      exact ⟨Nat.lt_of_not_le hk, by simpa using hbusy, (Host.Outcome.next.inj hwrite).symm⟩

theorem writeCtrl_keeps_inv {v : Word} {s t : State} (h : s.Inv) (hwrite : writeCtrl v s = .next t) : t.Inv := by
  obtain rfl | henc | hdec := writeCtrl_next hwrite
  · exact h
  · exact execEncode_keeps_inv h henc
  · exact execDecode_keeps_inv h hdec

/-- SRC_LEN changes only while idle, where the invariant says nothing of it. -/
theorem regWrite_keeps_inv {off width : Nat} {v : Word} {s t : State} (h : s.Inv)
    (hwrite : regWrite off width v s = .next t) : t.Inv := by
  obtain hctrl | rfl | ⟨hbusy, rfl | rfl⟩ := regWrite_next hwrite
  · exact writeCtrl_keeps_inv h hctrl
  · exact h
  · exact h
  · exact .of_idle (h.idle_of_not_busy hbusy) h.memoryOk h.statusOk h.outputOk

/-- A read of DST_LEN makes the length seen that of the output and no larger one. -/
theorem registerRead_inv {s : State} (off : Nat) (h : s.Inv) : (registerRead off s).Inv := by
  obtain ⟨hmem, hstatus, ⟨hroom, hwritten, hseen⟩, hcommand⟩ := h
  refine ⟨hmem, hstatus, ⟨hroom, hwritten, ?_⟩, hcommand⟩
  unfold registerRead
  dsimp only
  split
  · exact max_le hseen le_rfl
  · exact hseen

theorem regReadStep_keeps_inv {off width : Nat} {s t : State} (h : s.Inv) (hread : regReadStep off width s = .next t) :
    t.Inv := by
  unfold regReadStep at hread
  split at hread
  · exact Host.Outcome.next.inj hread ▸ registerRead_inv off h
  · cases hread

theorem srcWriteStep_keeps_inv {k : Nat} {b : Byte} {s t : State} (h : s.Inv)
    (hwrite : srcWriteStep k b s = .next t) : t.Inv := by
  obtain ⟨hk, hbusy, rfl⟩ := srcWriteStep_next hwrite
  obtain ⟨hwfSrc, hwfDst, hbelowSrc, hbelowDst⟩ := h.memoryOk
  exact .of_idle (h.idle_of_not_busy hbusy)
    ⟨Memory.wf_write hwfSrc k b, hwfDst, Memory.below_write hbelowSrc hk b, hbelowDst⟩ h.statusOk h.outputOk

theorem srcReadStep_keeps_inv {k : Nat} {s t : State} (h : s.Inv) (hread : srcReadStep k s = .next t) : t.Inv := by
  unfold srcReadStep at hread
  split at hread
  · cases hread
  · exact Host.Outcome.next.inj hread ▸ h

theorem dstReadStep_keeps_inv {k : Nat} {s t : State} (h : s.Inv) (hread : dstReadStep k s = .next t) : t.Inv := by
  unfold dstReadStep at hread
  split at hread
  · cases hread
  · exact Host.Outcome.next.inj hread ▸ h

/-- DST is not the host's to write (log 12). -/
theorem dstWriteStep_ne_next (k : Nat) (b : Byte) (s t : State) : dstWriteStep k b s ≠ .next t := by
  unfold dstWriteStep
  split
  · simp
  · split <;> simp

theorem hostStep_keeps_inv {a : HostAction} {s t : State} (h : s.Inv) (hstep : hostStep a s = .next t) : t.Inv := by
  cases a with
  | regWrite off width v => exact regWrite_keeps_inv h hstep
  | regRead off width => exact regReadStep_keeps_inv h hstep
  | srcWrite k b => exact srcWriteStep_keeps_inv h hstep
  | srcRead k => exact srcReadStep_keeps_inv h hstep
  | dstWrite k b => exact absurd hstep (dstWriteStep_ne_next k b s t)
  | dstRead k => exact dstReadStep_keeps_inv h hstep
  | reset => exact Host.Outcome.next.inj hstep ▸ resetAll_inv s
  | wait => exact coreStep_keeps_inv h hstep

/-- Settles O52: a step is one of CORE or a host action, taken with the invariant, which does not speak of the host's
list. -/
theorem stepKeepsTheInvariant : Obligations.StepKeepsTheInvariant := by
  intro s t h hstep
  cases hq : s.hostq with
  | nil => exact coreStep_keeps_inv h ((step_of_no_hostAction hq).symm.trans hstep)
  | cons a rest =>
    have h' : State.Inv { s with hostq := rest } := h
    exact hostStep_keeps_inv h' ((step_of_hostAction hq).symm.trans hstep)

end Sys2Proof.Machine
end

section
/-! The output of a running command: DST grows at its end only and the counters of the result do not decrease
(20_memory.md R62, R71). A step ends the command, emits one token or executes one; each of the last two appends. -/

namespace Sys2Proof.Machine

/-- From `s` to `t` DST is only appended to, and DST_LEN, BITS and TOKENS do not decrease. -/
structure OutputGrows (s t : State) : Prop where
  dstLen : s.dstLen.toNat ≤ t.dstLen.toNat
  bits : s.bits.toNat ≤ t.bits.toNat
  tokens : s.tokens.toNat ≤ t.tokens.toNat
  frame : ∀ k, k < s.dstLen.toNat ∨ t.dstLen.toNat ≤ k → Memory.read t.dst k = Memory.read s.dst k

theorem OutputGrows.refl (s : State) : OutputGrows s s := ⟨le_rfl, le_rfl, le_rfl, fun _ _ => rfl⟩

/-! ### The two ends of a command write no output (R206, R239) -/

theorem raise_outputGrows (e : ErrKind) (s : State) : OutputGrows s (raise e s) :=
  ⟨le_rfl, le_rfl, le_rfl, fun _ _ => rfl⟩

theorem OutputGrows.done {s t : State} (h : OutputGrows s t) : OutputGrows s (done t) :=
  ⟨h.dstLen, h.bits, h.tokens, h.frame⟩

/-! ### The encoder -/

/-- A token that passed ENC_CAPCHECK is appended to the writer's stream and counted (R152 to R154). -/
theorem State.Inv.tokenEmitted_outputGrows {s : State} (token : Token) (len : Nat) (h : s.Inv)
    (hseq : s.seq = .scanning) (hcap : ceil8 (s.bits.toNat + token.width) ≤ s.cfg.dstCap.toNat) :
    OutputGrows s (tokenEmitted len ((encodeToken token).foldl (fun u b => bwWriteBit b u) s)) := by
  rw [← encodeToken_length] at hcap
  have hw := h.wrote hseq hcap
  obtain ⟨-, -, -, -, htokens, -⟩ := h.encoderOk hseq
  refine ⟨hw.mono, ?_, ?_, hw.frame⟩
  · rw [tokenEmitted_bits, hw.bits]
    exact Nat.le_add_right _ _
  · rw [tokenEmitted_tokens, hw.same.tokens, tokens_succ_toNat htokens]
    exact Nat.le_succ _

theorem bwFlush_outputGrows {s : State} (h : s.Inv) (hseq : s.seq = .scanning) : OutputGrows s (bwFlush s) := by
  obtain ⟨-, -, hwriter, hcap, -⟩ := h.encoderOk hseq
  obtain ⟨hdst, -, -, hframe, -⟩ := bwFlush_spec hwriter hcap
  refine ⟨?_, by simp, by simp, hframe⟩
  rw [hdst, hwriter.dstLen, ceil8]
  omega

/-! ### The decoder -/

/-- A token of `w` bits within the stream moves CUR without wrapping and is counted (R172, R173). -/
theorem State.Inv.tokenExecuted_outputGrows {s : State} {m : Memory} {n w : Word} (h : s.Inv) (hseq : s.seq = .reading)
    (hstream : s.bits.toNat + w.toNat ≤ s.streamLen) (hgrows : s.dstLen.toNat ≤ n.toNat)
    (hframe : ∀ k, k < s.dstLen.toNat ∨ n.toNat ≤ k → Memory.read m k = Memory.read s.dst k) :
    OutputGrows s (tokenExecuted w { s with dst := m, dstLen := n }) := by
  obtain ⟨-, htokens, -⟩ := h.decoderOk hseq
  obtain ⟨-, hsrcLen, -⟩ := h.operandsOk (by simp [hseq])
  have hsrcCap := s.cfg.srcCap.isLt
  have hbits : (s.bits + w).toNat = s.bits.toNat + w.toNat := by
    rw [State.streamLen] at hstream
    exact toNat_add_of_lt (by omega)
  refine ⟨hgrows, ?_, ?_, hframe⟩
  · rw [tokenExecuted_bits, hbits]
    exact Nat.le_add_right _ _
  · rw [tokenExecuted_tokens, tokens_succ_toNat htokens]
    exact Nat.le_succ _

theorem litEffect_outputGrows {s : State} (b : Byte) (h : s.Inv) (hseq : s.seq = .reading)
    (hstream : s.bits.toNat + 9 ≤ s.streamLen) (hroom : s.dstLen.toNat + 1 ≤ s.cfg.dstCap.toNat) :
    OutputGrows s (litEffect b s) := by
  have hdst : (s.dstLen + 1).toNat = s.dstLen.toNat + 1 := append_dstLen_toNat b hroom
  exact h.tokenExecuted_outputGrows hseq (w := 9) hstream (by omega)
    fun k hk => Memory.read_write_other s.dst b (by omega)

theorem copyEffect_outputGrows {s : State} {d len : Nat} (h : s.Inv) (hseq : s.seq = .reading)
    (hstream : s.bits.toNat + 17 ≤ s.streamLen) (hdist : s.badDistance d len = false)
    (hroom : s.dstLen.toNat + len ≤ s.cfg.dstCap.toNat) : OutputGrows s (copyEffect d len s) := by
  have hsource : 0 < len → 1 ≤ d ∧ d ≤ s.dstLen.toNat := by
    rw [Bool.eq_false_iff, ne_eq, State.badDistance_iff] at hdist
    omega
  have hreplay := replayed d len hsource hroom
  rw [copyEffect, replay_same]
  exact h.tokenExecuted_outputGrows hseq (w := 17) hstream (hreplay.dstLen ▸ Nat.le_add_right _ _) hreplay.frame

/-! ### A CORE step -/

theorem coreStep_outputGrows {s t : State} (h : s.Inv) (hstep : coreStep s = .next t) : OutputGrows s t := by
  cases coreStep_case hstep with
  | idle => exact .refl s
  | encFull => exact raise_outputGrows _ s
  | encCopy d len hseq hpos hfind hcap =>
    obtain ⟨-, hwindow, -, hmax, -⟩ := mfFind_bounds hfind
    have hwin := s.ewsize.isLt
    rw [emitCopy_eq_of_lt (by omega) (by omega)]
    exact h.tokenEmitted_outputGrows _ len hseq hcap
  | encLit hseq hpos hfind hcap =>
    rw [emitLit_eq]
    exact h.tokenEmitted_outputGrows _ 1 hseq hcap
  | encFinish hseq => exact (bwFlush_outputGrows h hseq).done
  | decDone => exact (OutputGrows.refl s).done
  | decError e => exact raise_outputGrows e s
  | decLit b p hseq hend htok hstream hroom => exact litEffect_outputGrows b h hseq hstream hroom
  | decCopy d len p hseq hend htok hstream hdist hroom => exact copyEffect_outputGrows h hseq hstream hdist hroom

/-- Settles O55: each end of a CORE step only appends, and the invariant it keeps has DST_LEN within DST_CAP, which no
step changes. -/
theorem outputIsAppendOnly : Obligations.OutputIsAppendOnly := by
  intro s t h hstep
  have hgrows := coreStep_outputGrows h hstep
  obtain ⟨hroom, -⟩ := (coreStep_keeps_inv h hstep).outputOk
  obtain ⟨-, -, -, -, -, -, hcfg, -⟩ := coreNeverWritesTheHostsState s t hstep
  exact ⟨hgrows.dstLen, hgrows.bits, hgrows.tokens, hcfg ▸ hroom, hgrows.frame⟩

end Sys2Proof.Machine
end

section
/-! The host's accesses to SRC and DST (20_memory.md R60, R61, R71): when each one answers a next state, which, and the
byte that a read of DST returns. -/

namespace Sys2Proof.Machine

/-! ### A write to SRC -/

theorem srcWriteStep_of_idle {s : State} {k : Nat} (b : Byte) (hk : k < s.cfg.srcCap.toNat)
    (hbusy : s.status.busy = false) : srcWriteStep k b s = .next { s with src := Memory.write s.src k b } := by
  rw [srcWriteStep, if_neg (Nat.not_le.2 hk), if_neg (by simp [hbusy])]

/-- Settles O16: the write is `Memory.write` of SRC. -/
theorem hostSrcWriteReachesOneByte : Obligations.HostSrcWriteReachesOneByte := by
  intro s k b rest hq hk hbusy
  have hstep : step s = .next { s with hostq := rest, src := Memory.write s.src k b } :=
    (step_of_hostAction hq).trans (srcWriteStep_of_idle b hk hbusy)
  exact ⟨_, hstep, rfl, Memory.read_write_same s.src k b, fun _ hj => Memory.read_write_other s.src b hj⟩

/-! ### A read of DST -/

theorem dstReadStep_of_lt {s : State} {k : Nat} (hk : k < s.cfg.dstCap.toNat) :
    dstReadStep k s = .next { s with hostData := .byte (s.hostDstByte k), draws := s.draws + 1 } := by
  rw [dstReadStep, if_neg (Nat.not_le.2 hk)]

/-- The byte stored at an index is what the host reads there, unless BUSY and the index not below a DST_LEN it has
read. -/
theorem State.hostDstByte_of_final {s : State} {k : Nat} {b : Byte} (hb : Memory.read s.dst k = some b)
    (hfinal : s.status.busy = true → k < s.seenLen) : s.hostDstByte k = b := by
  have hspecified : ¬ (s.status.busy && decide (s.seenLen ≤ k)) = true := by
    simpa using hfinal
  rw [State.hostDstByte, if_neg hspecified, hb, Option.getD_some]

/-- DST lists only indices that exist (R60). -/
theorem State.MemoryOk.lt_dstCap {s : State} {k : Nat} {b : Byte} (h : s.MemoryOk) (hb : Memory.read s.dst k = some b) :
    k < s.cfg.dstCap.toNat := by
  obtain ⟨-, -, -, hbelow⟩ := h
  refine Nat.lt_of_not_le fun hk => ?_
  simp [Memory.read_none_of_below hbelow hk] at hb

/-- Below a DST_LEN that the host has read, DST holds a byte (R71). -/
theorem State.OutputOk.isSome_of_seen {s : State} {k : Nat} (h : s.OutputOk) (hk : k < s.seenLen) :
    (Memory.read s.dst k).isSome = true := by
  obtain ⟨-, hwritten, hseen⟩ := h
  exact (Memory.writtenBelow_iff _ _).1 hwritten k (hk.trans_le hseen)

/-- Settles O17: in both cases DST holds a byte at the index, and the read is not one of those left unspecified. -/
theorem hostDstReadsReturnFinalBytes : Obligations.HostDstReadsReturnFinalBytes := by
  intro s k rest h hq hcase
  have hlisted : (Memory.read s.dst k).isSome = true := by
    obtain ⟨-, hlisted⟩ | ⟨-, hseen⟩ := hcase
    · exact hlisted
    · exact h.outputOk.isSome_of_seen hseen
  have hfinal : s.status.busy = true → k < s.seenLen := by
    obtain ⟨hidle, -⟩ | ⟨-, hseen⟩ := hcase
    · simp [hidle]
    · exact fun _ => hseen
  obtain ⟨b, hb⟩ := Option.isSome_iff_exists.1 hlisted
  let r : State := { s with hostq := rest }
  have hbyte : r.hostDstByte k = b := State.hostDstByte_of_final hb hfinal
  have hstep : step s = .next { r with hostData := .byte b, draws := r.draws + 1 } :=
    hbyte ▸ (step_of_hostAction hq).trans (dstReadStep_of_lt (s := r) (h.memoryOk.lt_dstCap hb))
  exact ⟨_, b, hstep, rfl, hb, rfl⟩

end Sys2Proof.Machine
end

section
/-! Tokens and their bits (30_encoding.md R81 to R88): what the decoder reads at a flag, one equation per flag, from
which the decoder and the encoder undo each other in both directions, at any position of any stream; and the commands
(R90), whose decoding depends on bits [1:0] of the value alone. -/

namespace Sys2Proof

/-! ### Reads of bits that are present (R107, R108) -/

theorem readBit_of_lt {bit : Nat → Bool} {T p : Nat} (hp : p < T) : readBit bit T p = .value (bit p).toNat (p + 1) :=
  if_neg (Nat.not_le.2 hp)

theorem readBits_of_le {bit : Nat → Bool} {T p k : Nat} (hp : p + k ≤ T) :
    readBits bit T p k = .value (fieldAt bit p k) (p + k) :=
  if_neg (Nat.not_lt.2 hp)

/-! ### Where a list of bits stands in a stream -/

/-- The bits of `l` stand in the stream from position `p` on. -/
def BitsStand (bit : Nat → Bool) (p : Nat) (l : List Bool) : Prop :=
  ∀ j < l.length, bit (p + j) = l.getD j false

theorem bitsStand_cons {bit : Nat → Bool} {p : Nat} {b : Bool} {l : List Bool} :
    BitsStand bit p (b :: l) ↔ bit p = b ∧ BitsStand bit (p + 1) l := by
  constructor
  · exact fun h => ⟨h 0 (Nat.zero_lt_succ _), fun j hj => by
      simpa [Nat.add_assoc, Nat.add_comm 1] using h (j + 1) (Nat.succ_lt_succ hj)⟩
  · rintro ⟨hhead, htail⟩ (_ | j) hj
    · exact hhead
    · simpa [Nat.add_assoc, Nat.add_comm 1] using htail j (Nat.lt_of_succ_lt_succ hj)

theorem bitsStand_append {bit : Nat → Bool} {p : Nat} {l l' : List Bool} :
    BitsStand bit p (l ++ l') ↔ BitsStand bit p l ∧ BitsStand bit (p + l.length) l' := by
  induction l generalizing p with
  | nil => simp [BitsStand]
  | cons b l ih => simp [bitsStand_cons, ih, and_assoc, Nat.add_assoc, Nat.add_comm 1]

/-- A list stands at position 0 of the stream that it is. -/
theorem bitsStand_self (l : List Bool) : BitsStand (fun k => l.getD k false) 0 l := fun j _ => by
  rw [Nat.zero_add]

/-- A list that stands at position 0 of the stream of a list of the same length is that list. -/
theorem eq_of_bitsStand {l l' : List Bool} (h : BitsStand (fun k => l.getD k false) 0 l')
    (hlen : l'.length = l.length) : l' = l :=
  List.ext_getElem hlen fun j hj' hj => by simpa [hj, hj'] using (h j hj').symm

/-- A field where the bits of `v` stand reads `v` (R11). -/
theorem fieldAt_of_bitsStand {bit : Nat → Bool} {p v k : Nat} (hv : v < 2 ^ k)
    (hbits : BitsStand bit p (bitsMsb v k)) : fieldAt bit p k = v :=
  fieldAt_eq hv fun j hj => (hbits j (by simpa using hj)).trans (bitsMsb_getD v hj)

/-- The bits of the field at a position stand there. -/
theorem bitsStand_fieldAt (bit : Nat → Bool) (p k : Nat) : BitsStand bit p (bitsMsb (fieldAt bit p k) k) := by
  intro j hj
  rw [bitsMsb_length] at hj
  exact (fieldAt_testBit bit p hj).symm.trans (bitsMsb_getD _ hj).symm

/-! ### The decoder, one equation per flag (R81 to R84) -/

/-- The token that the fields of a LIT at position `p` make (R82). -/
def litAt (bit : Nat → Bool) (p : Nat) : Token := .lit (BitVec.ofNat 8 (fieldAt bit (p + 1) 8))

/-- The token that the fields of a COPY at position `p` make (R83, R84). -/
def copyAt (bit : Nat → Bool) (p : Nat) : Token :=
  .copy (fieldDistance (fieldAt bit (p + 1) 8) (fieldAt bit (p + 9) 8)) (fieldLength (fieldAt bit (p + 9) 8))

theorem decodeToken_of_flag_false {bit : Nat → Bool} {T p : Nat} (hflag : bit p = false) (hT : p + 9 ≤ T) :
    decodeToken bit T p = .ok (litAt bit p, p + 9) := by
  have hbyte : readBits bit T (p + 1) 8 = .value (fieldAt bit (p + 1) 8) (p + 9) := readBits_of_le (by omega)
  simp [decodeToken, litAt, readBit_of_lt (show p < T by omega), hflag, hbyte]

theorem decodeToken_of_flag_true {bit : Nat → Bool} {T p : Nat} (hflag : bit p = true) (hT : p + 17 ≤ T) :
    decodeToken bit T p = .ok (copyAt bit p, p + 17) := by
  have hbyte1 : readBits bit T (p + 1) 8 = .value (fieldAt bit (p + 1) 8) (p + 9) := readBits_of_le (by omega)
  have hbyte2 : readBits bit T (p + 9) 8 = .value (fieldAt bit (p + 9) 8) (p + 17) := readBits_of_le (by omega)
  simp [decodeToken, copyAt, readBit_of_lt (show p < T by omega), hflag, hbyte1, hbyte2]

/-! ### The bits of a token, and where they stand -/

theorem bitsStand_lit_iff {bit : Nat → Bool} {p : Nat} {b : Byte} :
    BitsStand bit p (encodeToken (.lit b)) ↔ bit p = false ∧ BitsStand bit (p + 1) (bitsMsb b.toNat 8) :=
  bitsStand_cons

theorem bitsStand_copy_iff {bit : Nat → Bool} {p : Nat} {d : BitVec 12} {len : BitVec 4} :
    BitsStand bit p (encodeToken (.copy d len)) ↔
      bit p = true ∧ BitsStand bit (p + 1) (bitsMsb (packByte1 d.toNat) 8) ∧
        BitsStand bit (p + 9) (bitsMsb (packByte2 d.toNat len.toNat) 8) := by
  rw [encodeToken, bitsStand_cons, bitsStand_append, bitsMsb_length]

theorem litAt_of_bitsStand {bit : Nat → Bool} {p : Nat} {b : Byte}
    (hbyte : BitsStand bit (p + 1) (bitsMsb b.toNat 8)) : litAt bit p = .lit b := by
  rw [litAt, fieldAt_of_bitsStand b.isLt hbyte, BitVec.ofNat_toNat, BitVec.setWidth_eq]

theorem copyAt_of_bitsStand {bit : Nat → Bool} {p : Nat} {d : BitVec 12} {len : BitVec 4}
    (hbyte1 : BitsStand bit (p + 1) (bitsMsb (packByte1 d.toNat) 8))
    (hbyte2 : BitsStand bit (p + 9) (bitsMsb (packByte2 d.toNat len.toNat) 8)) : copyAt bit p = .copy d len := by
  rw [copyAt, fieldAt_of_bitsStand (packByte1_lt d.isLt) hbyte1,
    fieldAt_of_bitsStand (packByte2_lt d.toNat len.isLt) hbyte2, fieldDistance_pack, fieldLength_pack]

/-- No bit of a LIT pattern is dropped (R88). -/
theorem bitsStand_litAt {bit : Nat → Bool} {p : Nat} (hflag : bit p = false) :
    BitsStand bit p (encodeToken (litAt bit p)) := by
  have hbyte : (BitVec.ofNat 8 (fieldAt bit (p + 1) 8)).toNat = fieldAt bit (p + 1) 8 :=
    Nat.mod_eq_of_lt (fieldAt_lt bit (p + 1) 8)
  rw [litAt, bitsStand_lit_iff, hbyte]
  exact ⟨hflag, bitsStand_fieldAt bit (p + 1) 8⟩

/-- No bit of a COPY pattern is dropped (R88). -/
theorem bitsStand_copyAt {bit : Nat → Bool} {p : Nat} (hflag : bit p = true) :
    BitsStand bit p (encodeToken (copyAt bit p)) := by
  obtain ⟨hbyte1, hbyte2⟩ := pack_fields (fieldAt_lt bit (p + 1) 8) (fieldAt_lt bit (p + 9) 8)
  rw [copyAt, bitsStand_copy_iff, hbyte1, hbyte2]
  exact ⟨hflag, bitsStand_fieldAt bit (p + 1) 8, bitsStand_fieldAt bit (p + 9) 8⟩

/-! ### The decoder undoes the encoder, at any position of any stream -/

theorem decodeToken_of_bitsStand {t : Token} {bit : Nat → Bool} {T p : Nat}
    (hbits : BitsStand bit p (encodeToken t)) (hT : p + t.width ≤ T) :
    decodeToken bit T p = .ok (t, p + t.width) := by
  cases t with
  | lit b =>
    obtain ⟨hflag, hbyte⟩ := bitsStand_lit_iff.1 hbits
    exact litAt_of_bitsStand hbyte ▸ decodeToken_of_flag_false hflag hT
  | copy d len =>
    obtain ⟨hflag, hbyte1, hbyte2⟩ := bitsStand_copy_iff.1 hbits
    exact copyAt_of_bitsStand hbyte1 hbyte2 ▸ decodeToken_of_flag_true hflag hT

/-- Settles O2: the first bit gives the flag, and each 8-bit field reads the byte whose bits stand there. -/
theorem tokenDecodesWhereItsBitsStand : Obligations.TokenDecodesWhereItsBitsStand := by
  intro t bit T p hbits hT
  exact decodeToken_of_bitsStand (fun j hj => hbits j (encodeToken_length t ▸ hj)) hT

/-! ### A list of bits that is one token -/

/-- The bits of a token, and no bit more, are that token: they stand at position 0 of the stream that they are. -/
theorem decodeTokenBits_encodeToken (t : Token) : decodeTokenBits (encodeToken t) = .ok t := by
  have hread := decodeToken_of_bitsStand (bitsStand_self (encodeToken t))
    ((Nat.zero_add _).trans (encodeToken_length t).symm).le
  rw [decodeTokenBits, hread, Nat.zero_add, encodeToken_length]
  exact if_pos rfl

/-- The first bit of a list is the flag of the stream that the list is. -/
theorem getD_zero_of_head? {l : List Bool} {b : Bool} (hhead : l.head? = some b) : l.getD 0 false = b := by
  rw [List.getD_eq_getElem?_getD, ← List.head?_eq_getElem?, hhead, Option.getD_some]

/-- Every pattern of R88 is the encoding of the token that its fields make. -/
theorem exists_encodeToken_eq {l : List Bool}
    (hl : l.length = 9 ∧ l.head? = some false ∨ l.length = 17 ∧ l.head? = some true) : ∃ t, encodeToken t = l := by
  obtain ⟨hlen, hhead⟩ | ⟨hlen, hhead⟩ := hl
  · exact ⟨_, eq_of_bitsStand (bitsStand_litAt (getD_zero_of_head? hhead)) ((encodeToken_length _).trans hlen.symm)⟩
  · exact ⟨_, eq_of_bitsStand (bitsStand_copyAt (getD_zero_of_head? hhead)) ((encodeToken_length _).trans hlen.symm)⟩

/-- Settles O3: the pattern is the encoding of a token, and a token's encoding decodes to that token. -/
theorem everyPatternIsOneToken : Obligations.EveryPatternIsOneToken := by
  intro l hl
  obtain ⟨t, rfl⟩ := exists_encodeToken_eq hl
  exact ⟨t, decodeTokenBits_encodeToken t, rfl, (encodeToken_length t).symm⟩

/-! ### Instructions and their words (R92) -/

theorem decode_encodeToken (t : Token) : decode (.token (encodeToken t)) = .ok t.toInstr := by
  rw [decode, decodeTokenBits_encodeToken]

/-- The instructions that have words are the tokens and the three commands (R92). -/
theorem encode_eq_some {i : Instr} {c : Code} (henc : encode i = some c) :
    (∃ t : Token, i = t.toInstr ∧ c = .token (encodeToken t)) ∨
      i = .nop ∧ c = .ctrl 0 ∨ i = .encode ∧ c = .ctrl 1 ∨ i = .decode ∧ c = .ctrl 2 := by
  cases i with
  | lit b => exact .inl ⟨.lit b, rfl, (Option.some.inj henc).symm⟩
  | copy d len => exact .inl ⟨.copy d len, rfl, (Option.some.inj henc).symm⟩
  | nop => exact .inr (.inl ⟨rfl, (Option.some.inj henc).symm⟩)
  | encode => exact .inr (.inr (.inl ⟨rfl, (Option.some.inj henc).symm⟩))
  | decode => exact .inr (.inr (.inr ⟨rfl, (Option.some.inj henc).symm⟩))
  | _ => cases henc

/-- Settles O4: a token's bits decode to it, and each command's value is one closed fact. -/
theorem decodeEncodeAgree : Obligations.DecodeEncodeAgree := by
  intro i c _ henc
  obtain ⟨t, rfl, rfl⟩ | ⟨rfl, rfl⟩ | ⟨rfl, rfl⟩ | ⟨rfl, rfl⟩ := encode_eq_some henc
  · exact decode_encodeToken t
  · rfl
  · rfl
  · rfl

/-- Settles O1: nine fixed words, each decoded by evaluation. -/
theorem specWordsDecode : Obligations.SpecWordsDecode := by
  unfold Obligations.SpecWordsDecode
  decide

/-! ### The commands (R90) -/

/-- A value written to CTRL decodes as its bits [1:0] alone do. -/
theorem decodeCommand_eq_lowBits (v : Word) : decodeCommand v = decodeCommand ((v.extractLsb' 0 2).setWidth 32) := by
  have hlow : ((v.extractLsb' 0 2).setWidth 32).toNat % 4 = v.toNat % 4 := by simp
  rw [decodeCommand, decodeCommand, hlow]

theorem decodeCommand_of_lowBits {v : Word} {cmd : BitVec 2} (hcmd : v.extractLsb' 0 2 = cmd) :
    decodeCommand v = decodeCommand (cmd.setWidth 32) :=
  hcmd ▸ decodeCommand_eq_lowBits v

end Sys2Proof

namespace Sys2Proof.Machine

/-! ### A write to CTRL while idle (R22, R90) -/

theorem writeCtrl_of_ok {s : State} {v : Word} {i : Instr} (hbusy : s.status.busy = false)
    (hdec : decodeCommand v = .ok i) : writeCtrl v s = exec i s := by
  simp [writeCtrl, hbusy, hdec]

theorem writeCtrl_of_error {s : State} {v : Word} {e : DecodeError} (hbusy : s.status.busy = false)
    (hdec : decodeCommand v = .error e) : writeCtrl v s = .refused .reservedCommand := by
  simp [writeCtrl, hbusy, hdec]

theorem step_of_ctrlWrite {s : State} {v : Word} {rest : List HostAction} (hq : s.hostq = .regWrite 0x00 4 v :: rest) :
    step s = writeCtrl v { s with hostq := rest } :=
  step_of_hostAction hq

/-- Settles O7: the write reaches CTRL, which runs what the value decodes to. -/
theorem stepRunsTheWrittenCommand : Obligations.StepRunsTheWrittenCommand := by
  intro s v i rest hbusy hq hdec
  exact (step_of_ctrlWrite hq).trans (writeCtrl_of_ok (s := { s with hostq := rest }) hbusy hdec)

/-- Settles O5: the low two bits alone fix what the value decodes to, and that is what the write runs (O7). -/
theorem commandDecodedByItsLowTwoBits : Obligations.CommandDecodedByItsLowTwoBits := by
  intro v s rest hbusy hq
  have hruns : ∀ i, decodeCommand v = .ok i → decodeCommand v = .ok i ∧ step s = exec i { s with hostq := rest } :=
    fun i hdec => ⟨hdec, stepRunsTheWrittenCommand s v i rest hbusy hq hdec⟩
  refine ⟨fun h => hruns .nop (decodeCommand_of_lowBits h), fun h => hruns .encode (decodeCommand_of_lowBits h),
    fun h => hruns .decode (decodeCommand_of_lowBits h), fun h => ?_⟩
  have hdec : decodeCommand v = .error .reservedCommand := decodeCommand_of_lowBits h
  exact ⟨hdec, (step_of_ctrlWrite hq).trans (writeCtrl_of_error (s := { s with hostq := rest }) hbusy hdec)⟩

end Sys2Proof.Machine
end

section
/-! The bit reader (40_bit_channel.md R105 to R110): when a read is Exhausted, what the end test asks, and each
operation's next state as one equation, SRC holding every byte of the stream. -/

namespace Sys2Proof

/-! ### Reads and the end test, of any stream (R107 to R109) -/

theorem readBit_eq_exhausted_iff {bit : Nat → Bool} {T p : Nat} : readBit bit T p = .exhausted ↔ T ≤ p := by
  by_cases hp : T ≤ p
  · simp [readBit, hp]
  · simp [readBit_of_lt (Nat.lt_of_not_le hp), hp]

theorem readBits_eq_exhausted_iff {bit : Nat → Bool} {T p k : Nat} :
    readBits bit T p k = .exhausted ↔ T < p + k := by
  by_cases hp : T < p + k
  · simp [readBits, hp]
  · simp [readBits_of_le (Nat.le_of_not_lt hp), hp]

/-- Settles O31: the field that a read answers has the stream's bits, first bit most significant. -/
theorem readsAreMsbFirst : Obligations.ReadsAreMsbFirst := by
  intro bytes T p k
  exact ⟨readBit_eq_exhausted_iff, readBit_of_lt, readBits_eq_exhausted_iff, fun hp =>
    ⟨fieldAt (streamBit bytes) p k, fieldAt_lt _ p k, readBits_of_le hp, fun _ hj => fieldAt_testBit _ p hj⟩⟩

/-- The end test asks its `T - p` bits by their distance from `p`. -/
theorem cleanEnd_eq_true_iff {bit : Nat → Bool} {T p : Nat} :
    cleanEnd bit T p = true ↔ T - p < 8 ∧ ∀ j < T - p, bit (p + j) = false := by
  simp [cleanEnd]

/-- Settles O32: the bits at distances below `T - p` from `p` are those at the positions from `p` to `T`. -/
theorem cleanEndIsZeroPadding : Obligations.CleanEndIsZeroPadding := by
  intro bit T p hp
  rw [cleanEnd_eq_true_iff]
  refine and_congr_right fun _ => ⟨fun hzero q hpq hqT => ?_, fun hzero j hj => hzero (p + j) (by omega) (by omega)⟩
  have hq := hzero (q - p) (by omega)
  rwa [Nat.add_sub_cancel' hpq] at hq

end Sys2Proof

namespace Sys2Proof.Machine

/-! ### The reader's operations (R106 to R110) -/

/-- Where SRC_LEN fits SRC, SRC has every byte that a bit of the stream stands in (R61). -/
theorem State.not_srcLacks_of_le_streamLen {s : State} {m : Nat} (hcap : s.srcLen.toNat ≤ s.cfg.srcCap.toNat)
    (hm : m ≤ s.streamLen) : ¬ s.srcLacks (ceil8 m) = true := by
  rw [State.srcLacks_iff, ceil8]
  rw [State.streamLen] at hm
  omega

/-- An operation that draws no free value writes the model's own `ret` alone (log 10). -/
theorem returned_false (r : OpResult) (s : State) : returned r false s = { s with ret := r } := rfl

theorem exec_brRemaining_of_le {s : State} {p : Nat} (hp : p ≤ s.streamLen) :
    exec (.brRemaining p) s = .next { s with ret := .bits (s.streamLen - p) } := by
  have harm : exec (.brRemaining p) s = .next (returned (.bits (s.remaining p)) (decide (s.streamLen < p)) s) := rfl
  rw [harm, State.remaining_eq hp, decide_eq_false (Nat.not_lt.2 hp), returned_false]

theorem exec_brReadBit_of_fits {s : State} (p : Nat) (hcap : s.srcLen.toNat ≤ s.cfg.srcCap.toNat) :
    exec (.brReadBit p) s = .next { s with ret := .read (readBit s.streamBit s.streamLen p) } :=
  if_neg fun ⟨hp, hlacks⟩ => State.not_srcLacks_of_le_streamLen hcap hp hlacks

theorem exec_brReadBits_of_fits {s : State} (p k : Nat) (hcap : s.srcLen.toNat ≤ s.cfg.srcCap.toNat) :
    exec (.brReadBits p k) s = .next { s with ret := .read (readBits s.streamBit s.streamLen p k) } :=
  if_neg fun ⟨_, hp, hlacks⟩ => State.not_srcLacks_of_le_streamLen hcap hp hlacks

theorem exec_brCleanEnd_of_fits {s : State} {p : Nat} (hcap : s.srcLen.toNat ≤ s.cfg.srcCap.toNat)
    (hp : p ≤ s.streamLen) :
    exec (.brCleanEnd p) s = .next { s with ret := .test (cleanEnd s.streamBit s.streamLen p) } := by
  have harm : exec (.brCleanEnd p) s = .next (returned (.test (s.cleanEndAt p)) (decide (s.streamLen < p)) s) :=
    if_neg fun ⟨_, _, hlong⟩ => Nat.not_lt.2 hcap (State.srcTooLong_iff.1 hlong)
  rw [harm, State.cleanEndAt_eq hp, decide_eq_false (Nat.not_lt.2 hp), returned_false]

/-- Settles O30: the equations of the four operations. -/
theorem readerOperationsWriteNothing : Obligations.ReaderOperationsWriteNothing := by
  intro p k s
  exact ⟨exec_brRemaining_of_le, fun hcap =>
    ⟨exec_brReadBit_of_fits p hcap, exec_brReadBits_of_fits p k hcap, exec_brCleanEnd_of_fits hcap⟩⟩

end Sys2Proof.Machine
end

section
/-! The bit writer (40_bit_channel.md R100 to R104): each operation's next state, BW_WRITEBIT and BW_FLUSH as one
equation per branch of their pseudocode, and the stream that a field and a list of bits leave. -/

namespace Sys2Proof.Machine

/-! ### The two initialisations (R100, R105) -/

/-- Settles O25: both are assignments from every state. -/
theorem channelInitialisation : Obligations.ChannelInitialisation := fun _ => ⟨rfl, rfl⟩

/-! ### One bit (R101) -/

theorem bwWriteBit_of_last {s : State} (b : Bool) (hn : s.bwN = 7) :
    bwWriteBit b s = clearWriter (append (accWith s.bwAcc s.bwN b) { s with bits := s.bits + 1 }) :=
  if_pos hn

theorem bwWriteBit_of_not_last {s : State} (b : Bool) (hn : s.bwN ≠ 7) :
    bwWriteBit b s = { s with bits := s.bits + 1, bwAcc := accWith s.bwAcc s.bwN b, bwN := s.bwN + 1 } :=
  if_neg hn

/-- A 0 bit leaves the accumulator, a 1 bit sets the next write position. -/
theorem accWith_eq (acc : Byte) (n : BitVec 3) (b : Bool) :
    accWith acc n b = acc ||| (if b then (1 : Byte) <<< (7 - n.toNat) else 0) := by
  cases b with
  | false => simp [accWith]
  | true => rfl

theorem bwWriteBit_same (b : Bool) (s : State) : SameButWriter s (bwWriteBit b s) := by
  by_cases hn : s.bwN = 7
  · rw [bwWriteBit_of_last b hn]; rfl
  · rw [bwWriteBit_of_not_last b hn]; rfl

/-- One bit completes a byte only at BW_N = 7. -/
theorem exec_bwWriteBit_of_room {s : State} (b : Bool) (hroom : s.bwN = 7 → s.dstLen.toNat < s.cfg.dstCap.toNat) :
    exec (.bwWriteBit b) s = .next (bwWriteBit b s) := by
  refine if_pos (State.writerRoom_iff.2 fun hbyte => ?_)
  have hn : s.bwN.toNat = 7 := by omega
  have hlt := hroom (BitVec.eq_of_toNat_eq hn)
  omega

/-- Settles O26: BW_WRITEBIT is its pseudocode, one equation per branch. -/
theorem writeBitTakesOneBit : Obligations.WriteBitTakesOneBit := by
  intro b s hroom
  refine ⟨bwWriteBit b s, accWith s.bwAcc s.bwN b, exec_bwWriteBit_of_room b hroom, bwWriteBit_bits s b,
    bwWriteBit_same b s, accWith_eq s.bwAcc s.bwN b, fun hn => ?_, fun hn => ?_⟩
  · rw [bwWriteBit_of_not_last b hn]
    exact ⟨rfl, rfl, rfl, rfl⟩
  · rw [bwWriteBit_of_last b hn]
    exact ⟨rfl, rfl, rfl, Memory.read_write_same s.dst _ _, fun _ hk => Memory.read_write_other s.dst _ hk⟩

/-! ### The flush (R103) -/

theorem bwFlush_of_empty {s : State} (hn : s.bwN = 0) : bwFlush s = s := if_pos hn

theorem bwFlush_of_partial {s : State} (hn : s.bwN ≠ 0) : bwFlush s = clearWriter (append s.bwAcc s) := if_neg hn

theorem bwFlush_same (s : State) : SameButWriter s (bwFlush s) := by
  by_cases hn : s.bwN = 0
  · rw [bwFlush_of_empty hn]; rfl
  · rw [bwFlush_of_partial hn]; rfl

theorem exec_bwFlush_of_room {s : State} (hroom : s.bwN ≠ 0 → s.dstLen.toNat < s.cfg.dstCap.toNat) :
    exec .bwFlush s = .next (bwFlush s) :=
  if_pos (State.flushRoom_iff.2 hroom)

/-- Settles O28: BW_FLUSH is its pseudocode, one equation per branch. -/
theorem flushAppendsThePartialByte : Obligations.FlushAppendsThePartialByte := by
  intro s hroom
  refine ⟨bwFlush s, exec_bwFlush_of_room hroom, bwFlush_same s, bwFlush_bits s, bwFlush_bwN s, bwFlush_of_empty,
    fun hn => ?_⟩
  rw [bwFlush_of_partial hn]
  exact ⟨rfl, rfl, Memory.read_write_same s.dst _ _, fun _ hk => Memory.read_write_other s.dst _ hk⟩

/-! ### A field (R102) -/

/-- The field's bits, most significant first, are what BW_WRITEBITS appends. -/
theorem bwWriteBits_wrote {s : State} (v k : Nat) (hok : s.WriterOk)
    (hroom : s.dstLen.toNat + (s.bwN.toNat + k) / 8 ≤ s.cfg.dstCap.toNat) :
    Wrote s (bwWriteBits v k s) (bitsMsb v k) := by
  rw [bwWriteBits_eq_foldl]
  exact Wrote.list (bitsMsb v k) hok (Nat.le_of_add_right_le hroom) (by rwa [bitsMsb_length])

theorem exec_bwWriteBits_of_room {s : State} (v k : Nat)
    (hroom : s.dstLen.toNat + (s.bwN.toNat + k) / 8 ≤ s.cfg.dstCap.toNat) :
    exec (.bwWriteBits v k) s = .next (bwWriteBits v k s) :=
  if_pos (State.writerRoom_iff.2 fun _ => hroom)

/-- Settles O27: what a list of bits keeps and gives, for the list of the field's bits. -/
theorem writeBitsAppendsAField : Obligations.WriteBitsAppendsAField := by
  intro v k s _ _ hok hroom
  have hw := bwWriteBits_wrote v k hok hroom
  have hlen := bitsMsb_length v k
  refine ⟨_, exec_bwWriteBits_of_room v k hroom, hw.same, hw.ok, hw.bits.trans (by rw [hlen]), hw.old,
    fun j hj => ?_, hw.frame⟩
  exact (hw.new j (hlen.symm ▸ hj)).trans (bitsMsb_getD v hj)

/-! ### The writer invariant (R104) -/

theorem bwInit_writerOk (s : State) : (bwInit s).WriterOk := ⟨rfl, fun _ _ => by simp⟩

/-- From an empty writer, any bits for which DST has room: BITS counts them and the writer's stream is those bits. -/
theorem Wrote.ofInit (l : List Bool) {s : State} (hroom : ceil8 l.length ≤ s.cfg.dstCap.toNat) :
    Wrote (bwInit s) (l.foldl (fun u b => bwWriteBit b u) (bwInit s)) l := by
  refine Wrote.list l (bwInit_writerOk s) (Nat.zero_le _) ?_
  have hbytes : l.length / 8 ≤ ceil8 l.length := Nat.div_le_div_right (Nat.le_add_right _ _)
  simpa using hbytes.trans hroom

/-- The flush moves the writer's stream, which is the bits written, to DST and pads it with zeros. -/
theorem Wrote.flushed {s t : State} {l : List Bool} (hw : Wrote (bwInit s) t l)
    (hroom : ceil8 l.length ≤ s.cfg.dstCap.toNat) :
    (bwFlush t).bits.toNat = l.length ∧ (bwFlush t).dstLen.toNat = ceil8 l.length ∧
    (∀ k < l.length, Sys2Proof.streamBit (bwFlush t).dstByte k = l.getD k false) ∧
    ∀ k, l.length ≤ k → k < 8 * ceil8 l.length → Sys2Proof.streamBit (bwFlush t).dstByte k = false := by
  have hbits : t.bits.toNat = l.length := by simpa using hw.bits
  have hcap : ceil8 t.bits.toNat ≤ t.cfg.dstCap.toNat := by rwa [hbits, hw.same.cfg]
  obtain ⟨hlen, hstream, hpad, -⟩ := bwFlush_spec hw.ok hcap
  rw [hbits] at hlen hstream hpad
  have hwritten : ∀ k < l.length, t.writerBit k = l.getD k false := fun k hk => by simpa using hw.new k hk
  exact ⟨bwFlush_bits t ▸ hbits, hlen, fun k hk => (hstream k hk).trans (hwritten k hk), hpad⟩

/-- Settles O29: the flush of what writing the bits from an empty writer leaves. -/
theorem writerStreamIsTheBitsWritten : Obligations.WriterStreamIsTheBitsWritten :=
  fun l _ hroom => ⟨_, rfl, (Wrote.ofInit l hroom).flushed hroom⟩

end Sys2Proof.Machine
end

section
/-! The match finder (41_match_finder.md R130 to R139): the tiled comparison as the overlapped copy, the closed form of
MF_FIND's two loops, and, from the closed form, its bounds and its corner cases. -/

namespace Sys2Proof.Machine

/-! ### The tiled comparison (R133, R137) -/

/-- Byte `k` of the repeated span is the byte one distance before `i + k`: in the span itself for `k` below the distance,
and after it because the comparison held there. -/
theorem spanByte_eq_byteBefore {inp : Nat → Byte} {i i' k : Nat} (hi : i' < i)
    (hprev : i - i' ≤ k → inp (i + (k - (i - i'))) = inp (i' + (k - (i - i')) % (i - i'))) :
    inp (i' + k % (i - i')) = inp (i + k - (i - i')) := by
  rcases Nat.lt_or_ge k (i - i') with hk | hk
  · rw [Nat.mod_eq_of_lt hk, show i + k - (i - i') = i' + k by omega]
  · rw [Nat.mod_eq_sub_mod hk, ← hprev hk, Nat.add_sub_assoc hk]

/-- The overlapped-copy condition (R137). -/
theorem tileMatch_iff_byteBefore {inp : Nat → Byte} {i i' len : Nat} (hi : i' < i) :
    tileMatch inp i i' len = true ↔ ∀ k < len, inp (i + k) = inp (i + k - (i - i')) := by
  rw [tileMatch_iff]
  constructor
  · intro htile k hk
    exact (htile k hk).trans (spanByte_eq_byteBefore hi fun _ => htile _ (by omega))
  · intro hcopy k
    induction k using Nat.strong_induction_on with
    | _ k ih =>
      intro hk
      exact (hcopy k hk).trans (spanByte_eq_byteBefore hi fun _ => ih _ (by omega) (by omega)).symm

/-- Settles O33: the loop's own condition, and the overlapped-copy condition. -/
theorem tileMatchIsTheOverlapCopyCondition : Obligations.TileMatchIsTheOverlapCopyCondition :=
  fun inp i i' len hi => ⟨tileMatch_iff inp i i' len, tileMatch_iff_byteBefore hi⟩

/-- The comparison reads the span and the `len` bytes from the position on. -/
theorem tileMatch_congr {inp inp' : Nat → Byte} {i i' len : Nat} (hi : i' < i)
    (hagree : ∀ k, i' ≤ k → k < i + len → inp' k = inp k) : tileMatch inp' i i' len = tileMatch inp i i' len := by
  rw [Bool.eq_iff_iff, tileMatch_iff, tileMatch_iff]
  refine forall₂_congr fun k hk => ?_
  have hspan := Nat.mod_lt k (Nat.sub_pos_of_lt hi)
  rw [hagree (i + k) (by omega) (by omega), hagree (i' + k % (i - i')) (by omega) (by omega)]

/-- On one repeated byte every comparison that ends within the input holds. -/
theorem tileMatch_of_constant {inp : Nat → Byte} {n i i' len : Nat} (hconst : ∀ j k, j < n → k < n → inp j = inp k)
    (hi : i' < i) (hend : i + len ≤ n) : tileMatch inp i i' len = true :=
  (tileMatch_iff_byteBefore hi).2 fun _ _ => hconst _ _ (by omega) (by omega)

/-! ### The closed form (R136) -/

/-- `len` is the longest candidate length at which an offset of the window matches, and `i'` is the smallest offset that
matches at it. -/
def LongestMatch (inp : Nat → Byte) (n w i i' len : Nat) : Prop :=
  2 ≤ len ∧ len ≤ min 14 (n - i - 1) ∧ i - w ≤ i' ∧ i' < i ∧ tileMatch inp i i' len = true ∧
    (∀ j, i - w ≤ j → j < i' → tileMatch inp i j len = false) ∧
    ∀ len' j, len < len' → len' ≤ min 14 (n - i - 1) → i - w ≤ j → j < i → tileMatch inp i j len' = false

/-- The second of two such lengths is not the longer one. -/
theorem LongestMatch.len_le {inp : Nat → Byte} {n w i i₁ i₂ len₁ len₂ : Nat} (h₁ : LongestMatch inp n w i i₁ len₁)
    (h₂ : LongestMatch inp n w i i₂ len₂) : len₂ ≤ len₁ := by
  obtain ⟨-, -, -, -, -, -, hlonger⟩ := h₁
  obtain ⟨-, hcap, hlo, hlt, hmatch, -⟩ := h₂
  by_contra hlen
  simp [hlonger len₂ i₂ (by omega) hcap hlo hlt] at hmatch

/-- Of two such offsets at one length, the second is not the smaller one. -/
theorem LongestMatch.offset_le {inp : Nat → Byte} {n w i i₁ i₂ len : Nat} (h₁ : LongestMatch inp n w i i₁ len)
    (h₂ : LongestMatch inp n w i i₂ len) : i₁ ≤ i₂ := by
  obtain ⟨-, -, -, -, -, hsmaller, -⟩ := h₁
  obtain ⟨-, -, hlo, -, hmatch, -⟩ := h₂
  by_contra hoff
  simp [hsmaller i₂ hlo (by omega)] at hmatch

theorem LongestMatch.unique {inp : Nat → Byte} {n w i i₁ i₂ len₁ len₂ : Nat} (h₁ : LongestMatch inp n w i i₁ len₁)
    (h₂ : LongestMatch inp n w i i₂ len₂) : i₁ = i₂ ∧ len₁ = len₂ := by
  obtain rfl := Nat.le_antisymm (h₂.len_le h₁) (h₁.len_le h₂)
  exact ⟨Nat.le_antisymm (h₁.offset_le h₂) (h₂.offset_le h₁), rfl⟩

/-- MF_FIND's two answers: none, where nothing matches at any candidate length; or the longest match (R134). -/
theorem mfFind_cases (inp : Nat → Byte) (n w i : Nat) :
    (mfFind inp n w i = none ∧
      ∀ len ∈ candLengths n i, ∀ i', i - w ≤ i' → i' < i → tileMatch inp i i' len = false) ∨
    ∃ i' len, mfFind inp n w i = some (i - i', len) ∧ LongestMatch inp n w i i' len := by
  obtain ⟨hzero, hnone⟩ | ⟨i', hdist, hlen, hlo, hlt, hmatch, hsmaller, hlonger⟩ := best_bestMatch inp n w i
  · exact .inl ⟨by simp [mfFind, hzero], hnone⟩
  · obtain ⟨hmin, hcap⟩ := (mem_candLengths n i _).1 hlen
    refine .inr ⟨i', (bestMatch inp n w i).1, ?_, hmin, hcap, hlo, hlt, hmatch, hsmaller, ?_⟩
    · rw [mfFind, ← hdist]
      exact if_pos ⟨by omega, by omega⟩
    · intro len' j hlen' hcap' hjlo hjlt
      exact hlonger len' ((mem_candLengths n i len').2 ⟨by omega, hcap'⟩) hlen' j hjlo hjlt

theorem mfFind_eq_some_iff {inp : Nat → Byte} {n w i d len : Nat} :
    mfFind inp n w i = some (d, len) ↔ ∃ i', d = i - i' ∧ LongestMatch inp n w i i' len := by
  obtain ⟨hfind, hnone⟩ | ⟨i₀, len₀, hfind, hbest⟩ := mfFind_cases inp n w i
  · rw [hfind]
    refine ⟨fun hsome => by simp at hsome, ?_⟩
    rintro ⟨i', -, hmin, hcap, hlo, hlt, hmatch, -⟩
    simp [hnone len ((mem_candLengths n i len).2 ⟨hmin, hcap⟩) i' hlo hlt] at hmatch
  · rw [hfind, Option.some.injEq, Prod.mk.injEq]
    constructor
    · rintro ⟨rfl, rfl⟩
      exact ⟨i₀, rfl, hbest⟩
    · rintro ⟨i', rfl, hbest'⟩
      obtain ⟨rfl, rfl⟩ := hbest.unique hbest'
      exact ⟨rfl, rfl⟩

/-- A match at any candidate length is one at length 2, so length 2 alone decides whether there is one (R136). -/
theorem mfFind_eq_none_iff {inp : Nat → Byte} {n w i : Nat} :
    mfFind inp n w i = none ↔ min 14 (n - i - 1) < 2 ∨
      ∀ i', i - w ≤ i' → i' < i → tileMatch inp i i' 2 = false := by
  obtain ⟨hfind, hnone⟩ | ⟨i₀, len₀, hfind, hmin, hcap, hlo, hlt, hmatch, -⟩ := mfFind_cases inp n w i
  · refine iff_of_true hfind ((Nat.lt_or_ge _ 2).imp_right fun hcap => ?_)
    exact hnone 2 ((mem_candLengths n i 2).2 ⟨Nat.le_refl 2, hcap⟩)
  · refine iff_of_false (by simp [hfind]) ?_
    have hmatch2 := tileMatch_shorter hmatch hmin
    rintro (hshort | hnone)
    · omega
    · simp [hnone i₀ hlo hlt] at hmatch2

/-- Settles O34: shorter lengths match too, and when each of the two answers is given. -/
theorem findMatchClosedForm : Obligations.FindMatchClosedForm :=
  fun _ _ _ _ => ⟨fun _ len hmatch => tileMatch_shorter hmatch (Nat.le_succ len), mfFind_eq_none_iff,
    fun _ _ => mfFind_eq_some_iff⟩

/-! ### The bytes read, and the bounds (R138) -/

/-- Both loops make their comparisons within `IN[lo(i) .. i + cap(i))`. -/
theorem bestMatch_congr {inp inp' : Nat → Byte} {n w i : Nat}
    (hagree : ∀ k, i - w ≤ k → k < i + min 14 (n - i - 1) → inp' k = inp k) :
    bestMatch inp' n w i = bestMatch inp n w i := by
  refine List.foldl_ext _ _ _ fun best len hlen => List.foldl_ext _ _ _ fun best' i' hoff => ?_
  obtain ⟨-, hcap⟩ := (mem_candLengths n i len).1 hlen
  obtain ⟨hlo, hlt⟩ := (mem_candOffsets w i i').1 hoff
  rw [tryCandidate, tryCandidate, tileMatch_congr hlt fun k hk hend => hagree k (by omega) (by omega)]

/-- Settles O35: the longest match is within the bounds of the two loops, which read no other bytes. -/
theorem findMatchBounds : Obligations.FindMatchBounds := by
  intro inp n w i d len hw hi
  constructor
  · intro hfind
    obtain ⟨i', rfl, hmin, hcap, hlo, hlt, -⟩ := mfFind_eq_some_iff.1 hfind
    omega
  · intro inp' hagree
    rw [mfFind, mfFind, bestMatch_congr hagree]

/-! ### The corner cases (R139) -/

/-- With a window of 1 the only offset is the byte before, so a match is a run of it. -/
theorem mfFind_window_one {inp : Nat → Byte} {n i d len : Nat} (hfind : mfFind inp n 1 i = some (d, len)) :
    d = 1 ∧ ∀ k < len, inp (i + k) = inp (i - 1) := by
  obtain ⟨i', rfl, -, -, hlo, hlt, hmatch, -⟩ := mfFind_eq_some_iff.1 hfind
  obtain rfl : i' = i - 1 := by omega
  have hdist : i - (i - 1) = 1 := by omega
  rw [tileMatch_iff, hdist] at hmatch
  exact ⟨hdist, fun k hk => by simpa [Nat.mod_one] using hmatch k hk⟩

/-- On one repeated byte the lowest offset of the window matches at the highest candidate length. -/
theorem mfFind_of_constant {inp : Nat → Byte} {n w i : Nat} (hconst : ∀ j k, j < n → k < n → inp j = inp k)
    (hw : 1 ≤ w) (hi : 1 ≤ i) (hn : 3 ≤ n - i) :
    mfFind inp n w i = some (min i w, min 14 (n - i - 1)) := by
  refine mfFind_eq_some_iff.2 ⟨i - w, by omega, by omega, Nat.le_refl _, Nat.le_refl _, by omega,
    tileMatch_of_constant hconst (by omega) (by omega), ?_, ?_⟩ <;> omega

/-- Settles O36: no offset, no candidate length, a window of one offset, one repeated byte, no match. -/
theorem findMatchCornerCases : Obligations.FindMatchCornerCases := by
  intro inp n w i _ hw
  refine ⟨?_, ?_, ?_, fun hconst hi hn => mfFind_of_constant hconst hw hi hn,
    fun hnone => mfFind_eq_none_iff.2 (.inr hnone)⟩
  · rintro rfl
    exact mfFind_eq_none_iff.2 (.inr fun i' _ hlt => absurd hlt (Nat.not_lt_zero i'))
  · exact fun hn => mfFind_eq_none_iff.2 (.inl (by omega))
  · rintro rfl d len
    exact mfFind_window_one

/-! ### The two operations (R130, R133, R134) -/

theorem exec_mfTileMatch_of_not_lacks {s : State} {i i' len : Nat} (hi : i' < i)
    (hlacks : s.tileLacks i i' len = false) :
    exec (.mfTileMatch i i' len) s = .next { s with ret := .test (tileMatch s.srcByte i i' len) } :=
  (if_pos hi).trans (if_neg (by simp [hlacks]))

theorem exec_mfFind_of_fits {s : State} (i : Nat) (hcap : s.srcLen.toNat ≤ s.cfg.srcCap.toNat) :
    exec (.mfFind i) s = .next { s with ret := .found (s.findMatch i) } :=
  if_neg (by simp [State.findLacks_of_le i hcap])

/-- Settles O37: neither operation comes to a byte that SRC lacks. -/
theorem matchFinderOperationsWriteNothing : Obligations.MatchFinderOperationsWriteNothing := by
  intro i i' len s
  refine ⟨fun hi hbytes => exec_mfTileMatch_of_not_lacks hi ?_, fun _ hcap => exec_mfFind_of_fits i hcap⟩
  obtain hfits | ⟨k, hk, -, hdiff⟩ := hbytes
  · exact State.tileLacks_of_le i' hfits
  · exact State.tileLacks_of_ne len hk hdiff

end Sys2Proof.Machine
end

section
/-! The encoder's instructions (42_encoder.md R150 to R156, R159): NOP, the start of ENCODE and its errors, the emission
of one token with its capacity check, and the final flush. -/

namespace Sys2Proof

/-- The number of input bytes that a token stands for, by which its emission moves POS (R152, R153). -/
def Token.inputLen : Token → Nat
  | .lit _ => 1
  | .copy _ len => len.toNat

end Sys2Proof

namespace Sys2Proof.Machine

/-! ### NOP (R159) -/

theorem exec_nop_of_idle {s : State} (hbusy : s.status.busy = false) : exec .nop s = .next s :=
  if_neg (by simp [hbusy])

/-- Settles O18: bits [1:0] of the value written decode to NOP (O5), which answers the state itself. -/
theorem nopHasNoEffect : Obligations.NopHasNoEffect := by
  intro s hbusy
  refine ⟨exec_nop_of_idle hbusy, ?_⟩
  rintro u v rest hq rfl hcmd
  obtain ⟨hnop, -⟩ := commandDecodedByItsLowTwoBits v u rest hbusy hq
  obtain ⟨-, hstep⟩ := hnop hcmd
  exact hstep.trans (exec_nop_of_idle hbusy)

/-! ### The window (R155) -/

/-- The clamped value fits the 12 bits of EWSIZE, so none is cut off. -/
theorem wclamp_toNat (v : Word) : ((wclamp v).toNat : Int) = min 4095 (max 1 v.toInt) := by
  rw [wclamp, BitVec.toNat_ofInt]
  simp only [Config.wMax, Config.wMin]
  omega

/-- Settles O22: the value, and with it its two bounds. -/
theorem windowClampIsTheIntegerClamp : Obligations.WindowClampIsTheIntegerClamp := by
  intro v
  have hvalue := wclamp_toNat v
  exact ⟨hvalue, by omega, by omega⟩

/-! ### The start of ENCODE (R150) -/

/-- The window check of a start passes: the block does not reject windows, or this one is valid (R203). -/
def State.AcceptsWindow (s : State) : Prop := s.cfg.rejectInvalidWindow = true → windowValid s.wsize = true

/-- The window check as R150 tests it. -/
theorem State.acceptsWindow_iff {s : State} :
    s.AcceptsWindow ↔ (s.cfg.rejectInvalidWindow && !windowValid s.wsize) = false := by
  rw [State.AcceptsWindow]
  cases s.cfg.rejectInvalidWindow <;> simp

theorem State.not_srcTooLong {s : State} (hfits : s.srcLen.toNat ≤ s.cfg.srcCap.toNat) : ¬ s.srcTooLong = true :=
  fun hlong => Nat.not_lt.2 hfits (State.srcTooLong_iff.1 hlong)

theorem exec_encode_of_operands {s : State} (hbusy : s.status.busy = false) (hwsize : s.wsizeWritten = true)
    (hlen : s.srcLenWritten = true) (hsrc : s.sourceWritten = true) : exec .encode s = .next (startEncode s) := by
  simp [exec, execEncode, hbusy, hwsize, hlen, hsrc]

theorem startEncode_of_rejected {s : State} (hreject : ¬ s.AcceptsWindow) :
    startEncode s = raise .invalidWindowSize (commandStart .encode s) := by
  rw [State.acceptsWindow_iff, Bool.not_eq_false] at hreject
  exact if_pos hreject

theorem startEncode_of_tooLong {s : State} (haccept : s.AcceptsWindow) (hlong : s.cfg.srcCap.toNat < s.srcLen.toNat) :
    startEncode s = raise .capacityExceeded { commandStart .encode s with ewsize := wclamp s.wsize } := by
  rw [State.acceptsWindow_iff, ← Bool.not_eq_true] at haccept
  exact (if_neg haccept).trans (if_pos (State.srcTooLong_iff.2 hlong))

theorem startEncode_of_accepted {s : State} (haccept : s.AcceptsWindow) (hfits : s.srcLen.toNat ≤ s.cfg.srcCap.toNat) :
    startEncode s = encodeStarted s := by
  rw [State.acceptsWindow_iff, ← Bool.not_eq_true] at haccept
  exact (if_neg haccept).trans (if_neg (State.not_srcTooLong (s := s) hfits))

/-- Settles O19: with its operands written and both checks passed, ENCODE answers the started state. -/
theorem encodeStartsScanning : Obligations.EncodeStartsScanning := by
  intro s hbusy hwsize hlen hsrc hfits haccept
  rw [exec_encode_of_operands hbusy hwsize hlen hsrc, startEncode_of_accepted haccept hfits]
  rfl

/-- Settles O20: the window check raises before EWSIZE is set, the capacity check after it. -/
theorem encodeStartErrors : Obligations.EncodeStartErrors := by
  intro s hbusy hwsize hlen hsrc
  rw [exec_encode_of_operands hbusy hwsize hlen hsrc]
  constructor
  · intro hrejects hinvalid
    have hreject : ¬ s.AcceptsWindow := fun haccept => by
      have hvalid := windowValid_iff.1 (haccept hrejects)
      omega
    rw [startEncode_of_rejected hreject]
    exact ⟨_, rfl, rfl, rfl, rfl, rfl, rfl, rfl, rfl, rfl⟩
  · intro hvalid hlong
    rw [startEncode_of_tooLong (fun hrejects => windowValid_iff.2 (hvalid hrejects)) hlong]
    exact ⟨_, rfl, rfl, rfl, rfl, rfl, rfl, rfl, rfl, rfl⟩

/-! ### The emission of a token (R152 to R154) -/

/-- What the emission of a token writes once it fits: its bits, POS and TOKENS (R152, R153). -/
def emitToken (t : Token) (s : State) : State :=
  tokenEmitted t.inputLen ((encodeToken t).foldl (fun u b => bwWriteBit b u) s)

/-- The COPY token of a distance and a length that fit their fields (R85, R138). -/
abbrev copyToken (d len : Nat) : Token := .copy (BitVec.ofNat 12 d) (BitVec.ofNat 4 len)

theorem inputLen_copyToken (d : Nat) {len : Nat} (hlen : len < 16) : (copyToken d len).inputLen = len :=
  Nat.mod_eq_of_lt hlen

theorem emitCopy_eq_emitToken {d len : Nat} (hd : d < 4096) (hlen : len < 16) (s : State) :
    emitCopy d len s = emitToken (copyToken d len) s := by
  rw [emitCopy_eq_of_lt hd hlen, emitToken, inputLen_copyToken d hlen]

theorem emitLit_eq_emitToken (b : Byte) (s : State) : emitLit b s = emitToken (.lit b) s := emitLit_eq b s

/-- Passing ENC_CAPCHECK is room for each Append of the token (R63, R154). -/
theorem State.WriterOk.writerRoom {s : State} {w : Nat} (hok : s.WriterOk)
    (hcap : ceil8 (s.bits.toNat + w) ≤ s.cfg.dstCap.toNat) : s.writerRoom w = true :=
  State.writerRoom_iff.2 fun _ => (hok.room hcap).1

theorem State.not_encFull {s : State} {w : Nat} (hcap : ceil8 (s.bits.toNat + w) ≤ s.cfg.dstCap.toNat) :
    ¬ s.encFull w = true :=
  fun hfull => Nat.not_lt.2 hcap (State.encFull_iff.1 hfull)

theorem exec_encEmitCopy_of_full {s : State} (d len : Nat) (hfull : s.cfg.dstCap.toNat < ceil8 (s.bits.toNat + 17)) :
    exec (.encEmitCopy d len) s = .next (raise .capacityExceeded s) :=
  if_pos (State.encFull_iff.2 hfull)

theorem exec_encEmitLit_of_full {s : State} (b : Byte) (hfull : s.cfg.dstCap.toNat < ceil8 (s.bits.toNat + 9)) :
    exec (.encEmitLit b) s = .next (raise .capacityExceeded s) :=
  if_pos (State.encFull_iff.2 hfull)

theorem exec_encEmitCopy_of_fits {s : State} {d len : Nat} (hd : d < 4096) (hlen : len < 16) (hok : s.WriterOk)
    (hcap : ceil8 (s.bits.toNat + 17) ≤ s.cfg.dstCap.toNat) :
    exec (.encEmitCopy d len) s = .next (emitToken (copyToken d len) s) := by
  have harm : exec (.encEmitCopy d len) s = .next (emitCopy d len s) :=
    (if_neg (State.not_encFull hcap)).trans (if_pos (hok.writerRoom hcap))
  rw [harm, emitCopy_eq_emitToken hd hlen]

theorem exec_encEmitLit_of_fits {s : State} (b : Byte) (hok : s.WriterOk)
    (hcap : ceil8 (s.bits.toNat + 9) ≤ s.cfg.dstCap.toNat) :
    exec (.encEmitLit b) s = .next (emitToken (.lit b) s) := by
  have harm : exec (.encEmitLit b) s = .next (emitLit b s) :=
    (if_neg (State.not_encFull hcap)).trans (if_pos (hok.writerRoom hcap))
  rw [harm, emitLit_eq_emitToken]

/-- A token that fits is appended to the writer's stream, moves POS over its input and is counted. -/
theorem emitToken_appends {s : State} (t : Token) (hok : s.WriterOk)
    (hcap : ceil8 (s.bits.toNat + t.width) ≤ s.cfg.dstCap.toNat) :
    SameButWriter { s with pos := s.pos + t.inputLen, tokens := s.tokens + 1 } (emitToken t s) ∧
    (emitToken t s).WriterOk ∧ (emitToken t s).bits.toNat = s.bits.toNat + t.width ∧
    (∀ k < s.bits.toNat, (emitToken t s).writerBit k = s.writerBit k) ∧
    (∀ j < t.width, (emitToken t s).writerBit (s.bits.toNat + j) = (encodeToken t).getD j false) ∧
    ∀ a, a < s.dstLen.toNat ∨ (emitToken t s).dstLen.toNat ≤ a →
      Memory.read (emitToken t s).dst a = Memory.read s.dst a := by
  rw [← encodeToken_length] at hcap ⊢
  obtain ⟨hroom, hdst⟩ := hok.room hcap
  exact (Wrote.list (encodeToken t) hok hdst hroom).emitted t.inputLen

/-- Settles O38: the token is the COPY of the operands, which fit their fields. -/
theorem emitCopyAppendsItsToken : Obligations.EmitCopyAppendsItsToken := by
  intro d len s hwf hok hcap
  obtain ⟨hd, hlen⟩ : d < 4096 ∧ len < 16 := by
    simp only [WellFormed, Bool.and_eq_true, decide_eq_true_eq] at hwf
    omega
  have happends := emitToken_appends (copyToken d len) hok hcap
  rw [inputLen_copyToken d hlen] at happends
  exact ⟨_, exec_encEmitCopy_of_fits hd hlen hok hcap, happends⟩

/-- Settles O39: the token is the LIT of the operand. -/
theorem emitLitAppendsItsToken : Obligations.EmitLitAppendsItsToken :=
  fun b _ hok hcap => ⟨_, exec_encEmitLit_of_fits b hok hcap, emitToken_appends (.lit b) hok hcap⟩

/-- While Scanning, an error keeps POS (R154). -/
theorem raise_pos_of_scanning {s : State} (e : ErrKind) (hseq : s.seq = .scanning) : (raise e s).pos = s.pos := by
  rw [raise_pos, State.posAtEnd, hseq]

/-- Settles O40: ENC_CAPCHECK comes before the token, and `raise` writes no output. -/
theorem tokenThatDoesNotFitWritesNothing : Obligations.TokenThatDoesNotFitWritesNothing := fun _ =>
  ⟨fun hfull d len => exec_encEmitCopy_of_full d len hfull, fun hfull b => exec_encEmitLit_of_full b hfull,
    rfl, rfl, rfl, rfl, raise_pos_of_scanning _⟩

/-! ### The end of the input (R156) -/

theorem exec_encFinish_of_room {s : State} (hseq : s.seq = .scanning) (hpos : s.pos = s.srcLen.toNat)
    (hroom : s.bwN ≠ 0 → s.dstLen.toNat < s.cfg.dstCap.toNat) : exec .encFinish s = .next (done (bwFlush s)) :=
  (if_pos ⟨hseq, hpos⟩).trans (if_pos (State.flushRoom_iff.2 hroom))

/-- While Scanning, a successful end writes STATUS and SEQ and keeps POS (R156, R239). -/
theorem done_of_scanning {s : State} (hseq : s.seq = .scanning) :
    done s = { s with status := s.status.finish, seq := .idle, draws := s.draws + 1 } := by
  rw [done, State.posAtEnd, hseq]

/-- At the end of a running ENCODE, all but STATUS and SEQ is what the flush left. -/
theorem done_bwFlush_same {s : State} (hseq : s.seq = .scanning) :
    SameButWriter { s with seq := .idle, status := { s.status with busy := false, done := true },
                           draws := (done (bwFlush s)).draws } (done (bwFlush s)) := by
  rw [done_of_scanning ((bwFlush_seq s).trans hseq)]
  simp [SameButWriter, Status.finish]

/-- Settles O42: ENC_FINISH is the flush, one equation per branch, and the end of the command. -/
theorem encodeFinishFlushesAndEnds : Obligations.EncodeFinishFlushesAndEnds := by
  intro s hseq hpos hroom
  refine ⟨_, exec_encFinish_of_room hseq hpos hroom, done_bwFlush_same hseq, bwFlush_bits s, bwFlush_bwN s,
    fun hn => ?_, fun hn => ?_⟩
  · rw [bwFlush_of_empty hn]
    exact ⟨rfl, rfl, rfl⟩
  · rw [bwFlush_of_partial hn]
    exact ⟨rfl, rfl, Memory.read_write_same s.dst _ _, fun _ hk => Memory.read_write_other s.dst _ hk⟩

end Sys2Proof.Machine
end

section
/-! A running ENCODE (42_encoder.md R151, R156, R157): CORE's step as a function of the state, which emits the match
finder's token at POS, ends with CapacityExceeded where it does not fit, and finishes at the input's end; and, by
induction over the input that is left, the end of the command and the size of its stream. -/

namespace Sys2Proof.Machine

/-! ### The token at POS (R151) -/

/-- The token that ENC_STEP emits: the match found at POS, or the byte at POS where there is none (R151). -/
def State.greedyToken (s : State) : Token :=
  match s.findMatch s.pos with
  | some (d, len) => copyToken d len
  | none => .lit (s.srcByte s.pos)

theorem State.greedyToken_of_some {s : State} {d len : Nat} (hfind : s.findMatch s.pos = some (d, len)) :
    s.greedyToken = copyToken d len := by
  rw [State.greedyToken, hfind]

theorem State.greedyToken_of_none {s : State} (hfind : s.findMatch s.pos = none) :
    s.greedyToken = .lit (s.srcByte s.pos) := by
  rw [State.greedyToken, hfind]

/-- MF_FIND's operands fit the fields of the token (R138). -/
theorem State.findMatch_fits {s : State} {i d len : Nat} (hfind : s.findMatch i = some (d, len)) :
    d < 4096 ∧ len < 16 := by
  obtain ⟨-, hwindow, -, hmax, -⟩ := mfFind_bounds hfind
  have hwin := s.ewsize.isLt
  omega

/-- The token is a LIT for 1 byte or a COPY for 2 to 14 bytes (R138, R157). -/
theorem State.greedyToken_size (s : State) :
    (s.greedyToken.width = 9 ∧ s.greedyToken.inputLen = 1) ∨
    (s.greedyToken.width = 17 ∧ 2 ≤ s.greedyToken.inputLen ∧ s.greedyToken.inputLen ≤ 14) := by
  cases hfind : s.findMatch s.pos with
  | none =>
    rw [State.greedyToken_of_none hfind]
    exact .inl ⟨rfl, rfl⟩
  | some m =>
    obtain ⟨d, len⟩ := m
    obtain ⟨-, -, hmin, hmax, -⟩ := mfFind_bounds hfind
    rw [State.greedyToken_of_some hfind, inputLen_copyToken d (by omega)]
    exact .inr ⟨rfl, hmin, hmax⟩

/-- The token does not pass the input's end (R138). -/
theorem State.greedyToken_within {s : State} (hpos : s.pos < s.srcLen.toNat) :
    s.pos + s.greedyToken.inputLen ≤ s.srcLen.toNat := by
  cases hfind : s.findMatch s.pos with
  | none =>
    rw [State.greedyToken_of_none hfind]
    exact hpos
  | some m =>
    obtain ⟨d, len⟩ := m
    obtain ⟨-, -, -, hmax, hend⟩ := mfFind_bounds hfind
    rw [State.greedyToken_of_some hfind, inputLen_copyToken d (by omega)]
    exact hend.le

/-! ### ENC_STEP (R151) -/

theorem State.Inv.writerOk {s : State} (h : s.Inv) (hseq : s.seq = .scanning) : s.WriterOk := by
  obtain ⟨-, -, hwriter, -⟩ := h.encoderOk hseq
  exact hwriter

theorem State.Inv.srcLen_le_srcCap {s : State} (h : s.Inv) (hseq : s.seq = .scanning) :
    s.srcLen.toNat ≤ s.cfg.srcCap.toNat := by
  obtain ⟨-, hfits, -⟩ := h.operandsOk (by simp [hseq])
  exact hfits

theorem exec_encStep_of_some {s : State} {d len : Nat} (hseq : s.seq = .scanning) (hpos : s.pos < s.srcLen.toNat)
    (hfits : s.srcLen.toNat ≤ s.cfg.srcCap.toNat) (hfind : s.findMatch s.pos = some (d, len)) :
    exec .encStep s = exec (.encEmitCopy d len) s := by
  refine (if_pos ⟨hseq, hpos⟩).trans ((if_neg (State.not_srcTooLong hfits)).trans ?_)
  rw [hfind]
  rfl

theorem exec_encStep_of_none {s : State} (hseq : s.seq = .scanning) (hpos : s.pos < s.srcLen.toNat)
    (hfits : s.srcLen.toNat ≤ s.cfg.srcCap.toNat) (hfind : s.findMatch s.pos = none) :
    exec .encStep s = exec (.encEmitLit (s.srcByte s.pos)) s := by
  refine (if_pos ⟨hseq, hpos⟩).trans ((if_neg (State.not_srcTooLong hfits)).trans ?_)
  rw [hfind]
  rfl

/-- The token at POS does not fit DST (R154). -/
def State.TokenFull (s : State) : Prop := s.cfg.dstCap.toNat < ceil8 (s.bits.toNat + s.greedyToken.width)

theorem exec_encStep_of_full {s : State} (h : s.Inv) (hseq : s.seq = .scanning) (hpos : s.pos < s.srcLen.toNat)
    (hfull : s.TokenFull) : exec .encStep s = .next (raise .capacityExceeded s) := by
  have hfits := h.srcLen_le_srcCap hseq
  rw [State.TokenFull] at hfull
  cases hfind : s.findMatch s.pos with
  | none =>
    rw [State.greedyToken_of_none hfind] at hfull
    rw [exec_encStep_of_none hseq hpos hfits hfind, exec_encEmitLit_of_full _ hfull]
  | some m =>
    obtain ⟨d, len⟩ := m
    rw [State.greedyToken_of_some hfind] at hfull
    rw [exec_encStep_of_some hseq hpos hfits hfind, exec_encEmitCopy_of_full d len hfull]

theorem exec_encStep_of_not_full {s : State} (h : s.Inv) (hseq : s.seq = .scanning) (hpos : s.pos < s.srcLen.toNat)
    (hroom : ¬ s.TokenFull) : exec .encStep s = .next (emitToken s.greedyToken s) := by
  have hfits := h.srcLen_le_srcCap hseq
  rw [State.TokenFull, Nat.not_lt] at hroom
  cases hfind : s.findMatch s.pos with
  | none =>
    rw [State.greedyToken_of_none hfind] at hroom ⊢
    rw [exec_encStep_of_none hseq hpos hfits hfind, exec_encEmitLit_of_fits _ (h.writerOk hseq) hroom]
  | some m =>
    obtain ⟨d, len⟩ := m
    obtain ⟨hd, hlen⟩ := State.findMatch_fits hfind
    rw [State.greedyToken_of_some hfind] at hroom ⊢
    rw [exec_encStep_of_some hseq hpos hfits hfind, exec_encEmitCopy_of_fits hd hlen (h.writerOk hseq) hroom]

/-! ### What an emission leaves as it was, and what it moves (R152, R153) -/

theorem writeBits_same (l : List Bool) (s : State) : SameButWriter s (l.foldl (fun u b => bwWriteBit b u) s) := by
  induction l generalizing s with
  | nil => exact .refl s
  | cons b l ih => exact (bwWriteBit_same b s).trans (ih (bwWriteBit b s))

theorem emitToken_same (t : Token) (s : State) :
    SameButWriter { s with pos := s.pos + t.inputLen, tokens := s.tokens + 1 } (emitToken t s) :=
  congrArg (tokenEmitted t.inputLen) (writeBits_same (encodeToken t) s).eq

theorem emitToken_cfg (t : Token) (s : State) : (emitToken t s).cfg = s.cfg := (emitToken_same t s).cfg
theorem emitToken_tokens (t : Token) (s : State) : (emitToken t s).tokens = s.tokens + 1 := (emitToken_same t s).tokens
theorem emitToken_pos (t : Token) (s : State) : (emitToken t s).pos = s.pos + t.inputLen := (emitToken_same t s).pos
theorem emitToken_srcLen (t : Token) (s : State) : (emitToken t s).srcLen = s.srcLen := (emitToken_same t s).srcLen
theorem emitToken_seq (t : Token) (s : State) : (emitToken t s).seq = s.seq := (emitToken_same t s).seq

/-- A COPY's 17 bits are the most that a token takes. -/
theorem State.not_tokenFull_of_copy_fits {s : State} (hcap : ceil8 (s.bits.toNat + 17) ≤ s.cfg.dstCap.toNat) :
    ¬ s.TokenFull := by
  have hsize := s.greedyToken_size
  rw [State.TokenFull, ceil8]
  rw [ceil8] at hcap
  omega

/-- Settles O41: the two equations of ENC_STEP by MF_FIND's answer, and its next state by the capacity check. -/
theorem encodeStepEmitsTheGreedyToken : Obligations.EncodeStepEmitsTheGreedyToken := by
  intro s h hseq hpos
  have hfits := h.srcLen_le_srcCap hseq
  refine ⟨?_, fun d len => exec_encStep_of_some hseq hpos hfits, exec_encStep_of_none hseq hpos hfits, fun hcap => ?_⟩
  · by_cases hfull : s.TokenFull
    · exact ⟨_, exec_encStep_of_full h hseq hpos hfull⟩
    · exact ⟨_, exec_encStep_of_not_full h hseq hpos hfull⟩
  · have hsize := s.greedyToken_size
    have hwithin := State.greedyToken_within hpos
    refine ⟨_, exec_encStep_of_not_full h hseq hpos (State.not_tokenFull_of_copy_fits hcap), emitToken_tokens _ s,
      ?_, ?_, (emitToken_seq _ s).trans hseq⟩
    · rw [emitToken_pos]
      omega
    · rw [emitToken_pos]
      exact hwithin

/-! ### CORE's step while Scanning, one equation per end -/

theorem coreStep_of_tokenFull {s : State} (h : s.Inv) (hseq : s.seq = .scanning) (hpos : s.pos < s.srcLen.toNat)
    (hfull : s.TokenFull) : coreStep s = .next (raise .capacityExceeded s) :=
  (coreStep_of_scanning_lt hseq hpos).trans (exec_encStep_of_full h hseq hpos hfull)

theorem coreStep_of_not_tokenFull {s : State} (h : s.Inv) (hseq : s.seq = .scanning) (hpos : s.pos < s.srcLen.toNat)
    (hroom : ¬ s.TokenFull) : coreStep s = .next (emitToken s.greedyToken s) :=
  (coreStep_of_scanning_lt hseq hpos).trans (exec_encStep_of_not_full h hseq hpos hroom)

/-- POS does not pass the input, so where it is not below the end it is there (R31). -/
theorem State.Inv.pos_eq_srcLen {s : State} (h : s.Inv) (hseq : s.seq = .scanning)
    (hend : ¬ s.pos < s.srcLen.toNat) : s.pos = s.srcLen.toNat := by
  obtain ⟨hpos, -⟩ := h.encoderOk hseq
  omega

/-- The capacity check of the last token leaves room for the final byte (R154). -/
theorem State.Inv.flushRoom {s : State} (h : s.Inv) (hseq : s.seq = .scanning) (hn : s.bwN ≠ 0) :
    s.dstLen.toNat < s.cfg.dstCap.toNat := by
  obtain ⟨-, -, ⟨hbits, -⟩, hcap, -⟩ := h.encoderOk hseq
  have hpartial : s.bwN.toNat ≠ 0 := fun hzero => hn (BitVec.eq_of_toNat_eq hzero)
  rw [ceil8] at hcap
  omega

theorem coreStep_of_inputEnd {s : State} (h : s.Inv) (hseq : s.seq = .scanning) (hend : ¬ s.pos < s.srcLen.toNat) :
    coreStep s = .next (done (bwFlush s)) :=
  (coreStep_of_scanning_ge hseq (Nat.le_of_not_lt hend)).trans
    (exec_encFinish_of_room hseq (h.pos_eq_srcLen hseq hend) (h.flushRoom hseq))

/-! ### The end of a running ENCODE (R157, R240) -/

/-- `t` is the end of an ENCODE that, from `s` on, emitted `a` LIT and `c` COPY tokens (R157). -/
structure EncodeEnds (a c : Nat) (s t : State) : Prop where
  ended : t.Ended
  tokens : t.tokens.toNat = s.tokens.toNat + (a + c)
  bits : t.bits.toNat = s.bits.toNat + (9 * a + 17 * c)
  pos_ge : s.pos + a + 2 * c ≤ t.pos
  pos_le : t.pos ≤ s.pos + a + 14 * c
  size : t.status.err = .none → t.pos = s.srcLen.toNat ∧ t.dstLen.toNat = ceil8 t.bits.toNat ∧
    t.bits.toNat ≤ 9 * t.pos ∧ t.tokens.toNat ≤ t.pos

/-- An ENCODE that ends with CapacityExceeded has emitted nothing more (R154). -/
theorem EncodeEnds.ofError {s : State} (hseq : s.seq = .scanning) :
    EncodeEnds 0 0 s (raise .capacityExceeded s) := by
  have hpos := raise_pos_of_scanning .capacityExceeded hseq
  exact ⟨(raise_ended _ s).1, rfl, rfl, hpos.ge, hpos.le, fun herr => by cases herr⟩

/-- At the input's end only the final byte is missing, and what the tokens took is bounded by the invariant (R157). -/
theorem EncodeEnds.ofFinish {s : State} (h : s.Inv) (hseq : s.seq = .scanning) (hend : ¬ s.pos < s.srcLen.toNat) :
    EncodeEnds 0 0 s (done (bwFlush s)) := by
  obtain ⟨-, -, hwriter, hcap, htokens, hbits⟩ := h.encoderOk hseq
  obtain ⟨hdst, -⟩ := bwFlush_spec hwriter hcap
  have hpos : (done (bwFlush s)).pos = s.pos := by rw [done_of_scanning ((bwFlush_seq s).trans hseq), bwFlush_pos]
  refine ⟨(done_ended _).1, by simp, by simp, hpos.ge, hpos.le, fun _ => ?_⟩
  rw [hpos, done_dstLen, done_bits, done_tokens, bwFlush_bits, bwFlush_tokens]
  exact ⟨h.pos_eq_srcLen hseq hend, hdst, hbits, by omega⟩

/-- One more token before the end is one more LIT or one more COPY. -/
theorem EncodeEnds.afterToken {s t : State} {a c : Nat} (h : s.Inv) (hseq : s.seq = .scanning) (hroom : ¬ s.TokenFull)
    (hends : EncodeEnds a c (emitToken s.greedyToken s) t) : ∃ a' c', EncodeEnds a' c' s t := by
  obtain ⟨hended, htokens, hbits, hge, hle, hsize⟩ := hends
  obtain ⟨-, -, -, -, hcount, -⟩ := h.encoderOk hseq
  obtain ⟨-, -, hwidth, -⟩ := emitToken_appends s.greedyToken (h.writerOk hseq) (Nat.le_of_not_lt hroom)
  rw [emitToken_tokens, tokens_succ_toNat hcount] at htokens
  rw [hwidth] at hbits
  rw [emitToken_pos] at hge hle
  rw [emitToken_srcLen] at hsize
  obtain ⟨h9, h1⟩ | ⟨h17, hmin, hmax⟩ := s.greedyToken_size
  · exact ⟨a + 1, c, hended, by omega, by omega, by omega, by omega, hsize⟩
  · exact ⟨a, c + 1, hended, by omega, by omega, by omega, by omega, hsize⟩

/-- One step of a running command, then the rest of its run. -/
theorem CoreRun.cons {k : Nat} {s u t : State} (hseq : s.seq = .scanning) (hstep : coreStep s = .next u)
    (hrun : CoreRun k u t) : CoreRun (k + 1) s t :=
  ⟨by simp [hseq], u, hstep, hrun⟩

theorem exists_encodeEnds {s : State} (h : s.Inv) (hseq : s.seq = .scanning) :
    ∃ k t a c, k ≤ s.srcLen.toNat - s.pos + 1 ∧ CoreRun k s t ∧ EncodeEnds a c s t := by
  induction hleft : s.srcLen.toNat - s.pos using Nat.strong_induction_on generalizing s with
  | _ left ih =>
    by_cases hpos : s.pos < s.srcLen.toNat
    · by_cases hfull : s.TokenFull
      · exact ⟨1, _, 0, 0, by omega, .cons hseq (coreStep_of_tokenFull h hseq hpos hfull) rfl, .ofError hseq⟩
      · have hstep := coreStep_of_not_tokenFull h hseq hpos hfull
        have hmoves := emitToken_pos s.greedyToken s
        have hsize := s.greedyToken_size
        have hless : (emitToken s.greedyToken s).srcLen.toNat - (emitToken s.greedyToken s).pos < left := by
          rw [emitToken_srcLen]
          omega
        obtain ⟨k, t, a, c, hk, hrun, hends⟩ :=
          ih _ hless (coreStep_keeps_inv h hstep) ((emitToken_seq _ s).trans hseq) rfl
        obtain ⟨a', c', hends'⟩ := hends.afterToken h hseq hfull
        exact ⟨k + 1, t, a', c', by omega, .cons hseq hstep hrun, hends'⟩
    · exact ⟨1, _, 0, 0, by omega, .cons hseq (coreStep_of_inputEnd h hseq hpos) rfl, .ofFinish h hseq hpos⟩

/-- Settles O57, by induction over the input that is left. -/
theorem encodeEndsInBoundedSteps : Obligations.EncodeEndsInBoundedSteps := by
  intro s h hseq
  obtain ⟨k, t, a, c, hk, hrun, hended, htokens, hbits, hge, hle, hsize⟩ := exists_encodeEnds h hseq
  exact ⟨k, t, a, c, hk, hrun, hended, htokens, hbits, hge, hle, hsize⟩

end Sys2Proof.Machine
end

section
/-! Determinism of the encoder (42_encoder.md R158): two ENCODEs that agree on what the encoder reads and on what it has
written stay so, token after token, whatever else differs; so their ends have the same output, BITS, TOKENS and STATUS.
The two blocks' capacities alone can part them, where a token fits one of them only and ends the other's command. -/

namespace Sys2Proof.Machine

/-! ### The results of two commands -/

/-- STATUS, DST_LEN, BITS, TOKENS and the bytes put out are the same. -/
structure SameResult (s s' : State) : Prop where
  status : s.status = s'.status
  dstLen : s.dstLen = s'.dstLen
  bits : s.bits = s'.bits
  tokens : s.tokens = s'.tokens
  dst : ∀ k < s.dstLen.toNat, Memory.read s.dst k = Memory.read s'.dst k

theorem SameResult.output {s s' : State} (h : SameResult s s') (hout : s.OutputOk) : s.output = s'.output := by
  obtain ⟨-, hwritten, -⟩ := hout
  rw [State.output, State.output, ← h.dstLen]
  refine List.map_congr_left fun k hk => ?_
  have hlt := List.mem_range.1 hk
  obtain ⟨b, hb⟩ := Option.isSome_iff_exists.1 ((Memory.writtenBelow_iff _ _).1 hwritten k hlt)
  rw [State.dstByte, State.dstByte, ← h.dst k hlt, hb, Option.getD_some, Option.getD_some]

theorem SameResult.raise {s s' : State} (h : SameResult s s') (e : ErrKind) :
    SameResult (raise e s) (raise e s') :=
  ⟨congrArg (·.fail e) h.status, h.dstLen, h.bits, h.tokens, h.dst⟩

theorem SameResult.done {s s' : State} (h : SameResult s s') : SameResult (done s) (done s') :=
  ⟨congrArg (·.finish) h.status, h.dstLen, h.bits, h.tokens, h.dst⟩

/-- Appending one byte to both outputs. -/
theorem SameResult.append {s s' : State} (h : SameResult s s') (v : Byte) : SameResult (append v s) (append v s') := by
  refine ⟨h.status, congrArg (· + 1) h.dstLen, h.bits, h.tokens, fun k hk => ?_⟩
  have hlen : (s.dstLen + 1).toNat ≤ s.dstLen.toNat + 1 := by
    rw [BitVec.toNat_add]
    exact Nat.mod_le _ _
  rw [append_dstLen] at hk
  rw [append_dst, append_dst, Memory.read_write, Memory.read_write, ← h.dstLen]
  split
  · rfl
  · exact h.dst k (by omega)

theorem SameResult.clearWriter {s s' : State} (h : SameResult s s') : SameResult (clearWriter s) (clearWriter s') :=
  ⟨h.status, h.dstLen, h.bits, h.tokens, h.dst⟩

/-! ### Two running ENCODEs -/

/-- Two running ENCODEs of one input under one effective window, at the same position, with the same result so far and
the same partial byte. -/
structure SameScan (s s' : State) : Prop extends SameResult s s' where
  seq : s.seq = .scanning
  seq' : s'.seq = .scanning
  srcLen : s.srcLen = s'.srcLen
  ewsize : s.ewsize = s'.ewsize
  src : ∀ k < s.srcLen.toNat, s.srcByte k = s'.srcByte k
  pos : s.pos = s'.pos
  bwAcc : s.bwAcc = s'.bwAcc
  bwN : s.bwN = s'.bwN

theorem SameScan.bwWriteBit {s s' : State} (h : SameScan s s') (b : Bool) :
    SameScan (bwWriteBit b s) (bwWriteBit b s') := by
  have hbits : SameResult { s with bits := s.bits + 1 } { s' with bits := s'.bits + 1 } :=
    ⟨h.status, h.dstLen, congrArg (· + 1) h.bits, h.tokens, h.dst⟩
  by_cases hn : s.bwN = 7
  · have hn' : s'.bwN = 7 := h.bwN ▸ hn
    rw [bwWriteBit_of_last b hn, bwWriteBit_of_last b hn', ← h.bwAcc, ← h.bwN]
    exact ⟨(hbits.append (accWith s.bwAcc s.bwN b)).clearWriter, h.seq, h.seq', h.srcLen, h.ewsize, h.src, h.pos,
      rfl, rfl⟩
  · have hn' : s'.bwN ≠ 7 := h.bwN ▸ hn
    rw [bwWriteBit_of_not_last b hn, bwWriteBit_of_not_last b hn', ← h.bwAcc, ← h.bwN]
    exact ⟨⟨hbits.status, hbits.dstLen, hbits.bits, hbits.tokens, hbits.dst⟩, h.seq, h.seq', h.srcLen, h.ewsize, h.src,
      h.pos, rfl, rfl⟩

theorem SameScan.writeBits {s s' : State} (h : SameScan s s') (l : List Bool) :
    SameScan (l.foldl (fun u b => Machine.bwWriteBit b u) s) (l.foldl (fun u b => Machine.bwWriteBit b u) s') := by
  induction l generalizing s s' with
  | nil => exact h
  | cons b l ih => exact ih (h.bwWriteBit b)

theorem SameScan.emitToken {s s' : State} (h : SameScan s s') (t : Token) :
    SameScan (emitToken t s) (emitToken t s') := by
  obtain ⟨⟨hstatus, hdstLen, hbits, htokens, hdst⟩, hseq, hseq', hsrcLen, hewsize, hsrc, hpos, hacc, hn⟩ :=
    h.writeBits (encodeToken t)
  exact ⟨⟨hstatus, hdstLen, hbits, congrArg (· + 1) htokens, hdst⟩, hseq, hseq', hsrcLen, hewsize, hsrc,
    congrArg (· + t.inputLen) hpos, hacc, hn⟩

theorem SameScan.bwFlush {s s' : State} (h : SameScan s s') : SameResult (bwFlush s) (bwFlush s') := by
  by_cases hn : s.bwN = 0
  · rw [bwFlush_of_empty hn, bwFlush_of_empty (h.bwN ▸ hn)]
    exact h.toSameResult
  · rw [bwFlush_of_partial hn, bwFlush_of_partial (h.bwN ▸ hn), ← h.bwAcc]
    exact (h.toSameResult.append s.bwAcc).clearWriter

/-- MF_FIND reads bytes of the input only, so it answers both alike (R138). -/
theorem SameScan.greedyToken {s s' : State} (h : SameScan s s') (hpos : s.pos < s.srcLen.toNat) :
    s.greedyToken = s'.greedyToken := by
  have hfind : s.findMatch s.pos = s'.findMatch s'.pos := by
    rw [State.findMatch, State.findMatch, mfFind, mfFind, ← h.srcLen, ← h.ewsize, ← h.pos]
    rw [bestMatch_congr (inp := s'.srcByte) fun k _ hk => h.src k (by omega)]
  rw [State.greedyToken, State.greedyToken, hfind, ← h.pos, h.src s.pos hpos]

/-! ### Their runs -/

/-- A run from a state in which no command runs has no step. -/
theorem CoreRun.eq_of_idle {k : Nat} {s t : State} (hrun : CoreRun k s t) (hidle : s.seq = .idle) : s = t := by
  cases k with
  | zero => exact hrun
  | succ k => exact absurd hidle hrun.1

/-- The first step of a run from a running command to an idle state. -/
theorem CoreRun.first {k : Nat} {s u t : State} (hrun : CoreRun k s t) (hseq : s.seq = .scanning)
    (ht : t.seq = .idle) (hstep : coreStep s = .next u) : ∃ j < k, CoreRun j u t := by
  cases k with
  | zero =>
    obtain rfl : s = t := hrun
    simp [hseq] at ht
  | succ k =>
    obtain ⟨-, v, hstep', hrest⟩ := hrun
    obtain rfl : u = v := Host.Outcome.next.inj (hstep.symm.trans hstep')
    exact ⟨k, Nat.lt_succ_self k, hrest⟩

theorem CoreRun.keeps_inv {k : Nat} {s t : State} (h : s.Inv) (hrun : CoreRun k s t) : t.Inv := by
  induction k generalizing s with
  | zero => exact hrun ▸ h
  | succ k ih =>
    obtain ⟨-, u, hstep, hrest⟩ := hrun
    exact ih (coreStep_keeps_inv h hstep) hrest

/-- A running ENCODE whose run ends with success finds room for its next token. -/
theorem CoreRun.not_tokenFull {k : Nat} {s t : State} (hrun : CoreRun k s t) (h : s.Inv) (hseq : s.seq = .scanning)
    (hpos : s.pos < s.srcLen.toNat) (ht : t.seq = .idle) (hsuccess : t.status.err = .none) : ¬ s.TokenFull := by
  intro hfull
  obtain ⟨j, -, hrest⟩ := hrun.first hseq ht (coreStep_of_tokenFull h hseq hpos hfull)
  obtain rfl := hrest.eq_of_idle rfl
  cases hsuccess

/-- The capacity check answers both alike: both have room where both runs succeed, and blocks of one DST capacity make
the same test. -/
theorem SameScan.tokenFull_iff {s s' e e' : State} {k k' : Nat} (hsame : SameScan s s') (h : s.Inv) (h' : s'.Inv)
    (hpos : s.pos < s.srcLen.toNat) (hrun : CoreRun k s e) (hrun' : CoreRun k' s' e') (he : e.seq = .idle)
    (he' : e'.seq = .idle) (hends : e.status.err = .none ∧ e'.status.err = .none ∨ s.cfg.dstCap = s'.cfg.dstCap) :
    s.TokenFull ↔ s'.TokenFull := by
  obtain ⟨hsuccess, hsuccess'⟩ | hcap := hends
  · have hpos' : s'.pos < s'.srcLen.toNat := hsame.pos ▸ hsame.srcLen ▸ hpos
    exact iff_of_false (hrun.not_tokenFull h hsame.seq hpos he hsuccess)
      (hrun'.not_tokenFull h' hsame.seq' hpos' he' hsuccess')
  · rw [State.TokenFull, State.TokenFull, hcap, hsame.bits, hsame.greedyToken hpos]

/-- By induction over the first run: its next token is the second one's too. -/
theorem SameScan.sameResult {s s' e e' : State} {k k' : Nat} (hsame : SameScan s s') (h : s.Inv) (h' : s'.Inv)
    (hrun : CoreRun k s e) (hrun' : CoreRun k' s' e') (he : e.seq = .idle) (he' : e'.seq = .idle)
    (hends : e.status.err = .none ∧ e'.status.err = .none ∨ s.cfg.dstCap = s'.cfg.dstCap) : SameResult e e' := by
  induction k using Nat.strong_induction_on generalizing s s' k' with
  | _ k ih =>
    have hpos_iff : s.pos < s.srcLen.toNat ↔ s'.pos < s'.srcLen.toNat := by rw [hsame.pos, hsame.srcLen]
    by_cases hpos : s.pos < s.srcLen.toNat
    · have hpos' := hpos_iff.1 hpos
      have hfull_iff := hsame.tokenFull_iff h h' hpos hrun hrun' he he' hends
      by_cases hfull : s.TokenFull
      · obtain ⟨_, -, hrest⟩ := hrun.first hsame.seq he (coreStep_of_tokenFull h hsame.seq hpos hfull)
        obtain ⟨_, -, hrest'⟩ :=
          hrun'.first hsame.seq' he' (coreStep_of_tokenFull h' hsame.seq' hpos' (hfull_iff.1 hfull))
        exact hrest.eq_of_idle rfl ▸ hrest'.eq_of_idle rfl ▸ hsame.toSameResult.raise .capacityExceeded
      · have hstep := coreStep_of_not_tokenFull h hsame.seq hpos hfull
        have hstep' := coreStep_of_not_tokenFull h' hsame.seq' hpos' (hfull_iff.not.1 hfull)
        rw [← hsame.greedyToken hpos] at hstep'
        obtain ⟨j, hj, hrest⟩ := hrun.first hsame.seq he hstep
        obtain ⟨_, -, hrest'⟩ := hrun'.first hsame.seq' he' hstep'
        exact ih j hj (hsame.emitToken s.greedyToken) (coreStep_keeps_inv h hstep) (coreStep_keeps_inv h' hstep')
          hrest hrest' (by rwa [emitToken_cfg, emitToken_cfg])
    · have hend' := hpos_iff.not.1 hpos
      obtain ⟨_, -, hrest⟩ := hrun.first hsame.seq he (coreStep_of_inputEnd h hsame.seq hpos)
      obtain ⟨_, -, hrest'⟩ := hrun'.first hsame.seq' he' (coreStep_of_inputEnd h' hsame.seq' hend')
      exact hrest.eq_of_idle rfl ▸ hrest'.eq_of_idle rfl ▸ hsame.bwFlush.done

/-! ### From the start -/

theorem State.srcLen_eq_of_input {s s' : State} (hinput : s.input = s'.input) : s.srcLen = s'.srcLen :=
  BitVec.eq_of_toNat_eq (by simpa [State.input] using congrArg List.length hinput)

theorem State.srcByte_eq_of_input {s s' : State} (hinput : s.input = s'.input) {k : Nat} (hk : k < s.srcLen.toNat) :
    s.srcByte k = s'.srcByte k := by
  rw [State.input, State.input, ← State.srcLen_eq_of_input hinput] at hinput
  exact List.map_inj_left.1 hinput k (List.mem_range.2 hk)

/-- The two started states differ in nothing that the encoder reads (R150, R155). -/
theorem encodeStarted_sameScan {s s' : State} (hinput : s.input = s'.input)
    (hwindow : wclamp s.wsize = wclamp s'.wsize) : SameScan (encodeStarted s) (encodeStarted s') :=
  ⟨⟨rfl, rfl, rfl, rfl, fun _ hk => absurd hk (Nat.not_lt_zero _)⟩, rfl, rfl, State.srcLen_eq_of_input hinput, hwindow,
    fun _ hk => State.srcByte_eq_of_input hinput hk, rfl, rfl, rfl⟩

/-- An ENCODE that ends with success passed the checks of its start (R150). -/
theorem CoreRun.startEncode_eq {k : Nat} {s e : State} (hrun : CoreRun k (startEncode s) e)
    (hsuccess : e.status.err = .none) : startEncode s = encodeStarted s := by
  obtain hfail | hfail | ⟨-, hstart⟩ := startEncode_cases s
  · rw [hfail] at hrun
    obtain rfl := hrun.eq_of_idle rfl
    cases hsuccess
  · rw [hfail] at hrun
    obtain rfl := hrun.eq_of_idle rfl
    cases hsuccess
  · exact hstart

/-- Settles O60: in both cases the two commands start alike, and by `SameScan.sameResult` they end alike. -/
theorem encodeDependsOnInputAndWindowOnly : Obligations.EncodeDependsOnInputAndWindowOnly := by
  intro s s0 e s' s0' e' k k' h h' hexec hrun he hexec' hrun' he' hinput hwindow hcase
  have h0 := execEncode_keeps_inv h hexec
  have h0' := execEncode_keeps_inv h' hexec'
  obtain ⟨-, -, -, -, rfl⟩ := execEncode_next hexec
  obtain ⟨-, -, -, -, rfl⟩ := execEncode_next hexec'
  obtain ⟨hstart, hstart'⟩ : startEncode s = encodeStarted s ∧ startEncode s' = encodeStarted s' := by
    obtain ⟨hsuccess, hsuccess'⟩ | ⟨-, hfits, haccept, hfits', haccept'⟩ := hcase
    · exact ⟨hrun.startEncode_eq hsuccess, hrun'.startEncode_eq hsuccess'⟩
    · exact ⟨startEncode_of_accepted haccept hfits, startEncode_of_accepted haccept' hfits'⟩
  have hends : e.status.err = .none ∧ e'.status.err = .none ∨ s.cfg.dstCap = s'.cfg.dstCap :=
    hcase.imp_right And.left
  rw [hstart] at hrun h0
  rw [hstart'] at hrun' h0'
  have hsame := (encodeStarted_sameScan hinput hwindow).sameResult h0 h0' hrun hrun' he he' hends
  exact ⟨hsame.output (hrun.keeps_inv h0).outputOk, hsame.bits, hsame.tokens, hsame.status⟩

end Sys2Proof.Machine
end

section
/-! The decoder's instructions (43_decoder.md R170 to R179): the start of DECODE, LIT, COPY and COPY_REPLAY where no
check fails, DEC_STEP as one equation per branch of its pseudocode, and the registers that none of them reads. -/

namespace Sys2Proof

/-! ### The token at a position (R81 to R84, R176) -/

/-- The two fields of a COPY cut its two bytes anew: 12 bits and 4 bits (R83, R84). -/
theorem copyAt_eq_fields (bit : Nat → Bool) (p : Nat) :
    copyAt bit p = .copy (BitVec.ofNat 12 (fieldAt bit (p + 1) 12)) (BitVec.ofNat 4 (fieldAt bit (p + 13) 4)) := by
  have hdistance : fieldAt bit (p + 1) 12 = fieldAt bit (p + 1) 8 * 16 + fieldAt bit (p + 9) 4 :=
    fieldAt_add bit (p + 1) 8 4
  have hbyte2 : fieldAt bit (p + 9) 8 = fieldAt bit (p + 9) 4 * 16 + fieldAt bit (p + 13) 4 :=
    fieldAt_add bit (p + 9) 4 4
  have hnibble := fieldAt_lt bit (p + 9) 4
  have hlength := fieldAt_lt bit (p + 13) 4
  have hhigh : fieldAt bit (p + 9) 8 >>> 4 = fieldAt bit (p + 9) 4 := by
    rw [Nat.shiftRight_eq_div_pow]
    omega
  have hlow : fieldAt bit (p + 9) 8 &&& 0x0F = fieldAt bit (p + 13) 4 := by
    rw [show (0x0F : Nat) = 2 ^ 4 - 1 from rfl, Nat.and_two_pow_sub_one_eq_mod]
    omega
  have hpacked : fieldAt bit (p + 1) 8 <<< 4 ||| fieldAt bit (p + 9) 4 = fieldAt bit (p + 1) 12 := by
    rw [← Nat.shiftLeft_add_eq_or_of_lt hnibble, Nat.shiftLeft_eq]
    omega
  rw [copyAt, fieldDistance, fieldLength, hhigh, hlow, hpacked]

theorem readBits_of_lt {bit : Nat → Bool} {T p k : Nat} (hp : T < p + k) : readBits bit T p k = .exhausted :=
  if_pos hp

theorem decodeToken_of_truncatedLit {bit : Nat → Bool} {T p : Nat} (hflag : bit p = false) (hp : p < T)
    (hT : T < p + 9) : decodeToken bit T p = .error .truncatedLit := by
  have hbyte : readBits bit T (p + 1) 8 = .exhausted := readBits_of_lt (by omega)
  simp [decodeToken, readBit_of_lt hp, hflag, hbyte]

/-- Either byte of a COPY can be the one that is not all present (R176). -/
theorem decodeToken_of_truncatedCopy {bit : Nat → Bool} {T p : Nat} (hflag : bit p = true) (hp : p < T)
    (hT : T < p + 17) : decodeToken bit T p = .error .truncatedCopy := by
  by_cases hbyte1 : T < p + 9
  · have hread : readBits bit T (p + 1) 8 = .exhausted := readBits_of_lt (by omega)
    simp [decodeToken, readBit_of_lt hp, hflag, hread]
  · have hread1 : readBits bit T (p + 1) 8 = .value (fieldAt bit (p + 1) 8) (p + 9) := readBits_of_le (by omega)
    have hread2 : readBits bit T (p + 9) 8 = .exhausted := readBits_of_lt (by omega)
    simp [decodeToken, readBit_of_lt hp, hflag, hread1, hread2]

end Sys2Proof

namespace Sys2Proof.Machine

/-! ### The start of DECODE (R170) -/

theorem exec_decode_of_operands {s : State} (hbusy : s.status.busy = false) (hlen : s.srcLenWritten = true)
    (hsrc : s.sourceWritten = true) : exec .decode s = .next (startDecode s) := by
  simp [exec, execDecode, hbusy, hlen, hsrc]

theorem startDecode_of_fits {s : State} (hfits : s.srcLen.toNat ≤ s.cfg.srcCap.toNat) :
    startDecode s = decodeStarted s :=
  if_neg (State.not_srcTooLong (s := s) hfits)

theorem startDecode_of_tooLong {s : State} (hlong : s.cfg.srcCap.toNat < s.srcLen.toNat) :
    startDecode s = raise .capacityExceeded (commandStart .decode s) :=
  if_pos (State.srcTooLong_iff (s := s).2 hlong)

/-- Settles O21: with its operands written, DECODE answers the started state or, by the capacity check, the error. -/
theorem decodeStartsReading : Obligations.DecodeStartsReading := by
  intro s hbusy hlen hsrc
  rw [exec_decode_of_operands hbusy hlen hsrc]
  constructor
  · intro hfits
    rw [startDecode_of_fits hfits]
    rfl
  · intro hlong
    rw [startDecode_of_tooLong hlong]
    exact ⟨_, rfl, rfl, rfl, rfl, rfl, rfl, rfl, rfl, rfl⟩

/-! ### LIT (R172) -/

theorem State.not_outFull {s : State} {k : Nat} (hroom : s.dstLen.toNat + k ≤ s.cfg.dstCap.toNat) :
    ¬ s.outFull k = true :=
  fun hfull => Nat.not_lt.2 hroom (State.outFull_iff.1 hfull)

theorem exec_lit_of_fits {s : State} (b : Byte) (hbits : s.bits.toNat + 9 ≤ s.streamLen)
    (hroom : s.dstLen.toNat + 1 ≤ s.cfg.dstCap.toNat) : exec (.lit b) s = .next (litEffect b s) :=
  (if_neg (Nat.not_lt.2 hbits)).trans (if_neg (State.not_outFull hroom))

/-- Settles O43: LIT is one append and the move of CUR. -/
theorem litAppendsItsByte : Obligations.LitAppendsItsByte := fun b s hbits hroom =>
  ⟨litEffect b s, exec_lit_of_fits b hbits hroom, rfl, Memory.read_write_same s.dst _ b,
    fun _ hk => Memory.read_write_other s.dst b hk⟩

/-! ### COPY and COPY_REPLAY (R173, R174) -/

/-- The distance is not malformed: bytes that the replay reads first were put out before (R175). -/
theorem State.not_badDistance {s : State} {d len : Nat} (hsource : 0 < len → 1 ≤ d ∧ d ≤ s.dstLen.toNat) :
    ¬ s.badDistance d len = true := by
  rw [State.badDistance_iff]
  omega

theorem exec_copy_of_fits {s : State} {d : BitVec 12} {len : BitVec 4} (hbits : s.bits.toNat + 17 ≤ s.streamLen)
    (hsource : 0 < len.toNat → 1 ≤ d.toNat ∧ d.toNat ≤ s.dstLen.toNat)
    (hroom : s.dstLen.toNat + len.toNat ≤ s.cfg.dstCap.toNat) :
    exec (.copy d len) s = .next (copyEffect d.toNat len.toNat s) :=
  (if_neg (Nat.not_lt.2 hbits)).trans <|
    (if_neg (State.not_badDistance hsource)).trans (if_neg (State.not_outFull hroom))

theorem exec_copyReplay_of_fits {s : State} {d len : Nat} (hsource : 0 < len → 1 ≤ d ∧ d ≤ s.dstLen.toNat)
    (hroom : s.dstLen.toNat + len ≤ s.cfg.dstCap.toNat) : exec (.copyReplay d len) s = .next (replay d len s) :=
  (if_neg (State.not_badDistance hsource)).trans (if_neg fun ⟨_, hfull⟩ => State.not_outFull hroom hfull)

theorem copyEffect_same (d len : Nat) (s : State) :
    copyEffect d len s = { s with dst := (copyEffect d len s).dst, dstLen := (copyEffect d len s).dstLen,
                                  bits := s.bits + 17, tokens := s.tokens + 1 } :=
  congrArg (tokenExecuted 17) (replay_same d len s)

/-- Settles O44: COPY is the replay and the move of CUR. -/
theorem copyReplaysItsBytes : Obligations.CopyReplaysItsBytes := by
  intro d len s hbits hdist hroom
  have hsource : 0 < len.toNat → 1 ≤ d.toNat ∧ d.toNat ≤ s.dstLen.toNat := by
    intro hpos
    obtain ⟨hd, hle⟩ := hdist (by rintro rfl; simp at hpos)
    exact ⟨Nat.pos_of_ne_zero fun hzero => hd (BitVec.eq_of_toNat_eq hzero), hle⟩
  have hreplay := replayed d.toNat len.toNat hsource hroom
  have hoverlap := hreplay.overlap hsource (replay_draws s _ _)
  exact ⟨_, exec_copy_of_fits hbits hsource hroom, copyEffect_same _ _ s, hreplay.dstLen,
    fun j hj => ⟨(hreplay.listed j hj).trans (congrArg some (hoverlap j hj)), hreplay.new j hj⟩, hreplay.frame⟩

/-- Settles O45: the overlapped copy and its closed form, of the replay. -/
theorem copyReplayIsByteByByte : Obligations.CopyReplayIsByteByByte := by
  intro d len s hsource hroom
  have hreplay := replayed d len hsource hroom
  exact ⟨_, exec_copyReplay_of_fits hsource hroom, replay_same d len s, hreplay.dstLen,
    fun j hj => ⟨hreplay.overlap hsource (replay_draws s d len) j hj, hreplay.new j hj⟩, hreplay.frame⟩

/-! ### DEC_STEP, one equation per branch (R171) -/

theorem exec_decStep_of_cleanEnd {s : State} (hseq : s.seq = .reading) (hfits : s.srcLen.toNat ≤ s.cfg.srcCap.toNat)
    (hend : s.cleanEndAt s.bits.toNat = true) : exec .decStep s = .next (done s) :=
  (if_pos hseq).trans ((if_neg (State.not_srcTooLong hfits)).trans (if_pos hend))

theorem exec_decStep_of_error {s : State} {e : DecodeError} (hseq : s.seq = .reading)
    (hfits : s.srcLen.toNat ≤ s.cfg.srcCap.toNat) (hend : s.cleanEndAt s.bits.toNat = false)
    (htok : s.tokenAt s.bits.toNat = .error e) : exec .decStep s = .next (raise .truncatedStream s) := by
  refine (if_pos hseq).trans ((if_neg (State.not_srcTooLong hfits)).trans ((if_neg (by simp [hend])).trans ?_))
  rw [htok]

/-- Where 8 bits remain the end is not clean (R109). -/
theorem State.cleanEndAt_eq_false {s : State} {p : Nat} (hp : p + 8 ≤ s.streamLen) : s.cleanEndAt p = false := by
  rw [State.cleanEndAt_eq (by omega), ← Bool.not_eq_true, cleanEnd_eq_true_iff]
  omega

/-- Settles O47: fewer than 8 bits, all 0, are the clean end at which DEC_STEP is `done`. -/
theorem decodeStepEndsAtACleanEnd : Obligations.DecodeStepEndsAtACleanEnd := by
  intro s hseq hcur hfits hfew hzero
  have hend : s.cleanEndAt s.bits.toNat = true :=
    (State.cleanEndAt_eq hcur).trans ((cleanEndIsZeroPadding _ _ _ hcur).2 ⟨hfew, hzero⟩)
  exact ⟨done s, exec_decStep_of_cleanEnd hseq hfits hend, rfl⟩

/-- Settles O49: the decoder reads no token where the fields after its flag are not all present. -/
theorem truncatedTokenEndsTheDecode : Obligations.TruncatedTokenEndsTheDecode := by
  intro s hseq hfits hcur hend hshort
  have hend' : s.cleanEndAt s.bits.toNat = false := (State.cleanEndAt_eq (Nat.le_of_lt hcur)).trans hend
  obtain ⟨hflag, hlit⟩ | ⟨hflag, hcopy⟩ := hshort
  · exact exec_decStep_of_error hseq hfits hend' (decodeToken_of_truncatedLit hflag hcur hlit)
  · exact exec_decStep_of_error hseq hfits hend' (decodeToken_of_truncatedCopy hflag hcur hcopy)

/-! ### DEC_STEP completes, and runs the token at CUR -/

theorem exec_lit_completes (b : Byte) (s : State) : ∃ t, exec (.lit b) s = .next t := by
  rw [exec, execLit]
  split
  · exact ⟨_, rfl⟩
  · split <;> exact ⟨_, rfl⟩

theorem exec_copy_completes (d : BitVec 12) (len : BitVec 4) (s : State) : ∃ t, exec (.copy d len) s = .next t := by
  rw [exec, execCopy]
  split
  · exact ⟨_, rfl⟩
  · split
    · exact ⟨_, rfl⟩
    · split <;> exact ⟨_, rfl⟩

theorem exec_token_completes (t : Token) (s : State) : ∃ u, exec t.toInstr s = .next u := by
  cases t with
  | lit b => exact exec_lit_completes b s
  | copy d len => exact exec_copy_completes d len s

theorem exec_decStep_completes {s : State} (hseq : s.seq = .reading) (hfits : s.srcLen.toNat ≤ s.cfg.srcCap.toNat) :
    ∃ t, exec .decStep s = .next t := by
  cases hend : s.cleanEndAt s.bits.toNat with
  | true => exact ⟨_, exec_decStep_of_cleanEnd hseq hfits hend⟩
  | false =>
    cases htok : s.tokenAt s.bits.toNat with
    | error e => exact ⟨_, exec_decStep_of_error hseq hfits hend htok⟩
    | ok read =>
      rw [exec_decStep_of_token hseq hfits hend htok]
      exact exec_token_completes read.1 s

/-- Settles O48: at 9 bits or more the end is not clean, and the flag gives the token that the decoder reads. -/
theorem decodeStepRunsTheTokenAtCur : Obligations.DecodeStepRunsTheTokenAtCur := by
  intro s hseq hfits
  refine ⟨exec_decStep_completes hseq hfits, fun hbits hflag => ?_, fun hbits hflag => ?_⟩
  · have hend := State.cleanEndAt_eq_false (s := s) (p := s.bits.toNat) (Nat.le_of_succ_le hbits)
    exact exec_decStep_of_token hseq hfits hend (decodeToken_of_flag_false hflag hbits)
  · have hmore : s.bits.toNat + 8 ≤ s.streamLen := (Nat.add_le_add_left (by decide) _).trans hbits
    have htok : s.tokenAt s.bits.toNat = .ok (copyAt s.streamBit s.bits.toNat, s.bits.toNat + 17) :=
      decodeToken_of_flag_true hflag hbits
    rw [copyAt_eq_fields] at htok
    exact exec_decStep_of_token hseq hfits (State.cleanEndAt_eq_false hmore) htok

/-! ### The decoder has no window (R179) -/

/-- `s` with other values in WSIZE and EWSIZE. -/
def State.withWindow (w : Word) (written : Bool) (e : BitVec 12) (s : State) : State :=
  { s with wsize := w, wsizeWritten := written, ewsize := e }

/-- An outcome with other values in WSIZE and EWSIZE of its next state. -/
def outcomeWithWindow (w : Word) (written : Bool) (e : BitVec 12) :
    Host.Outcome State Fault Refusal → Host.Outcome State Fault Refusal
  | .next t => .next (t.withWindow w written e)
  | .fault r => .fault r
  | .refused r => .refused r

section
variable (w : Word) (written : Bool) (e : BitVec 12)

theorem replay_withWindow (d k : Nat) (s : State) :
    replay d k (s.withWindow w written e) = (replay d k s).withWindow w written e := by
  induction k generalizing s with
  | zero => rfl
  | succ k ih => exact ih (append (outRead s (s.dstLen.toNat - d)) s)

theorem copyEffect_withWindow (d len : Nat) (s : State) :
    copyEffect d len (s.withWindow w written e) = (copyEffect d len s).withWindow w written e :=
  congrArg (tokenExecuted 17) (replay_withWindow w written e d len s)

theorem execLit_withWindow (b : Byte) (s : State) :
    execLit b (s.withWindow w written e) = outcomeWithWindow w written e (execLit b s) := by
  simp only [execLit, apply_ite (outcomeWithWindow w written e)]
  rfl

theorem execCopy_withWindow (d : BitVec 12) (len : BitVec 4) (s : State) :
    execCopy d len (s.withWindow w written e) = outcomeWithWindow w written e (execCopy d len s) := by
  simp only [execCopy, apply_ite (outcomeWithWindow w written e), copyEffect_withWindow]
  rfl

/-- The end test and the token at CUR are those of SRC, SRC_LEN and CUR alone. -/
theorem execDecStep_withWindow (s : State) :
    execDecStep (s.withWindow w written e) = outcomeWithWindow w written e (execDecStep s) := by
  have hread : (s.withWindow w written e).tokenAt (s.withWindow w written e).bits.toNat = s.tokenAt s.bits.toNat := rfl
  simp only [execDecStep, hread, apply_ite (outcomeWithWindow w written e)]
  cases s.tokenAt s.bits.toNat with
  | error _ => rfl
  | ok read =>
    obtain ⟨t, p⟩ := read
    cases t with
    | lit b =>
      simp only [execLit_withWindow]
      rfl
    | copy d len =>
      simp only [execCopy_withWindow]
      rfl

end

/-- Settles O50: each of the three commutes with a change of the window registers; the change that puts in the values
they hold shows that they are kept. -/
theorem decoderHasNoWindow : Obligations.DecoderHasNoWindow := by
  intro i s t w written e hi hexec
  have hcommutes : ∀ w written e,
      exec i (s.withWindow w written e) = outcomeWithWindow w written e (exec i s) := by
    intro w written e
    obtain rfl | ⟨b, rfl⟩ | ⟨d, len, rfl⟩ := hi
    · exact execDecStep_withWindow w written e s
    · exact execLit_withWindow w written e b s
    · exact execCopy_withWindow w written e d len s
  rw [hexec] at hcommutes
  have hkept : t = t.withWindow s.wsize s.wsizeWritten s.ewsize :=
    Host.Outcome.next.inj (hexec.symm.trans (hcommutes s.wsize s.wsizeWritten s.ewsize))
  exact ⟨(congrArg State.wsize hkept :), (congrArg State.ewsize hkept :), hcommutes w written e⟩

end Sys2Proof.Machine
end

section
/-! A running DECODE (43_decoder.md R171, R181): every CORE step ends the command or takes a token of at least 9 bits;
so, by induction over the bits that are left, the end of the command and the size of its result. -/

namespace Sys2Proof.Machine

/-! ### What the invariant says while Reading -/

theorem State.Inv.srcLen_le_srcCap_of_reading {s : State} (h : s.Inv) (hseq : s.seq = .reading) :
    s.srcLen.toNat ≤ s.cfg.srcCap.toNat := by
  obtain ⟨-, hfits, -⟩ := h.operandsOk (by simp [hseq])
  exact hfits

/-- CUR moves over a token within the stream without wrapping (R32). -/
theorem State.Inv.cur_add_toNat {s : State} {w : Word} (h : s.Inv) (hseq : s.seq = .reading)
    (hstream : s.bits.toNat + w.toNat ≤ s.streamLen) : (s.bits + w).toNat = s.bits.toNat + w.toNat := by
  have hfits := h.srcLen_le_srcCap_of_reading hseq
  have hcap := s.cfg.srcCap.isLt
  rw [State.streamLen] at hstream
  exact toNat_add_of_lt (by omega)

/-- Each token took 9 bits of the stream or more and gave at most 15 bytes (R181). -/
theorem State.Inv.decodeBounds {s : State} (h : s.Inv) (hseq : s.seq = .reading) :
    s.tokens.toNat ≤ s.streamLen / 9 ∧ s.dstLen.toNat ≤ 15 * (s.streamLen / 9) := by
  obtain ⟨hcur, htokens, hbytes⟩ := h.decoderOk hseq
  omega

/-! ### A CORE step while Reading -/

theorem exists_coreStep_of_reading {s : State} (h : s.Inv) (hseq : s.seq = .reading) : ∃ t, coreStep s = .next t := by
  rw [coreStep_of_reading hseq]
  exact exec_decStep_completes hseq (h.srcLen_le_srcCap_of_reading hseq)

theorem coreStep_streamLen {s t : State} (hstep : coreStep s = .next t) : t.streamLen = s.streamLen := by
  obtain ⟨-, hsrcLen, -⟩ := coreNeverWritesTheHostsState s t hstep
  rw [State.streamLen, State.streamLen, hsrcLen]

/-- The step ends the command with its result as it stands, or moves CUR by 9 bits or more. -/
theorem coreStep_ends_or_reads {s t : State} (h : s.Inv) (hseq : s.seq = .reading) (hstep : coreStep s = .next t) :
    (t.Ended ∧ t.tokens = s.tokens ∧ t.dstLen = s.dstLen) ∨
      (t.seq = .reading ∧ s.bits.toNat + 9 ≤ t.bits.toNat) := by
  cases coreStep_case hstep with
  | decDone => exact .inl ⟨(done_ended s).1, rfl, rfl⟩
  | decError e => exact .inl ⟨(raise_ended e s).1, rfl, rfl⟩
  | decLit b p _ _ _ hstream => exact .inr ⟨hseq, (h.cur_add_toNat hseq (w := 9) hstream).ge⟩
  | decCopy d len p _ _ _ hstream =>
    refine .inr ⟨(copyEffect_seq s _ _).trans hseq, ?_⟩
    rw [copyEffect_bits, h.cur_add_toNat hseq (w := 17) hstream]
    exact Nat.add_le_add_left (by decide) _
  | idle hidle => simp [hseq] at hidle
  | encFull _ hscan => simp [hseq] at hscan
  | encCopy _ _ hscan => simp [hseq] at hscan
  | encLit hscan => simp [hseq] at hscan
  | encFinish hscan => simp [hseq] at hscan

/-! ### The end of a running DECODE (R181, R240) -/

/-- One step of a running DECODE, then the rest of its run. -/
theorem CoreRun.cons_of_reading {k : Nat} {s u t : State} (hseq : s.seq = .reading) (hstep : coreStep s = .next u)
    (hrun : CoreRun k u t) : CoreRun (k + 1) s t :=
  ⟨by simp [hseq], u, hstep, hrun⟩

/-- Settles O58, by induction over the bits that are left: a step that does not end the command takes 9 of them, and one
that does leaves the bounds of the invariant. -/
theorem decodeEndsInBoundedSteps : Obligations.DecodeEndsInBoundedSteps := by
  intro s h hseq
  induction hleft : s.streamLen - s.bits.toNat using Nat.strong_induction_on generalizing s with
  | _ left ih =>
    obtain ⟨u, hstep⟩ := exists_coreStep_of_reading h hseq
    obtain ⟨hended, htokens, hdstLen⟩ | ⟨hseq', hmoves⟩ := coreStep_ends_or_reads h hseq hstep
    · have hbounds := h.decodeBounds hseq
      rw [← htokens, ← hdstLen] at hbounds
      exact ⟨1, u, by omega, .cons_of_reading hseq hstep rfl, hended, hbounds⟩
    · have h' := coreStep_keeps_inv h hstep
      have hstream := coreStep_streamLen hstep
      obtain ⟨hcur, -⟩ := h'.decoderOk hseq'
      obtain ⟨k, t, hk, hrun, hended, hbounds⟩ := ih _ (by omega) u h' hseq' rfl
      rw [hstream] at hk hbounds
      exact ⟨k + 1, t, by omega, .cons_of_reading hseq hstep hrun, hended, hbounds⟩

end Sys2Proof.Machine
end

section
/-! The round trip (43_decoder.md R180). A running ENCODE that succeeds is a list of greedy tokens and the flush, so its
output holds, from each token boundary on, what the writer had there. A greedy token stands for the bytes of the input at
POS (41_match_finder.md R137), and executing it puts out those bytes (R174); so a DECODE of that output, token by token
with the ENCODE, puts out the input. -/

namespace Sys2Proof

/-- The token stands for the `inputLen` bytes of `inp` from `i` on: its byte, or those that its distance reaches back to
before `i`, tiled (R133, R152, R153). -/
def Token.StandsFor (inp : Nat → Byte) (i : Nat) : Token → Prop
  | .lit b => b = inp i
  | .copy d len => 1 ≤ d.toNat ∧ d.toNat ≤ i ∧ Machine.tileMatch inp i (i - d.toNat) len.toNat = true

end Sys2Proof

namespace Sys2Proof.Machine

/-! ### A running ENCODE that succeeds, as its tokens (R151, R156) -/

/-- From `s` on an ENCODE emits the greedy token at each POS, every one fits, and it ends at `e` with the flush. -/
inductive EncodesTo (e : State) : State → Prop
  | finish {s : State} (h : s.Inv) (hseq : s.seq = .scanning) (hend : ¬ s.pos < s.srcLen.toNat)
      (he : e = done (bwFlush s)) : EncodesTo e s
  | token {s : State} (h : s.Inv) (hseq : s.seq = .scanning) (hpos : s.pos < s.srcLen.toNat) (hroom : ¬ s.TokenFull)
      (hrest : EncodesTo e (emitToken s.greedyToken s)) : EncodesTo e s

theorem CoreRun.encodesTo {k : Nat} {s e : State} (hrun : CoreRun k s e) (h : s.Inv) (hseq : s.seq = .scanning)
    (he : e.seq = .idle) (hsuccess : e.status.err = .none) : EncodesTo e s := by
  induction k using Nat.strong_induction_on generalizing s with
  | _ k ih =>
    by_cases hpos : s.pos < s.srcLen.toNat
    · have hroom := hrun.not_tokenFull h hseq hpos he hsuccess
      have hstep := coreStep_of_not_tokenFull h hseq hpos hroom
      obtain ⟨j, hj, hrest⟩ := hrun.first hseq he hstep
      exact .token h hseq hpos hroom (ih j hj hrest (coreStep_keeps_inv h hstep) ((emitToken_seq _ s).trans hseq))
    · obtain ⟨j, -, hrest⟩ := hrun.first hseq he (coreStep_of_inputEnd h hseq hpos)
      exact .finish h hseq hpos (hrest.eq_of_idle rfl).symm

/-! ### The stream that it puts out (R104) -/

/-- A byte of the output is the same in every state whose DST lists the same byte there. -/
theorem State.OutputOk.dstByte_eq {s t : State} {k : Nat} (h : s.OutputOk) (hk : k < s.dstLen.toNat)
    (hread : Memory.read t.dst k = Memory.read s.dst k) : t.dstByte k = s.dstByte k := by
  obtain ⟨-, hwritten, -⟩ := h
  obtain ⟨b, hb⟩ := Option.isSome_iff_exists.1 ((Memory.writtenBelow_iff _ _).1 hwritten k hk)
  rw [State.dstByte, State.dstByte, hread, hb, Option.getD_some, Option.getD_some]

/-- The output of `e` is a stream that begins with what the writer of `s` holds and ends with zeros. -/
structure StreamExtends (s e : State) : Prop where
  bits : s.bits.toNat ≤ e.bits.toNat
  stream : ∀ k < s.bits.toNat, Sys2Proof.streamBit e.dstByte k = s.writerBit k
  dstLen : e.dstLen.toNat = ceil8 e.bits.toNat
  padding : ∀ k, e.bits.toNat ≤ k → k < 8 * e.dstLen.toNat → Sys2Proof.streamBit e.dstByte k = false

/-- The flush puts the writer's stream in DST and pads it. -/
theorem StreamExtends.ofFinish {s : State} (h : s.Inv) (hseq : s.seq = .scanning) :
    StreamExtends s (done (bwFlush s)) := by
  obtain ⟨-, -, hwriter, hcap, -⟩ := h.encoderOk hseq
  obtain ⟨hdst, hstream, hpad, -⟩ := bwFlush_spec hwriter hcap
  obtain ⟨-, hout⟩ := bwFlush_memoryOk_outputOk h hseq
  have hbit : ∀ k < 8 * ceil8 s.bits.toNat, Sys2Proof.streamBit (done (bwFlush s)).dstByte k =
      Sys2Proof.streamBit (bwFlush s).dstByte k := fun k hk => by
    rw [Sys2Proof.streamBit, Sys2Proof.streamBit, hout.dstByte_eq (t := done (bwFlush s)) (by omega) rfl]
  have hbits : (done (bwFlush s)).bits = s.bits := bwFlush_bits s
  refine ⟨by rw [hbits], fun k hk => ?_, by rw [hbits]; exact hdst, fun k hk hlt => ?_⟩
  · rw [hbit k (by rw [ceil8]; omega), hstream k hk]
  · rw [hbits] at hk
    rw [done_dstLen, hdst] at hlt
    rw [hbit k hlt, hpad k hk hlt]

theorem EncodesTo.streamExtends {s e : State} (henc : EncodesTo e s) : StreamExtends s e := by
  induction henc with
  | finish h hseq _ he => exact he ▸ .ofFinish h hseq
  | @token s h hseq _ hroom _ ih =>
    obtain ⟨-, -, hwidth, hold, -⟩ := emitToken_appends s.greedyToken (h.writerOk hseq) (Nat.le_of_not_lt hroom)
    have hless := hwidth ▸ ih.bits
    exact ⟨by omega, fun k hk => (ih.stream k (by omega)).trans (hold k hk), ih.dstLen, ih.padding⟩

/-- The next token's bits stand in the output at BITS (R180). -/
theorem EncodesTo.token_stands {s e : State} (hrest : EncodesTo e (emitToken s.greedyToken s)) (h : s.Inv)
    (hseq : s.seq = .scanning) (hroom : ¬ s.TokenFull) :
    s.bits.toNat + s.greedyToken.width ≤ e.bits.toNat ∧
      BitsStand (Sys2Proof.streamBit e.dstByte) s.bits.toNat (encodeToken s.greedyToken) := by
  obtain ⟨-, -, hwidth, -, hnew, -⟩ := emitToken_appends s.greedyToken (h.writerOk hseq) (Nat.le_of_not_lt hroom)
  have hext := hrest.streamExtends
  refine ⟨hwidth ▸ hext.bits, fun j hj => ?_⟩
  rw [encodeToken_length] at hj
  rw [hext.stream _ (by omega), hnew j hj]

/-! ### An emission leaves the input (R61) -/

theorem emitToken_srcByte (t : Token) (s : State) : (emitToken t s).srcByte = s.srcByte :=
  (congrArg State.srcByte (emitToken_same t s).eq :)
theorem emitToken_input (t : Token) (s : State) : (emitToken t s).input = s.input :=
  (congrArg State.input (emitToken_same t s).eq :)

/-! ### What a greedy token stands for (R137, R138) -/

theorem State.greedyToken_standsFor (s : State) : s.greedyToken.StandsFor s.srcByte s.pos := by
  cases hfind : s.findMatch s.pos with
  | none =>
    rw [State.greedyToken_of_none hfind]
    rfl
  | some m =>
    obtain ⟨d, len⟩ := m
    obtain ⟨hd, hlen⟩ := State.findMatch_fits hfind
    obtain ⟨i', rfl, -, -, -, hlt, hmatch, -⟩ := mfFind_eq_some_iff.1 hfind
    have hdist : (BitVec.ofNat 12 (s.pos - i')).toNat = s.pos - i' := Nat.mod_eq_of_lt hd
    have hcount : (BitVec.ofNat 4 len).toNat = len := Nat.mod_eq_of_lt hlen
    rw [State.greedyToken_of_some hfind, Token.StandsFor, hdist, hcount, Nat.sub_sub_self hlt.le]
    exact ⟨Nat.sub_pos_of_lt hlt, Nat.sub_le _ _, hmatch⟩

/-! ### Executing a token (R172, R173) -/

/-- What a token does once it may run. -/
def executeToken : Token → State → State
  | .lit b => litEffect b
  | .copy d len => copyEffect d.toNat len.toNat

theorem executeToken_same (t : Token) (s : State) :
    executeToken t s = { s with dst := (executeToken t s).dst, dstLen := (executeToken t s).dstLen,
                                bits := s.bits + BitVec.ofNat 32 t.width, tokens := s.tokens + 1 } := by
  cases t with
  | lit b => rfl
  | copy d len => exact copyEffect_same _ _ s

theorem executeToken_cfg (t : Token) (s : State) : (executeToken t s).cfg = s.cfg :=
  (congrArg State.cfg (executeToken_same t s) :)
theorem executeToken_seq (t : Token) (s : State) : (executeToken t s).seq = s.seq :=
  (congrArg State.seq (executeToken_same t s) :)
theorem executeToken_tokens (t : Token) (s : State) : (executeToken t s).tokens = s.tokens + 1 :=
  (congrArg State.tokens (executeToken_same t s) :)
theorem executeToken_streamLen (t : Token) (s : State) : (executeToken t s).streamLen = s.streamLen :=
  (congrArg State.streamLen (executeToken_same t s) :)
theorem executeToken_streamBit (t : Token) (s : State) : (executeToken t s).streamBit = s.streamBit :=
  (congrArg State.streamBit (executeToken_same t s) :)

/-- CUR moves over the token's bits (R172, R173). -/
theorem executeToken_bits_toNat {s : State} {t : Token} (h : s.Inv) (hseq : s.seq = .reading)
    (hbits : s.bits.toNat + t.width ≤ s.streamLen) : (executeToken t s).bits.toNat = s.bits.toNat + t.width := by
  have hmoves : (executeToken t s).bits = s.bits + BitVec.ofNat 32 t.width :=
    (congrArg State.bits (executeToken_same t s) :)
  have hwidth : (BitVec.ofNat 32 t.width).toNat = t.width := by cases t <;> rfl
  rw [hmoves, h.cur_add_toNat hseq (by rwa [hwidth]), hwidth]

/-- A token whose bits are present and which stands for bytes after those put out, with room for them, runs: its
distance is not malformed. -/
theorem exec_token_of_standsFor {s : State} {t : Token} {inp : Nat → Byte}
    (hbits : s.bits.toNat + t.width ≤ s.streamLen) (hstands : t.StandsFor inp s.dstLen.toNat)
    (hroom : s.dstLen.toNat + t.inputLen ≤ s.cfg.dstCap.toNat) :
    exec t.toInstr s = .next (executeToken t s) := by
  cases t with
  | lit b => exact exec_lit_of_fits b hbits hroom
  | copy d len =>
    obtain ⟨hmin, hmax, -⟩ := hstands
    exact exec_copy_of_fits hbits (fun _ => ⟨hmin, hmax⟩) hroom

/-- The bytes put out are those of `inp`. -/
def State.PutsOut (s : State) (inp : Nat → Byte) : Prop := ∀ k < s.dstLen.toNat, s.dstByte k = inp k

theorem litEffect_putsOut {s : State} {inp : Nat → Byte} (hroom : s.dstLen.toNat + 1 ≤ s.cfg.dstCap.toNat)
    (h : s.PutsOut inp) : (litEffect (inp s.dstLen.toNat) s).PutsOut inp := by
  intro k hk
  have hdst : (litEffect (inp s.dstLen.toNat) s).dstLen.toNat = s.dstLen.toNat + 1 :=
    append_dstLen_toNat (inp s.dstLen.toNat) hroom
  refine (dstByte_append (inp s.dstLen.toNat) s k).trans ?_
  split
  · next hlast => rw [hlast]
  · exact h k (by omega)

/-- The replay repeats the bytes that the comparison found to be repeated (R137, R174). -/
theorem copyEffect_putsOut {s : State} {inp : Nat → Byte} {d len : Nat} (hmin : 1 ≤ d) (hmax : d ≤ s.dstLen.toNat)
    (hmatch : tileMatch inp s.dstLen.toNat (s.dstLen.toNat - d) len = true)
    (hroom : s.dstLen.toNat + len ≤ s.cfg.dstCap.toNat) (h : s.PutsOut inp) : (copyEffect d len s).PutsOut inp := by
  intro k hk
  have hreplay := replayed d len (fun _ => ⟨hmin, hmax⟩) hroom
  rw [copyEffect_dstLen, hreplay.dstLen] at hk
  show (replay d len s).dstByte k = inp k
  by_cases hold : k < s.dstLen.toNat
  · rw [State.dstByte, hreplay.frame k (.inl hold), replay_draws]
    exact h k hold
  · obtain ⟨j, rfl⟩ := Nat.exists_eq_add_of_le (Nat.le_of_not_lt hold)
    have hspan := Nat.mod_lt j hmin
    rw [tileMatch_iff, Nat.sub_sub_self hmax] at hmatch
    rw [hreplay.new j (by omega), h _ (by omega), hmatch j (by omega)]

theorem executeToken_putsOut {s : State} {t : Token} {inp : Nat → Byte} (hstands : t.StandsFor inp s.dstLen.toNat)
    (hroom : s.dstLen.toNat + t.inputLen ≤ s.cfg.dstCap.toNat) (h : s.PutsOut inp) :
    (executeToken t s).PutsOut inp ∧ (executeToken t s).dstLen.toNat = s.dstLen.toNat + t.inputLen := by
  cases t with
  | lit b =>
    obtain rfl : b = inp s.dstLen.toNat := hstands
    exact ⟨litEffect_putsOut hroom h, append_dstLen_toNat (inp s.dstLen.toNat) hroom⟩
  | copy d len =>
    obtain ⟨hmin, hmax, hmatch⟩ := hstands
    refine ⟨copyEffect_putsOut hmin hmax hmatch hroom h, ?_⟩
    exact (congrArg BitVec.toNat (copyEffect_dstLen s _ _)).trans (replayed _ _ (fun _ => ⟨hmin, hmax⟩) hroom).dstLen

/-! ### A DECODE beside the ENCODE of its stream -/

/-- `d` is a running DECODE of the output of `e`, at the token boundary that the ENCODE `s` has reached: it has put out
the input before POS, and DST has room for the rest. -/
structure DecodesWith (e s d : State) : Prop where
  inv : d.Inv
  seq : d.seq = .reading
  streamLen : d.streamLen = 8 * e.dstLen.toNat
  stream : ∀ k < d.streamLen, d.streamBit k = Sys2Proof.streamBit e.dstByte k
  bits : d.bits.toNat = s.bits.toNat
  tokens : d.tokens = s.tokens
  dstLen : d.dstLen.toNat = s.pos
  output : d.PutsOut s.srcByte
  room : s.srcLen.toNat ≤ d.cfg.dstCap.toNat

section
variable {e s d : State} (hwith : DecodesWith e s d)
include hwith

theorem DecodesWith.greedyToken_standsFor : s.greedyToken.StandsFor s.srcByte d.dstLen.toNat :=
  hwith.dstLen ▸ s.greedyToken_standsFor

theorem DecodesWith.token_room (hpos : s.pos < s.srcLen.toNat) :
    d.dstLen.toNat + s.greedyToken.inputLen ≤ d.cfg.dstCap.toNat := by
  rw [hwith.dstLen]
  exact (State.greedyToken_within hpos).trans hwith.room

theorem DecodesWith.token_within (h : s.Inv) (hseq : s.seq = .scanning) (hroom : ¬ s.TokenFull)
    (hrest : EncodesTo e (emitToken s.greedyToken s)) : d.bits.toNat + s.greedyToken.width ≤ d.streamLen := by
  obtain ⟨hwithin, -⟩ := hrest.token_stands h hseq hroom
  rw [hwith.bits, hwith.streamLen, hrest.streamExtends.dstLen, ceil8]
  omega

/-- The next CORE step of the DECODE executes the token that the ENCODE emits next: the end is not clean, since 9 bits
or more remain, and the token's bits stand at CUR. -/
theorem DecodesWith.coreStep_token (h : s.Inv) (hseq : s.seq = .scanning) (hpos : s.pos < s.srcLen.toNat)
    (hroom : ¬ s.TokenFull) (hrest : EncodesTo e (emitToken s.greedyToken s)) :
    coreStep d = .next (executeToken s.greedyToken d) := by
  have hfits := hwith.inv.srcLen_le_srcCap_of_reading hwith.seq
  have hbits := hwith.token_within h hseq hroom hrest
  have hsize := s.greedyToken_size
  have hend : d.cleanEndAt d.bits.toNat = false := State.cleanEndAt_eq_false (by omega)
  obtain ⟨-, hwritten⟩ := hrest.token_stands h hseq hroom
  have hstand : BitsStand d.streamBit d.bits.toNat (encodeToken s.greedyToken) := fun j hj => by
    rw [encodeToken_length] at hj
    rw [hwith.stream _ (by omega), hwith.bits]
    exact hwritten j (by rwa [encodeToken_length])
  have htok : d.tokenAt d.bits.toNat = .ok (s.greedyToken, d.bits.toNat + s.greedyToken.width) :=
    decodeToken_of_bitsStand hstand hbits
  calc coreStep d = exec .decStep d := coreStep_of_reading hwith.seq
    _ = exec s.greedyToken.toInstr d := exec_decStep_of_token hwith.seq hfits hend htok
    _ = .next (executeToken s.greedyToken d) :=
      exec_token_of_standsFor hbits hwith.greedyToken_standsFor (hwith.token_room hpos)

/-- One token on, in both. -/
theorem DecodesWith.token (h : s.Inv) (hseq : s.seq = .scanning) (hpos : s.pos < s.srcLen.toNat)
    (hroom : ¬ s.TokenFull) (hrest : EncodesTo e (emitToken s.greedyToken s)) :
    DecodesWith e (emitToken s.greedyToken s) (executeToken s.greedyToken d) := by
  have hstep := hwith.coreStep_token h hseq hpos hroom hrest
  have hbits := executeToken_bits_toNat hwith.inv hwith.seq (hwith.token_within h hseq hroom hrest)
  obtain ⟨houtput, hdstLen⟩ :=
    executeToken_putsOut hwith.greedyToken_standsFor (hwith.token_room hpos) hwith.output
  obtain ⟨-, -, hwidth, -⟩ := emitToken_appends s.greedyToken (h.writerOk hseq) (Nat.le_of_not_lt hroom)
  refine ⟨coreStep_keeps_inv hwith.inv hstep, (executeToken_seq _ d).trans hwith.seq,
    (executeToken_streamLen _ d).trans hwith.streamLen, ?_, ?_, ?_, ?_, ?_, ?_⟩
  · rw [executeToken_streamLen, executeToken_streamBit]
    exact hwith.stream
  · rw [hbits, hwidth, hwith.bits]
  · rw [executeToken_tokens, emitToken_tokens, hwith.tokens]
  · rw [hdstLen, emitToken_pos, hwith.dstLen]
  · rwa [emitToken_srcByte]
  · rw [emitToken_srcLen, executeToken_cfg]
    exact hwith.room

/-- At the ENCODE's end the DECODE finds the padding, a clean end (R104, R109). -/
theorem DecodesWith.coreStep_end (hext : StreamExtends s e) (hbits : e.bits = s.bits) :
    coreStep d = .next (done d) := by
  have hfits := hwith.inv.srcLen_le_srcCap_of_reading hwith.seq
  have hcur : d.bits.toNat = e.bits.toNat := by rw [hbits, hwith.bits]
  have hlen := hwith.streamLen
  have hbytes := hext.dstLen
  rw [ceil8] at hbytes
  have hwithin : d.bits.toNat ≤ d.streamLen := by omega
  have hzero : ∀ k, d.bits.toNat ≤ k → k < d.streamLen → d.streamBit k = false := fun k hk hlt => by
    rw [hwith.stream k hlt]
    exact hext.padding k (hcur ▸ hk) (hlen ▸ hlt)
  have hend : d.cleanEndAt d.bits.toNat = true :=
    (State.cleanEndAt_eq hwithin).trans ((cleanEndIsZeroPadding _ _ _ hwithin).2 ⟨by omega, hzero⟩)
  exact (coreStep_of_reading hwith.seq).trans (exec_decStep_of_cleanEnd hwith.seq hfits hend)

end

/-! ### The end of the DECODE -/

/-- While a command runs STATUS holds no error (R23). -/
theorem State.StatusOk.err_eq_none {s : State} (h : s.StatusOk) (hrun : s.seq ≠ .idle) : s.status.err = .none := by
  obtain ⟨hbusy, hone, herr, -⟩ := h
  by_contra hfail
  exact hone ⟨hbusy.2 hrun, herr hfail⟩

/-- `f` is the successful end of a DECODE that put out the input of `s` with the counts of `e`. -/
structure DecodedInput (e s f : State) : Prop where
  ended : f.Ended
  success : f.status.err = .none
  output : f.output = s.input
  tokens : f.tokens = e.tokens
  bits : f.bits = e.bits

theorem DecodesWith.decodedInput {s d : State} (hwith : DecodesWith (done (bwFlush s)) s d)
    (hend : s.pos = s.srcLen.toNat) : DecodedInput (done (bwFlush s)) s (done d) := by
  have hlen : (done d).dstLen.toNat = s.srcLen.toNat := hwith.dstLen.trans hend
  refine ⟨(done_ended d).1, hwith.inv.statusOk.err_eq_none (by simp [hwith.seq]), ?_, ?_, ?_⟩
  · rw [State.output, State.input, hlen]
    refine List.map_congr_left fun k hk => ?_
    have hk : k < d.dstLen.toNat := hlen ▸ List.mem_range.1 hk
    exact (hwith.inv.outputOk.dstByte_eq (t := done d) hk rfl).trans (hwith.output k hk)
  · rw [done_tokens, done_tokens, bwFlush_tokens, hwith.tokens]
  · rw [done_bits, done_bits, bwFlush_bits]
    exact BitVec.eq_of_toNat_eq hwith.bits

/-- Token by token the DECODE keeps with the ENCODE, to the end of both. -/
theorem EncodesTo.decodes {e s d : State} (henc : EncodesTo e s) (hwith : DecodesWith e s d) :
    ∃ j f, CoreRun j d f ∧ DecodedInput e s f := by
  induction henc generalizing d with
  | @finish s h hseq hend he =>
    subst he
    have hstep := hwith.coreStep_end (.ofFinish h hseq) (bwFlush_bits s)
    exact ⟨1, done d, .cons_of_reading hwith.seq hstep rfl, hwith.decodedInput (h.pos_eq_srcLen hseq hend)⟩
  | @token s h hseq hpos hroom hrest ih =>
    obtain ⟨j, f, hrun, hdecoded⟩ := ih (hwith.token h hseq hpos hroom hrest)
    have hstep := hwith.coreStep_token h hseq hpos hroom hrest
    have houtput := hdecoded.output
    rw [emitToken_input] at houtput
    exact ⟨j + 1, f, .cons_of_reading hwith.seq hstep hrun, { hdecoded with output := houtput }⟩

/-! ### From the two starts -/

/-- SRC of a block that was given the output of `e` holds its stream. -/
theorem State.streamBit_eq_of_input {d e : State} (hinput : d.input = e.output) (hlen : d.srcLen = e.dstLen) {k : Nat}
    (hk : k < d.streamLen) : d.streamBit k = Sys2Proof.streamBit e.dstByte k := by
  rw [State.input, State.output, hlen] at hinput
  rw [State.streamLen, hlen] at hk
  have hbyte : d.srcByte (k / 8) = e.dstByte (k / 8) :=
    List.map_inj_left.1 hinput (k / 8) (List.mem_range.2 (by omega))
  rw [State.streamBit, Sys2Proof.streamBit, Sys2Proof.streamBit, hbyte]

/-- Both commands start at position 0 with nothing put out (R150, R170). -/
theorem decodesWith_start {s d e : State} (hinv : (decodeStarted d).Inv) (hlen : d.srcLen = e.dstLen)
    (hinput : d.input = e.output) (hroom : s.srcLen.toNat ≤ d.cfg.dstCap.toNat) :
    DecodesWith e (encodeStarted s) (decodeStarted d) where
  inv := hinv
  seq := rfl
  streamLen := congrArg (8 * BitVec.toNat ·) hlen
  stream _ hk := State.streamBit_eq_of_input hinput hlen hk
  bits := rfl
  tokens := rfl
  dstLen := rfl
  output _ hk := absurd hk (Nat.not_lt_zero _)
  room := hroom

/-- Settles O59: the ENCODE that succeeds is a list of tokens and the flush, and the DECODE keeps with it from the two
starts to the two ends. -/
theorem decodeOfEncodeIsTheInput : Obligations.DecodeOfEncodeIsTheInput := by
  intro s s0 e d k h hexec hrun he hsuccess hd hbusy hwritten hlen hfits hsrc hinput hroom
  have h0 := execEncode_keeps_inv h hexec
  obtain ⟨-, -, -, -, rfl⟩ := execEncode_next hexec
  have hencode := hrun.startEncode_eq hsuccess
  rw [hencode] at hrun h0
  have hsource : d.sourceWritten = true := (State.sourceWritten_eq hfits).trans hsrc
  have hstart : exec .decode d = .next (decodeStarted d) := by
    rw [exec_decode_of_operands hbusy hwritten hsource, startDecode_of_fits hfits]
  have hwith := decodesWith_start (s := s) (execDecode_keeps_inv hd hstart) hlen hinput hroom
  obtain ⟨j, f, hdecodes, hend⟩ := (hrun.encodesTo h0 rfl he hsuccess).decodes hwith
  exact ⟨_, j, f, hstart, hdecodes, hend.ended, hend.success, hend.output, hend.tokens, hend.bits⟩

end Sys2Proof.Machine
end

section
/-! The host actions that the block refuses (60_exceptions.md R216, 10_state.md R21, 20_memory.md R74): the refusals of
the host port, one equation each. None of them reads the host's list, so a step refuses what the port refuses. -/

namespace Sys2Proof.Machine

/-! ### A write to CTRL -/

theorem writeCtrl_of_busy {s : State} (v : Word) (hbusy : s.status.busy = true) :
    writeCtrl v s = .refused .ctrlWhileBusy :=
  if_pos hbusy

/-- The reserved command is refused while BUSY and while idle (R90, R216). -/
theorem writeCtrl_reserved_refused {v : Word} (hcmd : v.extractLsb' 0 2 = 0b11#2) (s : State) :
    ∃ r, writeCtrl v s = .refused r := by
  have hdec : decodeCommand v = .error .reservedCommand := decodeCommand_of_lowBits hcmd
  cases hbusy : s.status.busy with
  | true => exact ⟨_, writeCtrl_of_busy v hbusy⟩
  | false => exact ⟨_, writeCtrl_of_error hbusy hdec⟩

/-! ### A write to an operand register, SRC or DST while BUSY -/

theorem regWrite_operand_of_busy {s : State} {off : Nat} (v : Word) (hoff : off = 0x08 ∨ off = 0x0C)
    (hbusy : s.status.busy = true) : regWrite off 4 v s = .refused .operandWriteWhileBusy := by
  obtain rfl | rfl := hoff <;> exact if_pos hbusy

theorem srcWriteStep_of_busy {s : State} {k : Nat} (b : Byte) (hk : k < s.cfg.srcCap.toNat)
    (hbusy : s.status.busy = true) : srcWriteStep k b s = .refused .srcWriteWhileBusy :=
  (if_neg (Nat.not_le.2 hk)).trans (if_pos hbusy)

theorem dstWriteStep_of_busy {s : State} {k : Nat} (b : Byte) (hk : k < s.cfg.dstCap.toNat)
    (hbusy : s.status.busy = true) : dstWriteStep k b s = .refused .dstWriteWhileBusy :=
  (if_neg (Nat.not_le.2 hk)).trans (if_pos hbusy)

/-! ### A register access that is not an aligned word -/

theorem regReadStep_of_badAccess {off width : Nat} (s : State) (hbad : ¬ (width = 4 ∧ off % 4 = 0)) :
    regReadStep off width s = .refused .badRegisterAccess :=
  if_neg (hbad ∘ wordAccess_iff.1)

theorem regWrite_of_badAccess {off width : Nat} (v : Word) (s : State) (hbad : ¬ (width = 4 ∧ off % 4 = 0)) :
    regWrite off width v s = .refused .badRegisterAccess :=
  if_neg (hbad ∘ wordAccess_iff.1)

/-- Settles O14: the step is the host port's answer to the action, and each clause is one of its refusals. -/
theorem hostViolationsAreRefused : Obligations.HostViolationsAreRefused := by
  intro s rest
  let r : State := { s with hostq := rest }
  refine ⟨?reserved, ?ctrl, ?operand, ?src, ?dst, ?read, ?write⟩
  case reserved =>
    intro v hq hcmd
    rw [step_of_ctrlWrite hq]
    exact writeCtrl_reserved_refused hcmd r
  case ctrl =>
    intro v hq hbusy
    exact ⟨_, (step_of_ctrlWrite hq).trans (writeCtrl_of_busy (s := r) v hbusy)⟩
  case operand =>
    intro off v hq hoff hbusy
    exact (step_of_hostAction hq).trans (regWrite_operand_of_busy (s := r) v hoff hbusy)
  case src =>
    intro k b hq hk hbusy
    exact (step_of_hostAction hq).trans (srcWriteStep_of_busy (s := r) b hk hbusy)
  case dst =>
    intro k b hq hk hbusy
    exact (step_of_hostAction hq).trans (dstWriteStep_of_busy (s := r) b hk hbusy)
  case read =>
    intro off width hq hbad
    exact (step_of_hostAction hq).trans (regReadStep_of_badAccess r hbad)
  case write =>
    intro off width v hq hbad
    exact (step_of_hostAction hq).trans (regWrite_of_badAccess v r hbad)

end Sys2Proof.Machine
end

section
/-! Errors (60_exceptions.md R201 to R206): `raise`, the one operation that records them, and the checks of LIT and COPY
in the order of R205, one equation per check that fails. -/

namespace Sys2Proof.Machine

/-- Settles O23: the fields of `raise`, of which POS is the only one that depends on SEQ. -/
theorem raiseEndsTheCommand : Obligations.RaiseEndsTheCommand := fun e s =>
  ⟨raise_status s e, raise_seq s e, rfl, raise_pos_of_scanning e⟩

/-! ### LIT (R172) -/

theorem exec_lit_of_truncated {s : State} (b : Byte) (hbits : s.streamLen < s.bits.toNat + 9) :
    exec (.lit b) s = .next (raise .truncatedStream s) :=
  if_pos hbits

theorem exec_lit_of_full {s : State} (b : Byte) (hbits : s.bits.toNat + 9 ≤ s.streamLen)
    (hfull : s.cfg.dstCap.toNat < s.dstLen.toNat + 1) : exec (.lit b) s = .next (raise .capacityExceeded s) :=
  (if_neg (Nat.not_lt.2 hbits)).trans (if_pos (State.outFull_iff.2 hfull))

/-! ### COPY (R173) -/

/-- A COPY's distance is malformed where it puts out a byte and its field is 0 or passes the output (R175, R202). -/
theorem State.badDistance_fields_iff {s : State} {d : BitVec 12} {len : BitVec 4} :
    s.badDistance d.toNat len.toNat = true ↔ len ≠ 0 ∧ (d = 0 ∨ s.dstLen.toNat < d.toNat) := by
  simp [State.badDistance_iff, BitVec.toNat_eq, Nat.pos_iff_ne_zero]

section
variable {s : State} {d : BitVec 12} {len : BitVec 4}

theorem exec_copy_of_truncated (hbits : s.streamLen < s.bits.toNat + 17) :
    exec (.copy d len) s = .next (raise .truncatedStream s) :=
  if_pos hbits

theorem exec_copy_of_malformed (hbits : s.bits.toNat + 17 ≤ s.streamLen)
    (hbad : s.badDistance d.toNat len.toNat = true) : exec (.copy d len) s = .next (raise .malformedStream s) :=
  (if_neg (Nat.not_lt.2 hbits)).trans (if_pos hbad)

theorem exec_copy_of_full (hbits : s.bits.toNat + 17 ≤ s.streamLen) (hgood : ¬ s.badDistance d.toNat len.toNat = true)
    (hfull : s.cfg.dstCap.toNat < s.dstLen.toNat + len.toNat) :
    exec (.copy d len) s = .next (raise .capacityExceeded s) :=
  (if_neg (Nat.not_lt.2 hbits)).trans ((if_neg hgood).trans (if_pos (State.outFull_iff.2 hfull)))

end

/-- Settles O46: each clause names the first check that fails. -/
theorem tokenErrorsInOrder : Obligations.TokenErrorsInOrder := by
  intro s
  refine ⟨fun b hbits => exec_lit_of_truncated b hbits, fun b hbits hfull => exec_lit_of_full b hbits hfull,
    fun _ _ hbits => exec_copy_of_truncated hbits, ?malformed, ?full⟩
  case malformed =>
    intro d len hbits hlen hdist
    exact exec_copy_of_malformed hbits (State.badDistance_fields_iff.2 ⟨hlen, hdist⟩)
  case full =>
    intro d len hbits hdist hfull
    refine exec_copy_of_full hbits (fun hbad => ?_) hfull
    obtain ⟨hlen, hzero | hfar⟩ := State.badDistance_fields_iff.1 hbad
    · exact hdist.elim hlen fun ⟨hd, _⟩ => hd hzero
    · exact hdist.elim hlen fun ⟨_, hnear⟩ => Nat.not_lt.2 hnear hfar

end Sys2Proof.Machine
end

section
/-! Reset and the progress of CORE (70_reset_and_hazards.md R230, R231, R239, R240): RESET from any state, the successful
end of a command, and a next state for every CORE step. -/

namespace Sys2Proof.Machine

/-! ### RESET (R230, R231) -/

theorem exec_reset (s : State) : exec .reset s = .next (resetAll s) := rfl

/-- A reset by the HOST is RESET, whatever SEQ is (R231). -/
theorem step_of_hostReset {u : State} {rest : List HostAction} (hq : u.hostq = .reset :: rest) :
    step u = .next (resetAll { u with hostq := rest }) :=
  (step_of_hostAction hq).trans (exec_reset _)

/-- Settles O10: RESET's state is the reset state of the block's parameters, with the HOST's list and the draw count. -/
theorem resetAbandonsAnyCommand : Obligations.ResetAbandonsAnyCommand := by
  intro s
  refine ⟨resetAll s, exec_reset s, rfl, rfl, rfl, rfl, rfl, rfl, rfl, rfl, Memory.read_nil, Memory.read_nil,
    rfl, rfl, rfl, ?byHost⟩
  case byHost =>
    rintro u rest hq rfl
    exact step_of_hostReset hq

/-! ### done (R239) -/

/-- Settles O24: the fields of `done`, of which POS and the draw count are the only ones left open. -/
theorem doneEndsTheCommand : Obligations.DoneEndsTheCommand := fun s =>
  ⟨done_status s, done_seq s, rfl⟩

/-! ### CORE never stops (R240) -/

/-- While Scanning a token is refused by the capacity check or emitted, and the input's end has room for the flush
(R63, R154). -/
theorem exists_coreStep_of_scanning {s : State} (h : s.Inv) (hseq : s.seq = .scanning) : ∃ t, coreStep s = .next t := by
  by_cases hpos : s.pos < s.srcLen.toNat
  · by_cases hfull : s.TokenFull
    · exact ⟨_, coreStep_of_tokenFull h hseq hpos hfull⟩
    · exact ⟨_, coreStep_of_not_tokenFull h hseq hpos hfull⟩
  · exact ⟨_, coreStep_of_inputEnd h hseq hpos⟩

/-- Settles O53, by the state of SEQ. -/
theorem coreNeverStops : Obligations.CoreNeverStops := by
  intro s h
  cases hseq : s.seq with
  | idle => exact ⟨s, coreStep_of_idle hseq⟩
  | scanning => exact exists_coreStep_of_scanning h hseq
  | reading => exact exists_coreStep_of_reading h hseq

end Sys2Proof.Machine
end
